-- ==== Sys2Proof/Word.lean ====
section
/-! DEFINITION. The widths of HUFFCORE's quantities (00_scope.md R6) and its bit sequences (R7). -/

namespace Sys2Proof

/-- A command word of the `cmd` port (30_encoding.md R60). -/
abbrev CmdWord := BitVec 16

/-- A symbol, or a byte of a stream: SYMW = 8 (00_scope.md R6). -/
abbrev Sym := BitVec 8

/-- A frequency count, a node weight, TOTAL, EMITTED, or response data: CNTW = 32 (00_scope.md R6). -/
abbrev Count := BitVec 32

/-- A node index: NIDXW = 9 (00_scope.md R6). -/
abbrev NodeIdx := BitVec 9

/-- A stored code vector: CODEVECW = 256 (00_scope.md R6). -/
abbrev CodeVec := BitVec 256

/-- A bit sequence in time order, the first bit first (00_scope.md R7): a code path or a part of a bit stream. -/
abbrev Bits := List Bool

end Sys2Proof
end

