-- ==== Sys2Proof/Syntax.lean ====
section
/-! DEFINITION. The fourteen commands (30_encoding.md R65), one constructor for each row of the opcode table. -/

namespace Sys2Proof

/-- A command with its operand fields as R61 and R62 give them: unsigned, taken as they stand. -/
inductive Instr where
  /-- R130: do nothing. -/
  | nop
  /-- R131: abandon the session and return to the reset state. -/
  | clr
  /-- R91: count one occurrence of the symbol `x`. -/
  | cnt (x : Sym)
  /-- R97: build the tree from the frequency table. -/
  | build
  /-- R106: fill the code table from the tree. -/
  | derive
  /-- R114: encode the symbol `x`. -/
  | enc (x : Sym)
  /-- R117: close the encode stream. -/
  | encend
  /-- R119: decode one byte of the compressed stream. -/
  | dec (b : BitVec 8)
  /-- R123: the source has no more bits. -/
  | decend
  /-- R132: read the status register `reg` (0 to 6 are defined). -/
  | rdr (reg : BitVec 4)
  /-- R133: read the frequency count of `x`. -/
  | rdf (x : Sym)
  /-- R134: read the validity and length of the code of `x`. -/
  | rdl (x : Sym)
  /-- R135: read the 32-bit word number `word` of the code vector of `x`. -/
  | rdc (x : Sym) (word : BitVec 3)
  /-- R136: read the part `field` (0 KIND, 1 WEIGHT, 2 LINKS) of the node `idx`. -/
  | rdn (idx : NodeIdx) (field : BitVec 2)
  deriving DecidableEq, Repr

end Sys2Proof
end

