-- ==== Sys2Proof/WellFormed.lean ====
section
/-! DEFINITION. Which commands have an encoding: the two value checks that masks cannot express
(30_encoding.md R66, R67 (c) and (d)). -/

namespace Sys2Proof

/-- `i` is a legal command: RDR names a register 0 to 6 and RDN a field 0 to 2; no other operand is restricted
(30_encoding.md R62, R67). -/
def Instr.wellFormed : Instr → Bool
  | .rdr reg => reg ≤ 6#4
  | .rdn _ field => field ≠ 3#2
  | .nop | .clr | .cnt _ | .build | .derive | .enc _ | .encend | .dec _ | .decend | .rdf _ | .rdl _ | .rdc _ _ => true

end Sys2Proof
end

