-- ==== Sys2Proof/Decode.lean ====
section
/-! DEFINITION. Decoding command words, total on all 65536 of them, and the encoder
(30_encoding.md R60, R61, R62, R65, R66, R67). -/

namespace Sys2Proof

/-- Why a word is illegal: the four cases of 30_encoding.md R67. -/
inductive IllegalReason where
  /-- R67 (a): the opcode is 0xE or 0xF. -/
  | reservedOpcode
  /-- R67 (b): a bit that the word's format marks must-be-zero is 1. -/
  | mustBeZero
  /-- R67 (c): RDR with a register number 7 to 15. -/
  | reservedRegister
  /-- R67 (d): RDN with field 3. -/
  | reservedField
  deriving DecidableEq, Repr

/-- What decoding a word gives: a command, or the reason why the word is illegal. -/
abbrev Decoded := Except IllegalReason Instr

/-- R60: `opcode = w[15:12]`. -/
def opcodeField (w : CmdWord) : BitVec 4 := w.extractLsb' 12 4

/-- R61, formats S and C: `w[7:0]`, a symbol or a compressed byte. -/
def symField (w : CmdWord) : Sym := w.extractLsb' 0 8

/-- R61, format R: `w[3:0]`, a register number. -/
def regField (w : CmdWord) : BitVec 4 := w.extractLsb' 0 4

/-- R61, format C: `w[10:8]`, which 32-bit word of the code vector. -/
def wordField (w : CmdWord) : BitVec 3 := w.extractLsb' 8 3

/-- R61, format N: `w[8:0]`, a node index. -/
def idxField (w : CmdWord) : NodeIdx := w.extractLsb' 0 9

/-- R61, format N: `w[10:9]`, which part of the node. -/
def partField (w : CmdWord) : BitVec 2 := w.extractLsb' 9 2

/-- Format Z (R61): `w[11:0]` must be zero. -/
def decodeZ (w : CmdWord) (i : Instr) : Decoded :=
  if w.extractLsb' 0 12 = 0#12 then .ok i else .error .mustBeZero

/-- Format S (R61): `w[11:8]` must be zero. -/
def decodeS (w : CmdWord) (i : Sym → Instr) : Decoded :=
  if w.extractLsb' 8 4 = 0#4 then .ok (i (symField w)) else .error .mustBeZero

/-- Format R (R61): `w[11:4]` must be zero, and the register number at most 6 (R67 (c)). -/
def decodeR (w : CmdWord) (i : BitVec 4 → Instr) : Decoded :=
  if w.extractLsb' 4 8 = 0#8 then
    if regField w ≤ 6#4 then .ok (i (regField w)) else .error .reservedRegister
  else .error .mustBeZero

/-- Format C (R61): `w[11]` must be zero. -/
def decodeC (w : CmdWord) (i : Sym → BitVec 3 → Instr) : Decoded :=
  if w.extractLsb' 11 1 = 0#1 then .ok (i (symField w) (wordField w)) else .error .mustBeZero

/-- Format N (R61): `w[11]` must be zero, and the field other than 3 (R67 (d)). -/
def decodeN (w : CmdWord) (i : NodeIdx → BitVec 2 → Instr) : Decoded :=
  if w.extractLsb' 11 1 = 0#1 then
    if partField w = 3#2 then .error .reservedField else .ok (i (idxField w) (partField w))
  else .error .mustBeZero

/-- The command a word stands for, by the opcode map of R65 and the formats of R61. -/
def decode (w : CmdWord) : Decoded :=
  match (opcodeField w).toNat with
  | 0x0 => decodeZ w .nop
  | 0x1 => decodeZ w .clr
  | 0x2 => decodeS w .cnt
  | 0x3 => decodeZ w .build
  | 0x4 => decodeZ w .derive
  | 0x5 => decodeS w .enc
  | 0x6 => decodeZ w .encend
  | 0x7 => decodeS w .dec
  | 0x8 => decodeZ w .decend
  | 0x9 => decodeR w .rdr
  | 0xA => decodeS w .rdf
  | 0xB => decodeS w .rdl
  | 0xC => decodeC w .rdc
  | 0xD => decodeN w .rdn
  | _ => .error .reservedOpcode

/-- The word of a command, from the opcode map and the formats (R61, R65, R72). For a command that is not
well-formed it is the illegal word that holds the operands, which `decode` refuses. -/
def encode : Instr → CmdWord
  | .nop => 0x0#4 ++ 0#12
  | .clr => 0x1#4 ++ 0#12
  | .cnt x => 0x2#4 ++ 0#4 ++ x
  | .build => 0x3#4 ++ 0#12
  | .derive => 0x4#4 ++ 0#12
  | .enc x => 0x5#4 ++ 0#4 ++ x
  | .encend => 0x6#4 ++ 0#12
  | .dec b => 0x7#4 ++ 0#4 ++ b
  | .decend => 0x8#4 ++ 0#12
  | .rdr reg => 0x9#4 ++ 0#8 ++ reg
  | .rdf x => 0xA#4 ++ 0#4 ++ x
  | .rdl x => 0xB#4 ++ 0#4 ++ x
  | .rdc x word => 0xC#4 ++ 0#1 ++ word ++ x
  | .rdn idx field => 0xD#4 ++ 0#1 ++ field ++ idx

/-- One row of R66: a word is the row's command when its bits under `mask` are `pattern` (and, for RDR and RDN,
the value check of R67 holds). -/
structure OpcodeRow where
  mnemonic : String
  pattern : CmdWord
  mask : CmdWord
  deriving DecidableEq, Repr

/-- The fourteen rows of R66. -/
def opcodeRows : List OpcodeRow :=
  [ ⟨"NOP", 0x0000#16, 0xFFFF#16⟩, ⟨"CLR", 0x1000#16, 0xFFFF#16⟩, ⟨"CNT", 0x2000#16, 0xFF00#16⟩,
    ⟨"BUILD", 0x3000#16, 0xFFFF#16⟩, ⟨"DERIVE", 0x4000#16, 0xFFFF#16⟩, ⟨"ENC", 0x5000#16, 0xFF00#16⟩,
    ⟨"ENCEND", 0x6000#16, 0xFFFF#16⟩, ⟨"DEC", 0x7000#16, 0xFF00#16⟩, ⟨"DECEND", 0x8000#16, 0xFFFF#16⟩,
    ⟨"RDR", 0x9000#16, 0xFFF0#16⟩, ⟨"RDF", 0xA000#16, 0xFF00#16⟩, ⟨"RDL", 0xB000#16, 0xFF00#16⟩,
    ⟨"RDC", 0xC000#16, 0xF800#16⟩, ⟨"RDN", 0xD000#16, 0xF800#16⟩ ]

/-- The mnemonic of a command (R65). -/
def Instr.mnemonic : Instr → String
  | .nop => "NOP"
  | .clr => "CLR"
  | .cnt _ => "CNT"
  | .build => "BUILD"
  | .derive => "DERIVE"
  | .enc _ => "ENC"
  | .encend => "ENCEND"
  | .dec _ => "DEC"
  | .decend => "DECEND"
  | .rdr _ => "RDR"
  | .rdf _ => "RDF"
  | .rdl _ => "RDL"
  | .rdc _ _ => "RDC"
  | .rdn _ _ => "RDN"

/-- The command of an opcode-table word: `w` holds its bits as the table numbers them, `nbits` says how many of
them the table gives, and every bit above is zero. A command is one 16-bit word (R60), so no bytes are laid out. -/
def decodeTableWord (nbits w : Nat) : Option Instr :=
  match decode (BitVec.ofNat 16 (w % 2 ^ nbits)) with
  | .ok i => some i
  | .error _ => none

end Sys2Proof
end

