-- ==== Sys2Proof/Config.lean ====
section
/-! DEFINITION. The fixed parameters of HUFFCORE (00_scope.md R6) and the two free values the spec leaves
unspecified (93_implementation_defined.md U1, U3). -/

namespace Sys2Proof

/-- NSYM, the size of the symbol alphabet and the number of entries of FREQ and of CODE (00_scope.md R6). -/
def Config.nsym : Nat := 256

/-- CNTMAX = 2^32 - 1, the largest total number of counted symbols (00_scope.md R6). -/
def Config.cntMax : Count := 0xFFFFFFFF#32

/-- NNODEMAX = 2 * NSYM - 1, the number of entries of the node memory (00_scope.md R6). -/
def Config.nnodeMax : Nat := 511

/-- CODELENMAX = NSYM - 1, the longest possible code in bits (00_scope.md R6). -/
def Config.codeLenMax : Nat := 255

/-- FREE VALUE (log entry 4): the 59 bits of the NODE entry at an index that is not valid. The spec leaves them
unspecified (10_state.md R16; U1, `any value`); no reachable state reads one. -/
opaque Config.unspecifiedNode : Nat → BitVec 59

/-- FREE VALUE (log entry 3): how many records the `n`-th abandoned command had delivered when `rst` came
(70_reset_and_hazards.md R166; U3, `any value (any prefix of the command's output list)`). -/
opaque Config.abandonedRecords : Nat → Nat

end Sys2Proof
end

