-- ==== Sys2Proof/Machine/State.lean ====
section
/-! DEFINITION. The state of HUFFCORE as plain data: the twelve elements of 10_state.md R10, the ports of
30_encoding.md R59 as the model holds them, the reset state (70_reset_and_hazards.md R165), and the reasons a step
can stop. -/

namespace Sys2Proof.Machine

/-- The values of PHASE (10_state.md R11); 5 and 6 are never held and have no constructor
(93_implementation_defined.md U2). -/
inductive Phase where
  /-- 0: the frequency table is being filled; no tree exists. -/
  | count
  /-- 1: the tree is built; the code table is not yet derived. -/
  | tree
  /-- 2: tree and code table exist; no stream is open. -/
  | ready
  /-- 3: an encode stream is open. -/
  | enc
  /-- 4: a decode stream is open. -/
  | dec
  /-- 7: an error was raised; the session is aborted. -/
  | err
  deriving DecidableEq, Repr

/-- The three bits of PHASE (10_state.md R11). -/
def Phase.bits : Phase → BitVec 3
  | .count => 0#3
  | .tree => 1#3
  | .ready => 2#3
  | .enc => 3#3
  | .dec => 4#3
  | .err => 7#3

/-- The error codes ERR can name (60_exceptions.md R140); 10 to 15 are never held and have no constructor (U2). -/
inductive ErrorCode where
  /-- 0: no error recorded. -/
  | none
  /-- 1: the collaborator's error; never raised by HUFFCORE (R141). -/
  | notFound
  /-- 2: the collaborator's error; never raised by HUFFCORE (R141). -/
  | ioFailure
  /-- 3: BUILD with `TOTAL = 0` (R142). -/
  | emptyInput
  /-- 4: DECEND on a symbol boundary, too early (R143). -/
  | endOfStream
  /-- 5: DECEND inside a code (R144). -/
  | corruptStream
  /-- 6: ENC of a symbol without a code (R145). -/
  | unknownSymbol
  /-- 7: CNT at `TOTAL = CNTMAX` (R146). -/
  | countOverflow
  /-- 8: a command in a phase where it is not legal (R147). -/
  | protocolError
  /-- 9: an illegal word (R148). -/
  | illegalCommand
  deriving DecidableEq, Repr

/-- The four bits of ERR (60_exceptions.md R140). -/
def ErrorCode.bits : ErrorCode → BitVec 4
  | .none => 0#4
  | .notFound => 1#4
  | .ioFailure => 2#4
  | .emptyInput => 3#4
  | .endOfStream => 4#4
  | .corruptStream => 5#4
  | .unknownSymbol => 6#4
  | .countOverflow => 7#4
  | .protocolError => 8#4
  | .illegalCommand => 9#4

/-- An entry of the tree arena (10_state.md R16). -/
structure Node where
  leaf : Bool
  sym : Sym
  weight : Count
  left : NodeIdx
  right : NodeIdx
  deriving DecidableEq, Repr

/-- An entry of the code table (10_state.md R18): the path `p` is `vec[255], vec[254], ...`, `len` bits of it. -/
structure CodeEntry where
  valid : Bool
  len : BitVec 8
  vec : CodeVec
  deriving DecidableEq, Repr

/-- An indexed memory as a sparse list of (index, entry) pairs in canonical form (log entry 5): indices strictly rising,
no entry equal to what an unlisted index reads as. -/
abbrev Memory (α : Type) := List (Nat × α)

/-- What an unlisted index of FREQ reads as: its reset entry (70_reset_and_hazards.md R165). -/
def freqDefault : Count := 0#32

/-- What an unlisted index of CODE reads as: its reset entry (70_reset_and_hazards.md R165). -/
def codeDefault : CodeEntry := { valid := false, len := 0#8, vec := 0#256 }

/-- The complete architectural state: the elements of 10_state.md R10 and nothing else. -/
structure Arch where
  /-- PHASE (R11). -/
  phase : Phase
  /-- ERR (R13). -/
  err : ErrorCode
  /-- TOTAL (R14). -/
  total : Count
  /-- FREQ (R15): 256 entries. -/
  freq : Memory Count
  /-- NODE (R16): its valid entries, in index order. -/
  node : List Node
  /-- NLEAF (R17). -/
  nleaf : BitVec 9
  /-- NNODES (R17). -/
  nnodes : BitVec 10
  /-- ROOT (R17). -/
  root : NodeIdx
  /-- CODE (R18): 256 entries. -/
  code : Memory CodeEntry
  /-- WACC (R19). -/
  wacc : BitVec 8
  /-- WCNT (R19). -/
  wcnt : BitVec 3
  /-- CUR (R20). -/
  cur : NodeIdx
  /-- EMITTED (R20). -/
  emitted : Count
  deriving DecidableEq, Repr

/-- The reset state, `clearAll()` (70_reset_and_hazards.md R165): every element 0, invalid or empty. -/
def Arch.reset : Arch :=
  { phase := .count, err := .none, total := 0#32, freq := [], node := [], nleaf := 0#9, nnodes := 0#10, root := 0#9,
    code := [], wacc := 0#8, wcnt := 0#3, cur := 0#9, emitted := 0#32 }

/-- The two output streams and their tag bits (30_encoding.md R63). -/
inductive Stream where
  /-- 0: a byte of the compressed stream. -/
  | cbyte
  /-- 1: a decoded symbol. -/
  | dsym
  deriving DecidableEq, Repr

/-- An output record of the `out` port (30_encoding.md R63). -/
structure OutRecord where
  stream : Stream
  data : BitVec 8
  deriving DecidableEq, Repr

/-- The nine bits of an output record, `{stream, data}` (30_encoding.md R63). -/
def OutRecord.bits (r : OutRecord) : BitVec 9 :=
  (match r.stream with
    | .cbyte => 0#1
    | .dsym => 1#1) ++ r.data

/-- A response of the `rsp` port (30_encoding.md R64). -/
structure Response where
  ok : Bool
  phase : Phase
  err : ErrorCode
  data : BitVec 32
  deriving DecidableEq, Repr

/-- The forty bits of a response, `{ok, phase, err, data}` (30_encoding.md R64). -/
def Response.bits (r : Response) : BitVec 40 :=
  BitVec.ofBool r.ok ++ r.phase.bits ++ r.err.bits ++ r.data

/-- What the host does at the ports, one event after another (30_encoding.md R59, log entry 1). -/
inductive HostEvent where
  /-- a command word on `cmd`, executed to its end. -/
  | word (w : CmdWord)
  /-- `rst` asserted between two commands (70_reset_and_hazards.md R165). -/
  | reset
  /-- a command word on `cmd`, abandoned because `rst` is asserted while it executes (R166). -/
  | wordThenReset (w : CmdWord)
  deriving DecidableEq, Repr

/-- What has left the block (30_encoding.md R59, log entry 2). -/
inductive Delivery where
  /-- an output record, on `out`. -/
  | record (r : OutRecord)
  /-- a response, on `rsp`. -/
  | response (r : Response)
  deriving DecidableEq, Repr

/-- The machine: the block's architectural state, and the model's own three fields for its surroundings. -/
structure State where
  /-- the block (10_state.md R10). -/
  arch : Arch
  /-- the host's events the block has not yet taken, the next one first (log entry 1). -/
  input : List HostEvent
  /-- all that has left the block on `out` and `rsp`, oldest first (20_memory.md R50, log entry 2). -/
  delivered : List Delivery
  /-- how many free values have been drawn (log entry 3). -/
  draws : Nat
  deriving DecidableEq, Repr

/-- The machine right after reset (70_reset_and_hazards.md R165, R166): the block in its reset state, nothing delivered, and no
event of the host pending. -/
def State.reset : State :=
  { arch := Arch.reset, input := [], delivered := [], draws := 0 }

/-- Why the machine stops. The block's own errors (60_exceptions.md R140) are not among these: they are recorded in ERR and the
machine goes on. -/
inductive Fault where
  /-- Raised by DERIVE when a walk from ROOT goes deeper than CODELENMAX: then NODE holds no tree of 10_state.md R23, which no
  run reaches, and 43_code_table.md R106 gives no code that fits an entry. Safe: the model stops where the spec gives no
  result (log entry 6). -/
  | codeDepthExceeded
  deriving DecidableEq, Repr

/-- Why the model gives no meaning. -/
inductive Refusal where
  /-- Raised by an arm of `exec` whose instruction has no meaning yet; no arm does. Safe: nothing is claimed of it. -/
  | notModelled (mnemonic : String)
  deriving DecidableEq, Repr

end Sys2Proof.Machine
end

