-- ==== Sys2Proof/Machine/Ops.lean ====
section
/-! DEFINITION. The named operations: indexed memories, the accesses to FREQ, CODE and NODE, a command in execution and
what it ends in, error entry and return (60_exceptions.md R150, R153, R154), delivery to the ports. -/

namespace Sys2Proof.Machine

/-! ### Indexed memories (20_memory.md R41: every access moves one entry) -/

/-- The entry at index `i`; an unlisted index reads as `d`. -/
def Memory.read {α : Type} (d : α) : Memory α → Nat → α
  | [], _ => d
  | (j, v) :: m, i => if i = j then v else Memory.read d m i

/-- `v` at index `i` in front of entries whose indices are all larger. -/
def Memory.put {α : Type} [DecidableEq α] (d : α) (m : Memory α) (i : Nat) (v : α) : Memory α :=
  if v = d then m else (i, v) :: m

/-- Writes `v` at index `i` and keeps the canonical form: writing `d` removes the entry. -/
def Memory.write {α : Type} [DecidableEq α] (d : α) : Memory α → Nat → α → Memory α
  | [], i, v => Memory.put d [] i v
  | (j, u) :: m, i, v =>
    if i < j then Memory.put d ((j, u) :: m) i v
    else if i = j then Memory.put d m i v
    else (j, u) :: Memory.write d m i v

/-- The canonical form from index `lo` on: indices strictly rising, in `[lo, size)`, no entry equal to `d`. -/
def Memory.wfFrom {α : Type} [DecidableEq α] (d : α) (size : Nat) : Nat → Memory α → Bool
  | _, [] => true
  | lo, (j, v) :: m => lo ≤ j && j < size && v ≠ d && Memory.wfFrom d size (j + 1) m

/-- The canonical form of a memory of `size` entries. -/
def Memory.wf {α : Type} [DecidableEq α] (d : α) (size : Nat) (m : Memory α) : Bool :=
  Memory.wfFrom d size 0 m

/-! ### The three memories of the block (20_memory.md R40) -/

/-- `FREQ[x]` (10_state.md R15). -/
def Arch.freqAt (a : Arch) (x : Sym) : Count := Memory.read freqDefault a.freq x.toNat

/-- `FREQ[x] <- v`. -/
def Arch.setFreq (a : Arch) (x : Sym) (v : Count) : Arch :=
  { a with freq := Memory.write freqDefault a.freq x.toNat v }

/-- `CODE[x]` (10_state.md R18). -/
def Arch.codeAt (a : Arch) (x : Sym) : CodeEntry := Memory.read codeDefault a.code x.toNat

/-- `CODE[x] <- e`. -/
def Arch.setCode (a : Arch) (x : Sym) (e : CodeEntry) : Arch :=
  { a with code := Memory.write codeDefault a.code x.toNat e }

/-- The 59 bits of a NODE entry as its fields, `{leaf, sym, weight, left, right}` (20_memory.md R40, 10_state.md R16). -/
def nodeOfBits (v : BitVec 59) : Node :=
  { leaf := v.getMsbD 0, sym := v.extractLsb' 50 8, weight := v.extractLsb' 18 32, left := v.extractLsb' 9 9,
    right := v.extractLsb' 0 9 }

/-- `NODE[i]` in the arena `ns`. At an index that is not valid its contents are the free value of log entry 4. -/
def nodeAt (ns : List Node) (i : Nat) : Node :=
  match ns[i]? with
  | some n => n
  | none => nodeOfBits (Config.unspecifiedNode i)

/-- `NODE[i]` for an index the block holds in a register or a child field. -/
def Arch.nodeAt (a : Arch) (i : NodeIdx) : Node := Sys2Proof.Machine.nodeAt a.node i.toNat

/-! ### A command in execution -/

/-- A command in execution: the state so far and the records emitted so far, oldest first. -/
structure Busy where
  arch : Arch
  outs : List OutRecord
  deriving DecidableEq, Repr

/-- What an executed command comes to: the state after it, its records in order, and its response's `ok` and `data`
(30_encoding.md R63, R64). -/
structure Effect where
  arch : Arch
  outs : List OutRecord
  ok : Bool
  data : BitVec 32
  deriving DecidableEq, Repr

/-- The outcome of a command's rule on the block. -/
abbrev Result := Host.Outcome Effect Fault Refusal

/-- A command that starts to execute has emitted nothing. -/
def start (a : Arch) : Busy := { arch := a, outs := [] }

/-- `emit(stream, b)` (00_scope.md R7): one more record. -/
def emit (stream : Stream) (b : BitVec 8) (c : Busy) : Busy :=
  { c with outs := c.outs ++ [{ stream := stream, data := b }] }

/-- `respond ok = 1, data`: the command ends without an error. -/
def respond (data : BitVec 32) (c : Busy) : Effect :=
  { arch := c.arch, outs := c.outs, ok := true, data := data }

/-- `raise E`, error entry (60_exceptions.md R150): ERR and PHASE are written, nothing else; records already emitted are
delivered; the response has `ok = 0` and data 0. -/
def raise (e : ErrorCode) (c : Busy) : Effect :=
  { arch := { c.arch with err := e, phase := .err }, outs := c.outs, ok := false, data := 0#32 }

/-- `clearAll()` (70_reset_and_hazards.md R165), which is also the only return from phase ERR (60_exceptions.md R154). -/
def clearAll (_ : Arch) : Arch := Arch.reset

/-- A word refused in phase ERR (60_exceptions.md R153): no state changes, nothing is emitted, `ok = 0`, data 0. -/
def refuse (a : Arch) : Effect := { arch := a, outs := [], ok := false, data := 0#32 }

/-- An illegal word (30_encoding.md R67, R68): refused in phase ERR (60_exceptions.md R153), IllegalCommand in every other phase
(R148). -/
def illegal (a : Arch) : Effect :=
  if a.phase = .err then refuse a else raise .illegalCommand (start a)

/-! ### Delivery -/

/-- The response to a command with the effect `e`: PHASE and ERR after the command (30_encoding.md R64). -/
def Effect.response (e : Effect) : Response :=
  { ok := e.ok, phase := e.arch.phase, err := e.arch.err, data := e.data }

/-- The command takes effect: its records leave in order, then its response (20_memory.md R50). -/
def State.deliver (s : State) (e : Effect) : State :=
  { s with arch := e.arch, delivered := s.delivered ++ e.outs.map .record ++ [.response e.response] }

/-- The machine after a command's result on the block. -/
def finish (s : State) : Result → Host.Outcome State Fault Refusal
  | .next e => .next (s.deliver e)
  | .fault r => .fault r
  | .refused r => .refused r

/-! ### Reset -/

/-- `rst` (70_reset_and_hazards.md R165, R166): the reset state, and no record and no response. -/
def State.hardReset (s : State) : State := { s with arch := clearAll s.arch }

/-- The records among deliveries, in order. -/
def recordsOf : List Delivery → List Delivery
  | [] => []
  | .record r :: ds => .record r :: recordsOf ds
  | .response _ :: ds => recordsOf ds

/-- `rst` while a command executes (70_reset_and_hazards.md R166): `done` is the machine as the command would have left it. None of
its state changes survives, its response is not given, and some prefix of its records has left: how many is the free value of
log entry 3. -/
def State.abandon (s : State) (done : Host.Outcome State Fault Refusal) : State :=
  let records := match done with
    | .next t => recordsOf (t.delivered.drop s.delivered.length)
    | .fault _ => []
    | .refused _ => []
  { s with
    arch := clearAll s.arch
    delivered := s.delivered ++ records.take (Config.abandonedRecords s.draws)
    draws := s.draws + 1 }

end Sys2Proof.Machine
end

