-- ==== Sys2Proof/Machine/Operands.lean ====
section
/-! DEFINITION. What the operands of the readout commands select (10_state.md R24, 45_system.md R132 to R136), and the two
forms of a bit sequence: a code vector (10_state.md R18) and a byte (40_bitstream.md R81, R85). -/

namespace Sys2Proof.Machine

/-! ### Code vectors -/

/-- `pack(p)` (43_code_table.md R106): `p[i]` at `vec[255 - i]`, every other bit 0. -/
def pack : Bits → CodeVec
  | [] => 0#256
  | b :: p => (if b then BitVec.twoPow 256 255 else 0#256) ||| (pack p >>> 1)

/-- `path(CODE[s])` (10_state.md R18): `vec[255], vec[254], ..., vec[256 - len]`. -/
def CodeEntry.path (e : CodeEntry) : Bits := (List.range e.len.toNat).map e.vec.getMsbD

/-- The entry that `record(s, p)` writes (43_code_table.md R106). -/
def CodeEntry.ofPath (p : Bits) : CodeEntry := { valid := true, len := BitVec.ofNat 8 p.length, vec := pack p }

/-! ### Bytes -/

/-- `bitsOfByte(b)`, the reader (40_bitstream.md R85): `b[7]` first, `b[0]` last. -/
def bitsOfByte (b : BitVec 8) : Bits := (List.range 8).map b.getMsbD

/-! ### Readout views -/

/-- STATUS (10_state.md R24): `{0[7:0], WACC, 0[4:0], WCNT, ERR, 0, PHASE}`. -/
def statusView (a : Arch) : BitVec 32 :=
  0#8 ++ a.wacc ++ 0#5 ++ a.wcnt ++ a.err.bits ++ 0#1 ++ a.phase.bits

/-- `view(reg)` (45_system.md R132, 10_state.md R24); the registers 7 to 15 do not exist. -/
def registerView (a : Arch) (reg : BitVec 4) : Option (BitVec 32) :=
  match reg.toNat with
  | 0 => some (statusView a)
  | 1 => some a.total
  | 2 => some (a.nleaf.zeroExtend 32)
  | 3 => some (a.nnodes.zeroExtend 32)
  | 4 => some (a.root.zeroExtend 32)
  | 5 => some (a.cur.zeroExtend 32)
  | 6 => some a.emitted
  | _ => none

/-- The data of RDL (45_system.md R134): `{valid, 0[22:0], len}`. -/
def lengthView (e : CodeEntry) : BitVec 32 := BitVec.ofBool e.valid ++ 0#23 ++ e.len

/-- The data of RDC (45_system.md R135): `vec[255 - 32*word : 224 - 32*word]`. -/
def vectorView (e : CodeEntry) (word : BitVec 3) : BitVec 32 := e.vec.extractLsb' (224 - 32 * word.toNat) 32

/-- KIND (45_system.md R136): `{1, leaf, 0[21:0], sym}`. -/
def kindView (n : Node) : BitVec 32 := 1#1 ++ BitVec.ofBool n.leaf ++ 0#22 ++ n.sym

/-- LINKS (45_system.md R136): `{0[6:0], left, 0[6:0], right}`. -/
def linksView (n : Node) : BitVec 32 := 0#7 ++ n.left ++ 0#7 ++ n.right

/-- The data of RDN (45_system.md R136): 0 where there is no such node; field 3 does not exist. -/
def nodeView (a : Arch) (idx : NodeIdx) (field : BitVec 2) : Option (BitVec 32) :=
  let part (v : Node → BitVec 32) : Option (BitVec 32) :=
    if a.nnodes.toNat ≤ idx.toNat then some 0#32 else some (v (a.nodeAt idx))
  match field.toNat with
  | 0 => part kindView
  | 1 => part Node.weight
  | 2 => part linksView
  | _ => none

end Sys2Proof.Machine
end

