-- ==== Sys2Proof/Machine/Flags.lean ====
section
/-! DEFINITION. HUFFCORE has no flags (10_state.md R22). The conditions that steer commands, which R22 lists, read directly from
the state; and which command is legal in which phase (30_encoding.md R70), with the check itself (R68). -/

namespace Sys2Proof.Machine

/-- `TOTAL = 0`: nothing has been counted (R22; BUILD). -/
def nothingCounted (a : Arch) : Bool := a.total = 0#32

/-- `TOTAL = CNTMAX`: one more symbol would not fit (R22; CNT). -/
def countFull (a : Arch) : Bool := a.total = Config.cntMax

/-- `CODE[x].valid`: the symbol has a code (R22; ENC). -/
def hasCode (a : Arch) (x : Sym) : Bool := (a.codeAt x).valid

/-- `EMITTED = TOTAL`: the logical end of the decode stream (R22; DEC, DECEND). -/
def allEmitted (a : Arch) : Bool := a.emitted = a.total

/-- `CUR = ROOT`: the decoder stands on a symbol boundary (R22; DECEND). -/
def atRoot (a : Arch) : Bool := a.cur = a.root

/-- The legality table, 30_encoding.md R70. A row without `.err` is the table's `refused` there. -/
def legalPhases : Instr → List Phase
  | .nop => [.count, .tree, .ready, .enc, .dec, .err]
  | .clr => [.count, .tree, .ready, .enc, .dec, .err]
  | .cnt _ => [.count]
  | .build => [.count]
  | .derive => [.tree]
  | .enc _ => [.ready, .enc]
  | .encend => [.ready, .enc]
  | .dec _ => [.ready, .dec]
  | .decend => [.ready, .dec]
  | .rdr _ => [.count, .tree, .ready, .enc, .dec, .err]
  | .rdf _ => [.count, .tree, .ready, .enc, .dec, .err]
  | .rdl _ => [.count, .tree, .ready, .enc, .dec, .err]
  | .rdc _ _ => [.count, .tree, .ready, .enc, .dec, .err]
  | .rdn _ _ => [.count, .tree, .ready, .enc, .dec, .err]

/-- The command is legal in the phase (30_encoding.md R70). -/
def legalIn (i : Instr) (p : Phase) : Bool := (legalPhases i).contains p

/-- The checks before a command's own rule, in the order of 30_encoding.md R68: a command that is not legal in the present phase
is refused in phase ERR (60_exceptions.md R153) and raises ProtocolError in every other (R147). -/
def checked (i : Instr) (rule : Arch → Result) (a : Arch) : Result :=
  if legalIn i a.phase then rule a
  else if a.phase = .err then .next (refuse a)
  else .next (raise .protocolError (start a))

/-- A command on the machine: the checks, the command's own rule on the block, and delivery. -/
def command (i : Instr) (rule : Arch → Result) (s : State) : Host.Outcome State Fault Refusal :=
  finish s (checked i rule s.arch)

end Sys2Proof.Machine
end

