-- ==== Sys2Proof/Machine/CodeTable.lean ====
section
/-! DEFINITION. CodeTable derivation, the command DERIVE (43_code_table.md). -/

namespace Sys2Proof.Machine

/-- What `visit(i, p)` records, in its order (R106): depth first, left before right, each leaf's symbol with the path to it.
`depth` is how much longer than `p` a path may still get; `none` means that the walk goes deeper (log entry 6). -/
def visit (ns : List Node) : Nat → NodeIdx → Bits → Option (List (Sym × Bits))
  | depth, i, p =>
    let n := nodeAt ns i.toNat
    if n.leaf then some [(n.sym, p)]
    else
      match depth with
      | 0 => none
      | depth + 1 =>
        match visit ns depth n.left (p ++ [false]), visit ns depth n.right (p ++ [true]) with
        | some l, some r => some (l ++ r)
        | _, _ => none

/-- `record(s, p)` (R106). -/
def recordCode (a : Arch) (r : Sym × Bits) : Arch := a.setCode r.1 (CodeEntry.ofPath r.2)

/-- The single-leaf override (R108): with one node in the arena its symbol gets the code "1". -/
def overrideSingle (a : Arch) : Arch :=
  if a.nnodes = 1#10 then recordCode a ((a.nodeAt 0#9).sym, [true]) else a

/-- The rule of DERIVE (R106). -/
def deriveRule (a : Arch) : Result :=
  match visit a.node Config.codeLenMax a.root [] with
  | none => .fault .codeDepthExceeded
  | some rs => .next (respond 0#32 (start { overrideSingle (rs.foldl recordCode a) with phase := .ready }))

/-- DERIVE (R106). -/
def execDerive (s : State) : Host.Outcome State Fault Refusal :=
  command .derive deriveRule s

end Sys2Proof.Machine
end

