-- ==== Sys2Proof/Machine/BitStream.lean ====
section
/-! DEFINITION. The bit writer (40_bitstream.md R82, R83). The reader, bitsOfByte (R85), stands in Operands. -/

namespace Sys2Proof.Machine

/-- `writeBit(bit)` (R82): the bit lands below the bits held; the eighth sends the byte out. -/
def writeBit (c : Busy) (bit : Bool) : Busy :=
  let acc := c.arch.wacc ||| ((BitVec.ofBool bit).zeroExtend 8 <<< (7 - c.arch.wcnt.toNat))
  if c.arch.wcnt = 7#3 then emit .cbyte acc { c with arch := { c.arch with wacc := 0#8, wcnt := 0#3 } }
  else { c with arch := { c.arch with wacc := acc, wcnt := c.arch.wcnt + 1#3 } }

/-- `closeWriter()` (R83): a partial byte goes out, padded with zero bits; the writer is empty. -/
def closeWriter (c : Busy) : Busy :=
  let sent := if c.arch.wcnt = 0#3 then c else emit .cbyte c.arch.wacc c
  { sent with arch := { sent.arch with wacc := 0#8, wcnt := 0#3 } }

end Sys2Proof.Machine
end

