-- ==== Sys2Proof/Machine/Codec.lean ====
section
/-! DEFINITION. Codec, the commands ENC, ENCEND, DEC, DECEND (44_codec.md). -/

namespace Sys2Proof.Machine

/-! ### Encoder -/

/-- The start of an encode stream in phase READY (R114): an empty writer, phase ENC. -/
def startEncode (a : Arch) : Arch :=
  if a.phase = .ready then { a with wacc := 0#8, wcnt := 0#3, phase := .enc } else a

/-- The rule of ENC s (R114): UnknownSymbol after closing the writer (R116), else the code's bits in path order. -/
def encodeRule (x : Sym) (a : Arch) : Result :=
  let c := start (startEncode a)
  if hasCode c.arch x then .next (respond 0#32 ((c.arch.codeAt x).path.foldl writeBit c))
  else .next (raise .unknownSymbol (closeWriter c))

/-- ENC s (R114). -/
def execEnc (x : Sym) (s : State) : Host.Outcome State Fault Refusal :=
  command (.enc x) (encodeRule x) s

/-- The rule of ENCEND (R117). -/
def encodeEndRule (a : Arch) : Result :=
  let c := closeWriter (start a)
  .next (respond 0#32 { c with arch := { c.arch with phase := .ready } })

/-- ENCEND (R117). -/
def execEncend (s : State) : Host.Outcome State Fault Refusal :=
  command .encend encodeEndRule s

/-! ### Decoder -/

/-- The start of a decode stream in phase READY (R120): at the root, nothing emitted. PHASE is the commands' own to write. -/
def startDecode (a : Arch) : Arch :=
  if a.phase = .ready then { a with cur := a.root, emitted := 0#32 } else a

/-- One decoded symbol leaves (R121). -/
def emitSymbol (x : Sym) (c : Busy) : Busy :=
  emit .dsym x { c with arch := { c.arch with emitted := c.arch.emitted + 1#32 } }

/-- `decodeBit(bit)` (R121): nothing after the logical end (R126); one symbol a bit, whatever the bit, when the root is a leaf
(R122); else a step down, and at a leaf its symbol and back to the root. -/
def decodeBit (c : Busy) (bit : Bool) : Busy :=
  let a := c.arch
  if allEmitted a then c
  else if (a.nodeAt a.root).leaf then emitSymbol (a.nodeAt a.root).sym c
  else
    let next := if bit then (a.nodeAt a.cur).right else (a.nodeAt a.cur).left
    if (a.nodeAt next).leaf then emitSymbol (a.nodeAt next).sym { c with arch := { a with cur := a.root } }
    else { c with arch := { a with cur := next } }

/-- The rule of DEC b (R119). -/
def decodeRule (b : BitVec 8) (a : Arch) : Result :=
  .next (respond 0#32 ((bitsOfByte b).foldl decodeBit (start { startDecode a with phase := .dec })))

/-- DEC b (R119). -/
def execDec (b : BitVec 8) (s : State) : Host.Outcome State Fault Refusal :=
  command (.dec b) (decodeRule b) s

/-- The rule of DECEND (R123): EndOfStream on a symbol boundary (R124), CorruptStream inside a code (R125). -/
def decodeEndRule (a : Arch) : Result :=
  let c := start (startDecode a)
  if allEmitted c.arch then .next (respond 0#32 { c with arch := { c.arch with phase := .ready } })
  else if atRoot c.arch then .next (raise .endOfStream c)
  else .next (raise .corruptStream c)

/-- DECEND (R123). -/
def execDecend (s : State) : Host.Outcome State Fault Refusal :=
  command .decend decodeEndRule s

end Sys2Proof.Machine
end

