-- ==== Sys2Proof/Machine/Frequency.lean ====
section
/-! DEFINITION. FrequencyTable, the command CNT (41_frequency.md). -/

namespace Sys2Proof.Machine

/-- The rule of CNT s (R91): CountOverflow at `TOTAL = CNTMAX` (R92), else one more of `x` and one more in all. -/
def countRule (x : Sym) (a : Arch) : Result :=
  if countFull a then .next (raise .countOverflow (start a))
  else .next (respond 0#32 (start { a.setFreq x (a.freqAt x + 1#32) with total := a.total + 1#32 }))

/-- CNT s (R91). -/
def execCnt (x : Sym) (s : State) : Host.Outcome State Fault Refusal :=
  command (.cnt x) (countRule x) s

end Sys2Proof.Machine
end

