-- ==== Sys2Proof/Machine/System.lean ====
section
/-! DEFINITION. The system and readout commands NOP, CLR, RDR, RDF, RDL, RDC, RDN (45_system.md). -/

namespace Sys2Proof.Machine

/-- NOP (R130): only the response. -/
def execNop (s : State) : Host.Outcome State Fault Refusal :=
  command .nop (fun a => .next (respond 0#32 (start a))) s

/-- CLR (R131): every element to its reset value; held bits are dropped, not flushed. -/
def execClr (s : State) : Host.Outcome State Fault Refusal :=
  command .clr (fun a => .next (respond 0#32 (start (clearAll a)))) s

/-- A read: the view's value as data and no change; an operand that selects nothing makes the word illegal (30_encoding.md R67 (c),
(d)). -/
def readout (view : Arch → Option (BitVec 32)) (a : Arch) : Result :=
  match view a with
  | some v => .next (respond v (start a))
  | none => .next (illegal a)

/-- RDR reg (R132). -/
def execRdr (reg : BitVec 4) (s : State) : Host.Outcome State Fault Refusal :=
  command (.rdr reg) (readout fun a => registerView a reg) s

/-- RDF s (R133). -/
def execRdf (x : Sym) (s : State) : Host.Outcome State Fault Refusal :=
  command (.rdf x) (readout fun a => some (a.freqAt x)) s

/-- RDL s (R134). -/
def execRdl (x : Sym) (s : State) : Host.Outcome State Fault Refusal :=
  command (.rdl x) (readout fun a => some (lengthView (a.codeAt x))) s

/-- RDC s, word (R135). -/
def execRdc (x : Sym) (word : BitVec 3) (s : State) : Host.Outcome State Fault Refusal :=
  command (.rdc x word) (readout fun a => some (vectorView (a.codeAt x) word)) s

/-- RDN idx, field (R136). -/
def execRdn (idx : NodeIdx) (field : BitVec 2) (s : State) : Host.Outcome State Fault Refusal :=
  command (.rdn idx field) (readout fun a => nodeView a idx field) s

end Sys2Proof.Machine
end

