-- ==== Sys2Proof/Machine/Tree.lean ====
section
/-! DEFINITION. HuffmanTree construction, the command BUILD (42_tree_build.md). -/

namespace Sys2Proof.Machine

/-- A symbol's leaf (R97, part 1). -/
def leafNode (x : Sym) (w : Count) : Node := { leaf := true, sym := x, weight := w, left := 0#9, right := 0#9 }

/-- The leaves: one for each distinct symbol, in ascending symbol value (R97, part 1). -/
def leaves (a : Arch) : List Node :=
  (List.range Config.nsym).filterMap fun n =>
    let x := BitVec.ofNat 8 n
    if a.freqAt x = 0#32 then none else some (leafNode x (a.freqAt x))

/-- The priority order of the forest (R98): `(weight, index)`, lexicographically. -/
def comesBefore (ns : List Node) (i j : Nat) : Bool :=
  (nodeAt ns i).weight < (nodeAt ns j).weight || ((nodeAt ns i).weight = (nodeAt ns j).weight && i < j)

/-- `argmin` over the roots `forest` by the order of R98. -/
def leastRoot (ns : List Node) : List Nat → Option Nat
  | [] => none
  | i :: rest =>
    match leastRoot ns rest with
    | none => some i
    | some j => if comesBefore ns i j then some i else some j

/-- The internal node that joins the roots `first` and `second` (R97, part 3; R99): the first removed is the left child. -/
def joinNode (ns : List Node) (first second : Nat) : Node :=
  { leaf := false, sym := 0#8, weight := (nodeAt ns first).weight + (nodeAt ns second).weight,
    left := BitVec.ofNat 9 first, right := BitVec.ofNat 9 second }

/-- The reduction (R97, part 3): while two roots are left, the two that come first are removed, the node that joins them is
written at the next free index, and that index is reinserted. `fuel` bounds the number of merges; as each takes one root away,
the number of roots is enough. -/
def mergeRoots : Nat → List Node → List Nat → List Node
  | 0, ns, _ => ns
  | fuel + 1, ns, forest =>
    match leastRoot ns forest with
    | none => ns
    | some first =>
      match leastRoot ns (forest.erase first) with
      | none => ns
      | some second =>
        mergeRoots fuel (ns ++ [joinNode ns first second]) ((forest.erase first).erase second ++ [ns.length])

/-- The arena that BUILD makes of the leaves (R97). -/
def buildArena (ls : List Node) : List Node := mergeRoots ls.length ls (List.range ls.length)

/-- The rule of BUILD (R97): EmptyInput at `TOTAL = 0` (R96), else the arena and its three registers. -/
def buildRule (a : Arch) : Result :=
  if nothingCounted a then .next (raise .emptyInput (start a))
  else
    let ls := leaves a
    let ns := buildArena ls
    .next (respond 0#32 (start
      { a with
        node := ns
        nleaf := BitVec.ofNat 9 ls.length
        nnodes := BitVec.ofNat 10 ns.length
        root := BitVec.ofNat 9 (ns.length - 1)
        phase := .tree }))

/-- BUILD (R97). -/
def execBuild (s : State) : Host.Outcome State Fault Refusal :=
  command .build buildRule s

end Sys2Proof.Machine
end

