-- ==== Sys2Proof/Machine/Dispatch.lean ====
section
/-! DEFINITION. Each command's meaning, one arm for each constructor (30_encoding.md R65). -/

namespace Sys2Proof.Machine

/-- The machine after the command `i`. -/
def exec (i : Instr) (s : State) : Host.Outcome State Fault Refusal :=
  match i with
  | .nop => Sys2Proof.Machine.execNop s
  | .clr => Sys2Proof.Machine.execClr s
  | .cnt x => Sys2Proof.Machine.execCnt x s
  | .build => Sys2Proof.Machine.execBuild s
  | .derive => Sys2Proof.Machine.execDerive s
  | .enc x => Sys2Proof.Machine.execEnc x s
  | .encend => Sys2Proof.Machine.execEncend s
  | .dec b => Sys2Proof.Machine.execDec b s
  | .decend => Sys2Proof.Machine.execDecend s
  | .rdr reg => Sys2Proof.Machine.execRdr reg s
  | .rdf x => Sys2Proof.Machine.execRdf x s
  | .rdl x => Sys2Proof.Machine.execRdl x s
  | .rdc x word => Sys2Proof.Machine.execRdc x word s
  | .rdn idx field => Sys2Proof.Machine.execRdn idx field s

end Sys2Proof.Machine
end

