-- ==== Sys2Proof/Machine/Port.lean ====
section
/-! DEFINITION. The command port: a word is decoded and executed (30_encoding.md R68), and the host's events
(R59, 70_reset_and_hazards.md R165, R166). -/

namespace Sys2Proof.Machine

/-- A command word executed to its end: its command, or what an illegal word does (R68). -/
def execWord (w : CmdWord) (s : State) : Host.Outcome State Fault Refusal :=
  match decode w with
  | .ok i => exec i s
  | .error _ => .next (s.deliver (illegal s.arch))

/-- One event of the host at the machine. -/
def takeEvent (e : HostEvent) (s : State) : Host.Outcome State Fault Refusal :=
  match e with
  | .word w => execWord w s
  | .reset => .next s.hardReset
  | .wordThenReset w => .next (s.abandon (execWord w s))

/-- The next event of the host, with which the block goes on; with none pending the block waits
(70_reset_and_hazards.md R165). -/
def takeNext (s : State) : Host.Outcome State Fault Refusal :=
  match s.input with
  | [] => .next s
  | e :: rest => takeEvent e { s with input := rest }

/-- The host presents the word `w` as its next event. -/
def present (w : CmdWord) (s : State) : State := { s with input := .word w :: s.input }

end Sys2Proof.Machine
end

