-- ==== Sys2Proof/Machine/Step.lean ====
section
/-! DEFINITION. One step of the machine: one event of the host, executed as one atomic step (00_scope.md R5, 20_memory.md R47). -/

namespace Sys2Proof.Machine

/-- The machine after its next event. -/
def step (s : State) : Host.Outcome State Fault Refusal := takeNext s

/-- `s` with the opcode-table word `w` as the command word the host presents next (log entry 1). -/
def State.withFetchWord (s : State) (nbits w : Nat) : State :=
  present (BitVec.ofNat 16 (w % 2 ^ nbits)) s

end Sys2Proof.Machine
end

