-- ==== Sys2Proof/Safety.lean ====
section
/-! DEFINITION. The terms in which claims speak: what a command answers, the order of 42_tree_build.md R98, the paths of
43_code_table.md R105, the bits a writer holds (10_state.md R19), the invariants of 10_state.md R23, a run that ends well
(70_reset_and_hazards.md R181), and whole streams (44_codec.md R115, R127). -/

namespace Sys2Proof.Machine

/-! ### What a command answers -/

/-- The outcome `o` at `s` is a command's: the block is `a` after it, `outs` left in order and then the response with `ok`, the PHASE
and ERR of `a`, and `data` (30_encoding.md R64, 20_memory.md R50); nothing else of the machine changes. -/
def Gives (o : Host.Outcome State Fault Refusal) (s : State) (a : Arch) (outs : List OutRecord) (ok : Bool)
    (data : BitVec 32) : Prop :=
  o = .next
    { arch := a
      input := s.input
      delivered := s.delivered ++ outs.map Delivery.record ++ [Delivery.response ⟨ok, a.phase, a.err, data⟩]
      draws := s.draws }

/-- The command `i` at `s` takes effect: `Gives` of its execution. -/
def Answers (i : Instr) (s : State) (a : Arch) (outs : List OutRecord) (ok : Bool) (data : BitVec 32) : Prop :=
  Gives (exec i s) s a outs ok data

/-- The block `a` after the error `e` (60_exceptions.md R150): only PHASE and ERR differ. -/
def withError (a : Arch) (e : ErrorCode) : Arch := { a with phase := .err, err := e }

/-- The command `i` outside the phases `legal`: refused in phase ERR (60_exceptions.md R153), ProtocolError elsewhere (R147). -/
def TurnedAway (i : Instr) (legal : List Phase) (s : State) : Prop :=
  (s.arch.phase = .err → Answers i s s.arch [] false 0#32) ∧
  (s.arch.phase ≠ .err → s.arch.phase ∉ legal → Answers i s (withError s.arch .protocolError) [] false 0#32)

/-- NOP and the five reads: what executes in phase ERR and changes nothing (60_exceptions.md R153, 45_system.md R137). -/
def readsOnly : Instr → Bool
  | .nop | .rdr _ | .rdf _ | .rdl _ | .rdc _ _ | .rdn _ _ => true
  | .clr | .cnt _ | .build | .derive | .enc _ | .encend | .dec _ | .decend => false

/-- A word is illegal (30_encoding.md R67), in numbers: `w / 4096` is `w[15:12]`, and so on. -/
def IllegalWord (w : CmdWord) : Prop :=
  let op := w.toNat / 4096
  let arg := w.toNat % 4096
  -- (a)
  op = 14 ∨ op = 15 ∨
  -- (b), formats Z, S, R, C and N
  (op ∈ [0, 1, 3, 4, 6, 8] ∧ arg ≠ 0) ∨
  (op ∈ [2, 5, 7, 10, 11] ∧ arg / 256 ≠ 0) ∨
  (op = 9 ∧ arg / 16 ≠ 0) ∨
  (op ∈ [12, 13] ∧ arg / 2048 ≠ 0) ∨
  -- (c)
  (op = 9 ∧ 7 ≤ arg % 16) ∨
  -- (d)
  (op = 13 ∧ arg / 512 % 4 = 3)

/-- PHASE and ERR after the legal command `i` at `a`: the rows of 30_encoding.md R71. -/
def transition (i : Instr) (a : Arch) : Phase × ErrorCode :=
  match i, a.phase with
  | .clr, _ => (.count, .none)
  | .nop, p => (p, a.err)
  | .rdr _, p => (p, a.err)
  | .rdf _, p => (p, a.err)
  | .rdl _, p => (p, a.err)
  | .rdc _ _, p => (p, a.err)
  | .rdn _ _, p => (p, a.err)
  | _, .err => (.err, a.err)
  | .cnt _, .count => if a.total = Config.cntMax then (.err, .countOverflow) else (.count, a.err)
  | .build, .count => if a.total = 0#32 then (.err, .emptyInput) else (.tree, a.err)
  | .derive, .tree => (.ready, a.err)
  | .enc x, .ready => if (a.codeAt x).valid then (.enc, a.err) else (.err, .unknownSymbol)
  | .enc x, .enc => if (a.codeAt x).valid then (.enc, a.err) else (.err, .unknownSymbol)
  | .encend, .ready => (.ready, a.err)
  | .encend, .enc => (.ready, a.err)
  | .dec _, .ready => (.dec, a.err)
  | .dec _, .dec => (.dec, a.err)
  | .decend, .ready => (.err, .endOfStream)
  | .decend, .dec =>
    if a.emitted = a.total then (.ready, a.err)
    else if a.cur = a.root then (.err, .endOfStream)
    else (.err, .corruptStream)
  | _, _ => (.err, .protocolError)

/-! ### Frequency table -/

/-- The 256 symbols in ascending value. -/
def allSyms : List Sym := (List.range 256).map (BitVec.ofNat 8)

/-- The distinct symbols in ascending value: those with `FREQ[s] >= 1` (00_scope.md R9). -/
def distinctSyms (a : Arch) : List Sym := allSyms.filter fun x => a.freqAt x ≠ 0#32

/-- The sum of FREQ over all symbols (10_state.md R14). -/
def freqSum (a : Arch) : Nat := (allSyms.map fun x => (a.freqAt x).toNat).sum

/-! ### Tree -/

/-- The priority order of the forest (42_tree_build.md R98): by weight, then by index. -/
def PriorTo (ns : List Node) (i j : Nat) : Prop :=
  (nodeAt ns i).weight.toNat < (nodeAt ns j).weight.toNat ∨
    ((nodeAt ns i).weight = (nodeAt ns j).weight ∧ i < j)

/-- Node `j` is a child of the internal node `i`. -/
def ChildOf (ns : List Node) (j i : Nat) : Prop :=
  (nodeAt ns i).left.toNat = j ∨ (nodeAt ns i).right.toNat = j

/-- In an arena with `k` leaves, `i` is a root of the forest when the nodes below `n` exist: it exists and is nobody's child yet
(42_tree_build.md R95, R97). -/
def IsRootBefore (ns : List Node) (k n i : Nat) : Prop := i < n ∧ ∀ m, k ≤ m → m < n → ¬ ChildOf ns i m

/-- The node `n` is the merge of 42_tree_build.md R97 part 3 over `k` leaves: its left child comes first among the roots left
(R98), its right child first among the others (R99), its weight is their sum. -/
structure IsMerge (ns : List Node) (k n : Nat) : Prop where
  inner : (nodeAt ns n).leaf = false ∧ (nodeAt ns n).sym = 0#8
  leftRoot : IsRootBefore ns k n (nodeAt ns n).left.toNat
  rightRoot : IsRootBefore ns k n (nodeAt ns n).right.toNat
  differ : (nodeAt ns n).left ≠ (nodeAt ns n).right
  leftFirst : ∀ i, IsRootBefore ns k n i → i ≠ (nodeAt ns n).left.toNat → PriorTo ns (nodeAt ns n).left.toNat i
  rightSecond : ∀ i, IsRootBefore ns k n i → i ≠ (nodeAt ns n).left.toNat → i ≠ (nodeAt ns n).right.toNat →
    PriorTo ns (nodeAt ns n).right.toNat i
  weight : (nodeAt ns n).weight =
    (nodeAt ns (nodeAt ns n).left.toNat).weight + (nodeAt ns (nodeAt ns n).right.toNat).weight

/-- The leaf of a symbol with its count (10_state.md R16, 42_tree_build.md R97 part 1). -/
def leafOf (a : Arch) (x : Sym) : Node := { leaf := true, sym := x, weight := a.freqAt x, left := 0#9, right := 0#9 }

/-- Where the bits `p` lead from the node `i`: 0 to the left, 1 to the right (43_code_table.md R105); nowhere when a leaf is met
with bits left. -/
def walk (ns : List Node) : NodeIdx → Bits → Option NodeIdx
  | i, [] => some i
  | i, b :: p =>
    if (nodeAt ns i.toNat).leaf then none
    else walk ns (if b then (nodeAt ns i.toNat).right else (nodeAt ns i.toNat).left) p

/-- `p` is the code of the symbol `x` (43_code_table.md R107): "1" for the symbol of a single leaf, else the path to its leaf. -/
def IsCode (a : Arch) (x : Sym) (p : Bits) : Prop :=
  if a.nnodes = 1#10 then (nodeAt a.node 0).sym = x ∧ p = [true]
  else ∃ i, walk a.node a.root p = some i ∧ (a.nodeAt i).leaf = true ∧ (a.nodeAt i).sym = x

/-! ### Invariants -/

/-- Items 4 to 7 of 10_state.md R23, for a tree over the `k` distinct symbols. -/
structure TreeOk (a : Arch) : Prop where
  someSym : distinctSyms a ≠ []
  nleaf : a.nleaf.toNat = (distinctSyms a).length
  nnodes : a.nnodes.toNat = 2 * (distinctSyms a).length - 1
  root : a.root.toNat = 2 * (distinctSyms a).length - 2
  leaf : ∀ i x, (distinctSyms a)[i]? = some x → nodeAt a.node i = leafOf a x
  inner : ∀ i, (distinctSyms a).length ≤ i → i < a.nnodes.toNat →
    (nodeAt a.node i).leaf = false ∧ (nodeAt a.node i).sym = 0#8 ∧
    (nodeAt a.node i).left.toNat < i ∧ (nodeAt a.node i).right.toNat < i ∧
    (nodeAt a.node i).left ≠ (nodeAt a.node i).right ∧
    (nodeAt a.node i).weight.toNat =
      (a.nodeAt (nodeAt a.node i).left).weight.toNat + (a.nodeAt (nodeAt a.node i).right).weight.toNat
  oneParent : ∀ j, j < a.root.toNat →
    ∃! i, (distinctSyms a).length ≤ i ∧ i < a.nnodes.toNat ∧ ChildOf a.node j i
  rootWeight : (a.nodeAt a.root).weight = a.total
  weights : ∀ i, (distinctSyms a).length ≤ i → i + 1 < a.nnodes.toNat →
    (nodeAt a.node i).weight.toNat ≤ (nodeAt a.node (i + 1)).weight.toNat

/-- Item 8 of 10_state.md R23: the code table is the one of 43_code_table.md R107. -/
def CodesOk (a : Arch) : Prop :=
  ∀ x, if a.freqAt x = 0#32 then a.codeAt x = codeDefault
    else ∃ p, IsCode a x p ∧ a.codeAt x = CodeEntry.ofPath p

/-- No symbol has a code. -/
def NoCodes (a : Arch) : Prop := ∀ x, a.codeAt x = codeDefault

/-- The bits the writer holds, first-written first: `WACC[7], ..., WACC[8 - WCNT]` (10_state.md R19). -/
def heldBits (a : Arch) : Bits := (List.range a.wcnt.toNat).map a.wacc.getMsbD

/-- The other bits of WACC are 0 (10_state.md R19). -/
def WriterClean (a : Arch) : Prop := ∀ n, a.wcnt.toNat ≤ n → a.wacc.getMsbD n = false

/-- FREQ and CODE are in canonical form, and NODE holds its valid entries (log entries 4 and 5). -/
structure MemoriesOk (a : Arch) : Prop where
  freq : Memory.wf freqDefault Config.nsym a.freq = true
  code : Memory.wf codeDefault Config.nsym a.code = true
  node : a.node.length = a.nnodes.toNat

/-- The invariants of 10_state.md R23, and the canonical form of the memories. -/
structure Inv (a : Arch) : Prop where
  memories : MemoriesOk a
  /-- item 1; `TOTAL <= CNTMAX` is TOTAL's width. -/
  total : a.total.toNat = freqSum a
  /-- item 2; PHASE has no value 5 or 6. -/
  errPhase : a.err ≠ .none ↔ a.phase = .err
  /-- 60_exceptions.md R141. -/
  errRaised : a.err ≠ .notFound ∧ a.err ≠ .ioFailure
  /-- item 3. -/
  noTree : a.nnodes = 0#10 → a.nleaf = 0#9 ∧ a.root = 0#9 ∧ NoCodes a
  /-- item 3. -/
  countPhase : a.phase = .count → a.nnodes = 0#10
  /-- item 3. -/
  treePhases : a.phase = .tree ∨ a.phase = .ready ∨ a.phase = .enc ∨ a.phase = .dec → a.nnodes ≠ 0#10
  /-- items 4 to 7. -/
  tree : a.nnodes ≠ 0#10 → TreeOk a
  /-- item 8. -/
  codes : a.phase = .ready ∨ a.phase = .enc ∨ a.phase = .dec → CodesOk a
  /-- item 8. -/
  noCodes : a.phase = .tree → NoCodes a
  /-- item 8. -/
  codesInErr : a.phase = .err → NoCodes a ∨ (a.nnodes ≠ 0#10 ∧ CodesOk a)
  /-- item 9. -/
  writer : WriterClean a
  /-- item 9. -/
  writerIdle : a.phase ≠ .enc → a.phase ≠ .err → a.wcnt = 0#3 ∧ a.wacc = 0#8
  /-- item 10. -/
  emitted : a.emitted.toNat ≤ a.total.toNat
  /-- item 10. -/
  cursor : a.phase = .dec → a.cur.toNat ≤ a.root.toNat ∧ (a.cur = a.root ∨ (a.nodeAt a.cur).leaf = false)

/-- A run has ended well (70_reset_and_hazards.md R181): no stream is open and no error is recorded. -/
def EndsWell (s : State) : Prop :=
  (s.arch.phase = .ready ∨ s.arch.phase = .count ∨ s.arch.phase = .tree) ∧ s.arch.err = .none

/-! ### Streams -/

/-- The bits of a list of bytes, in read order (40_bitstream.md R81, R85). -/
def unpack (bs : List (BitVec 8)) : Bits := bs.flatMap bitsOfByte

/-- The bytes among deliveries that left on one of the two streams, in order (20_memory.md R50). -/
def bytesOn (stream : Stream) (ds : List Delivery) : List (BitVec 8) :=
  ds.filterMap fun d => match d with
    | .record r => if r.stream = stream then some r.data else none
    | .response _ => none

/-- Every response among deliveries has `ok = 1`. -/
def AllOk (ds : List Delivery) : Prop := ∀ r, Delivery.response r ∈ ds → r.ok = true

/-- The number of zero bits that pad `n` bits to whole bytes (40_bitstream.md R80). -/
def padding (n : Nat) : Nat := (8 - n % 8) % 8

/-- The run of the words of the commands `is`, one after another, from `s`. -/
def feed (s : State) (is : List Instr) : Host.Outcome State Fault Refusal :=
  Host.Core.run Sys2Proof.core is.length { s with input := is.map fun i => HostEvent.word (encode i) }

end Sys2Proof.Machine
end

