-- ==== Sys2Proof/Certificates/Slice0/Obligations.lean ====
section
/-! DEFINITION. The statements for the provers, each from the numbered rules of spec/ that its docstring names. -/

open Sys2Proof Sys2Proof.Machine

/-! ### Encoding -/

/-- Words written out from 30_encoding.md R61, R65 and R72 decode to the commands they stand for: one of each format, with
operands at the edges of their ranges. -/
def Obligations.SpecWordsDecode : Prop :=
  decode 0x0000#16 = .ok .nop ∧ decode 0x1000#16 = .ok .clr ∧ decode 0x20FF#16 = .ok (.cnt 0xFF#8) ∧
  decode 0x3000#16 = .ok .build ∧ decode 0x4000#16 = .ok .derive ∧ decode 0x5061#16 = .ok (.enc 0x61#8) ∧
  decode 0x6000#16 = .ok .encend ∧ decode 0x706E#16 = .ok (.dec 0x6E#8) ∧ decode 0x8000#16 = .ok .decend ∧
  decode 0x9006#16 = .ok (.rdr 6#4) ∧ decode 0xA061#16 = .ok (.rdf 0x61#8) ∧ decode 0xB072#16 = .ok (.rdl 0x72#8) ∧
  decode 0xC762#16 = .ok (.rdc 0x62#8 7#3) ∧ decode 0xD408#16 = .ok (.rdn 8#9 2#2) ∧ decode 0xD1FF#16 = .ok (.rdn 511#9 0#2)

/-- Decoding the word of a well-formed command gives the command back, with every operand at every value (30_encoding.md R60, R61,
R62, R65). -/
def Obligations.DecodeOfEncodeIsSameCommand : Prop :=
  ∀ i : Instr, i.wellFormed = true → decode (encode i) = .ok i

/-- A word that decodes is the word of the command it decodes to, which is well-formed: each command has one word
(30_encoding.md R60, R61, R74). -/
def Obligations.EncodeOfDecodeIsSameWord : Prop :=
  ∀ (w : CmdWord) (i : Instr), decode w = .ok i → encode i = w ∧ i.wellFormed = true

/-- 30_encoding.md R67: the illegal words are exactly those of (a) to (d), every other word is a command, and an illegal word
raises IllegalCommand and changes nothing else, or is refused in phase ERR. -/
def Obligations.IllegalWordsAreExactlyR67 : Prop :=
  ∀ w : CmdWord,
    (IllegalWord w → (∃ r, decode w = .error r) ∧ ∀ s : State,
      (s.arch.phase ≠ .err → Gives (execWord w s) s (withError s.arch .illegalCommand) [] false 0#32) ∧
      (s.arch.phase = .err → Gives (execWord w s) s s.arch [] false 0#32)) ∧
    (¬ IllegalWord w → ∃ i, decode w = .ok i ∧ i.wellFormed = true)

/-- 30_encoding.md R66: a word is the command of a row exactly when it agrees with the row's pattern under its mask and passes the
value checks of RDR and RDN; no word agrees with two rows, and a word that agrees with none is illegal. -/
def Obligations.RowsOfR66SelectCommands : Prop :=
  ∀ w : CmdWord,
    (∀ row ∈ opcodeRows, (∃ i, decode w = .ok i ∧ i.mnemonic = row.mnemonic) ↔
      (w &&& row.mask = row.pattern ∧ (row.mnemonic = "RDR" → w.toNat % 16 ≤ 6) ∧
        (row.mnemonic = "RDN" → w.toNat / 512 % 4 ≠ 3))) ∧
    (∀ row ∈ opcodeRows, ∀ row' ∈ opcodeRows, w &&& row.mask = row.pattern → w &&& row'.mask = row'.pattern → row = row') ∧
    ((∀ row ∈ opcodeRows, w &&& row.mask ≠ row.pattern) → ∃ r, decode w = .error r)

/-! ### Steps, ports and reset -/

/-- A step whose next event is a command word is the execution of that word, the word taken from the port: a word that decodes runs
exactly its command, and an illegal word raises IllegalCommand and changes nothing else, or is refused in phase ERR. With no event
pending the block waits and nothing changes (00_scope.md R5, 30_encoding.md R59, R67, R68, 70_reset_and_hazards.md R165; log
entry 1: that the host's events stand in a list, and that a step with none is the identity, is the model's choice). -/
def Obligations.StepRunsDecodedCommand : Prop :=
  (∀ (s : State) (w : CmdWord) (rest : List HostEvent), s.input = .word w :: rest →
    step s = execWord w { s with input := rest } ∧
    (∀ i, decode w = .ok i → step s = exec i { s with input := rest }) ∧
    (IllegalWord w → s.arch.phase ≠ .err →
      Gives (step s) { s with input := rest } (withError s.arch .illegalCommand) [] false 0#32) ∧
    (IllegalWord w → s.arch.phase = .err → Gives (step s) { s with input := rest } s.arch [] false 0#32)) ∧
  ∀ s : State, s.input = [] → step s = .next s

/-- `rst` and CLR leave every element at the value the rule gives, and the machine starts there (70_reset_and_hazards.md R165). That
the host's events stand in a list, which is empty at reset, and that a step with none is the identity, is the model's choice (log
entry 1). -/
def Obligations.ResetAndClrGiveResetValues : Prop :=
  let AllReset (a : Arch) : Prop :=
    a.phase = .count ∧ a.err = .none ∧ a.total = 0#32 ∧ (∀ x, a.freqAt x = 0#32) ∧ a.nleaf = 0#9 ∧ a.nnodes = 0#10 ∧
    a.node = [] ∧ a.root = 0#9 ∧ (∀ x, a.codeAt x = ⟨false, 0#8, 0#256⟩) ∧ a.wacc = 0#8 ∧ a.wcnt = 0#3 ∧ a.cur = 0#9 ∧
    a.emitted = 0#32
  AllReset State.reset.arch ∧ step State.reset = .next State.reset ∧
  (∀ s : State, ∃ a, AllReset a ∧ Answers .clr s a [] true 0#32) ∧
  ∀ (s : State) (rest : List HostEvent), s.input = .reset :: rest →
    ∃ a, AllReset a ∧ step s = .next { s with arch := a, input := rest }

/-- 70_reset_and_hazards.md R166: reset itself delivers nothing; of a command it abandons, no state change survives, no response
is given, and some prefix of its records has left. -/
def Obligations.AbandonedCommandLeavesOnlySomeRecords : Prop :=
  (∀ (s : State) (rest : List HostEvent), s.input = .reset :: rest →
    ∃ t, step s = .next t ∧ t.arch = Arch.reset ∧ t.input = rest ∧ t.delivered = s.delivered) ∧
  ∀ (s : State) (w : CmdWord) (rest : List HostEvent), s.input = .wordThenReset w :: rest →
    ∃ t, step s = .next t ∧ t.arch = Arch.reset ∧ t.input = rest ∧
      ∀ a outs ok data, Gives (execWord w { s with input := rest }) { s with input := rest } a outs ok data →
        ∃ n, t.delivered = s.delivered ++ (outs.take n).map Delivery.record

/-- Every step of a state that meets the invariants answers: nothing is stuck, and no word is without an outcome
(60_exceptions.md R158, 70_reset_and_hazards.md R182). -/
def Obligations.StepAnswersUnderInvariants : Prop :=
  ∀ s : State, Inv s.arch → ∃ t, step s = .next t

/-- 30_encoding.md R63: an output record is `{stream, data}`; ENC emits at most 32 records and ENCEND at most one, all CBYTE, DEC at
most 8, all DSYM, every other command none. -/
def Obligations.OutputRecordsOfEachCommand : Prop :=
  (∀ b : BitVec 8, (OutRecord.mk .cbyte b).bits.toNat = b.toNat ∧ (OutRecord.mk .dsym b).bits.toNat = 256 + b.toNat) ∧
  ∀ (i : Instr) (s t : State), exec i s = .next t → ∃ outs ok data, Gives (.next t) s t.arch outs ok data ∧
    match i with
    | .enc _ => outs.length ≤ 32 ∧ ∀ r ∈ outs, r.stream = .cbyte
    | .encend => outs.length ≤ 1 ∧ ∀ r ∈ outs, r.stream = .cbyte
    | .dec _ => outs.length ≤ 8 ∧ ∀ r ∈ outs, r.stream = .dsym
    | .nop | .clr | .cnt _ | .build | .derive | .decend | .rdr _ | .rdf _ | .rdl _ | .rdc _ _ | .rdn _ _ => outs = []

/-- 30_encoding.md R64: where each field of the response word stands, and what it holds: PHASE and ERR after the command; `ok = 0`
exactly when the command raised an error or was refused in phase ERR; the data is the value read, for a read with `ok = 1`, else 0. -/
def Obligations.ResponseWordHoldsR64 : Prop :=
  (∀ r : Response, r.bits.getLsbD 39 = r.ok ∧ r.bits.extractLsb' 36 3 = r.phase.bits ∧
    r.bits.extractLsb' 32 4 = r.err.bits ∧ r.bits.extractLsb' 0 32 = r.data) ∧
  ∀ (i : Instr) (s t : State), i.wellFormed = true → exec i s = .next t →
    ∃ outs ok data, Gives (.next t) s t.arch outs ok data ∧
      (ok = false ↔ t.arch.phase = .err ∧ ¬ (s.arch.phase = .err ∧ readsOnly i = true)) ∧
      (ok = false → data = 0#32) ∧
      (ok = true → match i with
        | .rdr reg => registerView s.arch reg = some data
        | .rdf x => data = s.arch.freqAt x
        | .rdl x => data = lengthView (s.arch.codeAt x)
        | .rdc x word => data = vectorView (s.arch.codeAt x) word
        | .rdn idx field => nodeView s.arch idx field = some data
        | .nop | .clr | .cnt _ | .build | .derive | .enc _ | .encend | .dec _ | .decend => data = 0#32)

/-! ### System and readout commands -/

/-- 45_system.md R130: NOP changes no state, emits nothing and answers `ok = 1` in every phase. -/
def Obligations.NopOnlyAnswers : Prop :=
  ∀ s : State, Answers .nop s s.arch [] true 0#32

/-- 45_system.md R131: CLR gives the state of hardware reset in every phase and emits nothing, whatever the writer holds. -/
def Obligations.ClrAnswersFromResetState : Prop :=
  ∀ s : State, Answers .clr s State.reset.arch [] true 0#32

/-- RDR answers the register's view and changes nothing, in every phase (45_system.md R132, 10_state.md R24). That the terms with a
register number 7 to 15, which no word decodes to, are answered as the illegal words are is the model's choice (log entry 10). -/
def Obligations.RdrReadsRegisters : Prop :=
  (∀ s : State,
    (∃ v : BitVec 32, Answers (.rdr 0#4) s s.arch [] true v ∧
      v.extractLsb' 0 3 = s.arch.phase.bits ∧ v.getLsbD 3 = false ∧ v.extractLsb' 4 4 = s.arch.err.bits ∧
      v.extractLsb' 8 3 = s.arch.wcnt ∧ v.extractLsb' 11 5 = 0#5 ∧ v.extractLsb' 16 8 = s.arch.wacc ∧
      v.extractLsb' 24 8 = 0#8) ∧
    Answers (.rdr 1#4) s s.arch [] true s.arch.total ∧
    Answers (.rdr 2#4) s s.arch [] true (BitVec.ofNat 32 s.arch.nleaf.toNat) ∧
    Answers (.rdr 3#4) s s.arch [] true (BitVec.ofNat 32 s.arch.nnodes.toNat) ∧
    Answers (.rdr 4#4) s s.arch [] true (BitVec.ofNat 32 s.arch.root.toNat) ∧
    Answers (.rdr 5#4) s s.arch [] true (BitVec.ofNat 32 s.arch.cur.toNat) ∧
    Answers (.rdr 6#4) s s.arch [] true s.arch.emitted) ∧
  ∀ (s : State) (reg : BitVec 4), 7 ≤ reg.toNat →
    (s.arch.phase ≠ .err → Answers (.rdr reg) s (withError s.arch .illegalCommand) [] false 0#32) ∧
    (s.arch.phase = .err → Answers (.rdr reg) s s.arch [] false 0#32)

/-- RDF answers `FREQ[s]` and changes nothing, in every phase (45_system.md R133). -/
def Obligations.RdfReadsCount : Prop :=
  ∀ (s : State) (x : Sym), Answers (.rdf x) s s.arch [] true (s.arch.freqAt x)

/-- 45_system.md R134: RDL answers the valid bit at bit 31 and the length in bits 7 to 0, the rest 0, and changes nothing; before
DERIVE every symbol reads 0. -/
def Obligations.RdlReadsLength : Prop :=
  ∀ (s : State) (x : Sym), ∃ v : BitVec 32, Answers (.rdl x) s s.arch [] true v ∧
    v.toNat = (if (s.arch.codeAt x).valid then 2 ^ 31 else 0) + (s.arch.codeAt x).len.toNat ∧
    (Inv s.arch → s.arch.phase = .count ∨ s.arch.phase = .tree → v = 0#32)

/-- 45_system.md R135: RDC answers `vec[255 - 32*word : 224 - 32*word]` and changes nothing; so the data holds path element
`32*word + n` at bit `31 - n`, and 0 beyond the path, in every word of an entry that is not valid. -/
def Obligations.RdcReadsCodeVector : Prop :=
  ∀ (s : State) (x : Sym) (word : BitVec 3), ∃ v : BitVec 32, Answers (.rdc x word) s s.arch [] true v ∧
    (∀ n, n < 32 → v.getLsbD (31 - n) = (s.arch.codeAt x).vec.getLsbD (255 - (32 * word.toNat + n))) ∧
    (Inv s.arch →
      (∀ n, n < 32 → v.getLsbD (31 - n) = (s.arch.codeAt x).path.getD (32 * word.toNat + n) false) ∧
      ((s.arch.codeAt x).valid = false → v = 0#32))

/-- RDN answers 0 for a node that does not exist, else KIND, WEIGHT or LINKS, and changes nothing; under the invariants no node
exists before BUILD and index 511 never does, an internal node has no symbol and a leaf no children (45_system.md R136). That the
terms with field 3, which no word decodes to, are answered as the illegal words are is the model's choice (log entry 10). -/
def Obligations.RdnReadsNode : Prop :=
  (∀ (s : State) (idx : NodeIdx) (field : BitVec 2), field ≠ 3#2 → s.arch.nnodes.toNat ≤ idx.toNat →
    Answers (.rdn idx field) s s.arch [] true 0#32) ∧
  (∀ (s : State) (idx : NodeIdx), idx.toNat < s.arch.nnodes.toNat →
    (∃ v : BitVec 32, Answers (.rdn idx 0#2) s s.arch [] true v ∧ v.getLsbD 31 = true ∧
      v.getLsbD 30 = (s.arch.nodeAt idx).leaf ∧ v.extractLsb' 8 22 = 0#22 ∧ v.extractLsb' 0 8 = (s.arch.nodeAt idx).sym) ∧
    Answers (.rdn idx 1#2) s s.arch [] true (s.arch.nodeAt idx).weight ∧
    (∃ v : BitVec 32, Answers (.rdn idx 2#2) s s.arch [] true v ∧ v.extractLsb' 25 7 = 0#7 ∧
      v.extractLsb' 16 9 = (s.arch.nodeAt idx).left ∧ v.extractLsb' 9 7 = 0#7 ∧
      v.extractLsb' 0 9 = (s.arch.nodeAt idx).right)) ∧
  (∀ (s : State) (idx : NodeIdx),
    (s.arch.phase ≠ .err → Answers (.rdn idx 3#2) s (withError s.arch .illegalCommand) [] false 0#32) ∧
    (s.arch.phase = .err → Answers (.rdn idx 3#2) s s.arch [] false 0#32)) ∧
  ∀ a : Arch, Inv a → (a.phase = .count → a.nnodes = 0#10) ∧ a.nnodes.toNat ≤ 511 ∧
    ∀ idx : NodeIdx, idx.toNat < a.nnodes.toNat →
      ((a.nodeAt idx).leaf = false → (a.nodeAt idx).sym = 0#8) ∧
      ((a.nodeAt idx).leaf = true → (a.nodeAt idx).left = 0#9 ∧ (a.nodeAt idx).right = 0#9)

/-- 45_system.md R137: the reads execute in every phase and change no element, and every element can be recovered through them: two
blocks that answer every read alike are the same block. -/
def Obligations.ReadsDetermineTheState : Prop :=
  (∀ (i : Instr) (s : State), readsOnly i = true → i.wellFormed = true → ∃ data, Answers i s s.arch [] true data) ∧
  ∀ s t : State, Inv s.arch → Inv t.arch →
    (∀ (i : Instr) (data : BitVec 32), readsOnly i = true → i.wellFormed = true →
      (Answers i s s.arch [] true data ↔ Answers i t t.arch [] true data)) →
    s.arch = t.arch

/-! ### Frequency table -/

/-- 41_frequency.md R91 and R92: CNT adds one to the symbol's count and to TOTAL and changes nothing else; at CNTMAX it raises
CountOverflow and FREQ and TOTAL keep their values; outside phase COUNT it is turned away. -/
def Obligations.CntCountsOneSymbol : Prop :=
  ∀ (s : State) (x : Sym),
    (s.arch.phase = .count → s.arch.total ≠ 0xFFFFFFFF#32 → Memory.wf freqDefault 256 s.arch.freq = true →
      ∃ f, Answers (.cnt x) s { s.arch with freq := f, total := s.arch.total + 1#32 } [] true 0#32 ∧
        Memory.wf freqDefault 256 f = true ∧
        ∀ y : Sym, Memory.read freqDefault f y.toNat = if y = x then s.arch.freqAt x + 1#32 else s.arch.freqAt y) ∧
    (s.arch.phase = .count → s.arch.total = 0xFFFFFFFF#32 →
      Answers (.cnt x) s (withError s.arch .countOverflow) [] false 0#32) ∧
    TurnedAway (.cnt x) [.count] s

/-- 41_frequency.md R92: every count is at most TOTAL, which is at most CNTMAX; below CNTMAX neither increment of CNT wraps; at
CNTMAX it raises CountOverflow, and FREQ and TOTAL keep their values. -/
def Obligations.CntNeverWraps : Prop :=
  ∀ (s : State) (x : Sym), Inv s.arch →
    (s.arch.freqAt x).toNat ≤ s.arch.total.toNat ∧ s.arch.total.toNat ≤ 4294967295 ∧
    (s.arch.phase = .count → s.arch.total ≠ 0xFFFFFFFF#32 → ∃ t, exec (.cnt x) s = .next t ∧
      (t.arch.freqAt x).toNat = (s.arch.freqAt x).toNat + 1 ∧ t.arch.total.toNat = s.arch.total.toNat + 1 ∧
      t.arch.total.toNat = freqSum t.arch) ∧
    (s.arch.phase = .count → s.arch.total = 0xFFFFFFFF#32 →
      Answers (.cnt x) s (withError s.arch .countOverflow) [] false 0#32)

/-- 41_frequency.md R90: after CNT of a sequence each symbol's count has grown by its occurrences and TOTAL by the length, whatever
the order. -/
def Obligations.CountingIgnoresOrder : Prop :=
  ∀ (s : State) (xs : List Sym), s.arch.phase = .count → Memory.wf freqDefault 256 s.arch.freq = true →
    s.arch.total.toNat + xs.length ≤ 4294967295 →
    ∃ t, feed s (xs.map .cnt) = .next t ∧ t.arch.phase = .count ∧
      (∀ y, t.arch.freqAt y = s.arch.freqAt y + BitVec.ofNat 32 (xs.count y)) ∧
      t.arch.total.toNat = s.arch.total.toNat + xs.length ∧
      ∀ ys : List Sym, ys.Perm xs → ∃ u, feed s (ys.map .cnt) = .next u ∧ u.arch = t.arch

/-! ### Tree -/

/-- 42_tree_build.md R96, R97, R98, R99: with nothing counted BUILD raises EmptyInput and changes nothing else; else it makes the leaves of the `k` distinct symbols in ascending order, then `k - 1` internal
nodes, each the merge of the two roots that come first by weight and index, the first removed on the left; it sets NLEAF,
NNODES, ROOT and PHASE and changes nothing else. Outside phase COUNT it is turned away. -/
def Obligations.BuildMergesTheFirstTwoRoots : Prop :=
  ∀ s : State,
    (s.arch.phase = .count → s.arch.total = 0#32 → Answers .build s (withError s.arch .emptyInput) [] false 0#32) ∧
    (s.arch.phase = .count → s.arch.total ≠ 0#32 → distinctSyms s.arch ≠ [] →
      let k := (distinctSyms s.arch).length
      ∃ ns, Answers .build s
          { s.arch with
            node := ns
            nleaf := BitVec.ofNat 9 k
            nnodes := BitVec.ofNat 10 (2 * k - 1)
            root := BitVec.ofNat 9 (2 * k - 2)
            phase := .tree } [] true 0#32 ∧
        ns.length = 2 * k - 1 ∧
        (∀ i x, (distinctSyms s.arch)[i]? = some x → nodeAt ns i = leafOf s.arch x) ∧
        ∀ n, k ≤ n → n < 2 * k - 1 → IsMerge ns k n) ∧
    TurnedAway .build [.count] s

/-- 42_tree_build.md R102: with one distinct symbol the tree is its leaf, whose weight is TOTAL. -/
def Obligations.BuildOfOneSymbolIsItsLeaf : Prop :=
  ∀ (s : State) (x : Sym), Inv s.arch → s.arch.phase = .count → distinctSyms s.arch = [x] →
    Answers .build s
      { s.arch with
        node := [⟨true, x, s.arch.total, 0#9, 0#9⟩]
        nleaf := 1#9
        nnodes := 1#10
        root := 0#9
        phase := .tree } [] true 0#32

/-- 42_tree_build.md R101: every weight in the tree is at most TOTAL, a merged weight is the sum of its children's as natural
numbers, and the root's weight is TOTAL. -/
def Obligations.NodeWeightsNeverWrap : Prop :=
  ∀ a : Arch, Inv a → a.nnodes ≠ 0#10 →
    (∀ i, i < a.nnodes.toNat → (nodeAt a.node i).weight.toNat ≤ a.total.toNat) ∧
    (∀ i, i < a.nnodes.toNat → (nodeAt a.node i).leaf = false →
      (nodeAt a.node i).weight.toNat =
        (a.nodeAt (nodeAt a.node i).left).weight.toNat + (a.nodeAt (nodeAt a.node i).right).weight.toNat) ∧
    (a.nodeAt a.root).weight = a.total

/-! ### Code table -/

/-- 43_code_table.md R107: after DERIVE the code of each leaf's symbol is the path to it, of length at least 1, the single leaf's
is "1", and no other symbol has one; a symbol has a code exactly when it was counted; NNODES is odd. DERIVE changes only CODE
and PHASE. -/
def Obligations.DeriveRecordsPathsOfLeaves : Prop :=
  ∀ s : State, Inv s.arch → s.arch.phase = .tree →
    ∃ code, Answers .derive s { s.arch with code := code, phase := .ready } [] true 0#32 ∧
      ∀ x : Sym, ∃ e, e = Memory.read codeDefault code x.toNat ∧
        (∀ i : NodeIdx, i.toNat < s.arch.nnodes.toNat → (s.arch.nodeAt i).leaf = true → (s.arch.nodeAt i).sym = x →
          3 ≤ s.arch.nnodes.toNat →
          ∃ p, walk s.arch.node s.arch.root p = some i ∧ 1 ≤ p.length ∧ e = CodeEntry.ofPath p ∧ e.path = p) ∧
        (s.arch.nnodes = 1#10 → (nodeAt s.arch.node 0).sym = x → e.valid = true ∧ e.path = [true]) ∧
        ((∀ i, i < s.arch.nnodes.toNat → (nodeAt s.arch.node i).leaf = true → (nodeAt s.arch.node i).sym ≠ x) →
          e.valid = false) ∧
        (e.valid = true ↔ s.arch.freqAt x ≠ 0#32) ∧ s.arch.nnodes.toNat % 2 = 1

/-- DERIVE stops exactly when some path from ROOT has 256 bits, so that no code vector holds it; in phase TREE over any other
arena it answers, and outside phase TREE it is turned away (43_code_table.md R106, R110; log entry 6: the stop is the model's
choice). -/
def Obligations.DeriveStopsOnlyOnTooDeepArenas : Prop :=
  ∀ s : State,
    ((∃ f, exec .derive s = .fault f) ↔
      s.arch.phase = .tree ∧ ∃ p i, p.length = 256 ∧ walk s.arch.node s.arch.root p = some i) ∧
    ((∃ f, exec .derive s = .fault f) ∨ ∃ t, exec .derive s = .next t) ∧
    TurnedAway .derive [.tree] s

/-- 43_code_table.md R108: over a single leaf DERIVE gives its symbol the code "1" (`len = 1`, `vec[255] = 1`, every other bit 0); no
valid entry ever has `len = 0`. -/
def Obligations.SingleLeafGetsOneBitCode : Prop :=
  (∀ s : State, Inv s.arch → s.arch.phase = .tree → s.arch.nnodes = 1#10 →
    ∃ code v, Answers .derive s { s.arch with code := code, phase := .ready } [] true 0#32 ∧
      Memory.read codeDefault code (nodeAt s.arch.node 0).sym.toNat = ⟨true, 1#8, v⟩ ∧
      ∀ n, v.getLsbD n = decide (n = 255)) ∧
  ∀ (a : Arch) (x : Sym), Inv a → (a.codeAt x).valid = true → (a.codeAt x).len ≠ 0#8

/-- 43_code_table.md R109: no code is a prefix of another symbol's code. -/
def Obligations.CodesArePrefixFree : Prop :=
  ∀ (a : Arch) (x y : Sym), Inv a → x ≠ y → (a.codeAt x).valid = true → (a.codeAt y).valid = true →
    ¬ (a.codeAt x).path <+: (a.codeAt y).path

/-- A code over `k` distinct symbols has between 1 and `max(1, k - 1)` bits, at most CODELENMAX (43_code_table.md R110). -/
def Obligations.CodeLengthsAreBounded : Prop :=
  ∀ (a : Arch) (x : Sym), Inv a → (a.codeAt x).valid = true →
    1 ≤ (a.codeAt x).path.length ∧ (a.codeAt x).path.length ≤ max 1 ((distinctSyms a).length - 1) ∧
    (a.codeAt x).path.length ≤ 255

/-! ### Bit writer and reader -/

/-- 40_bitstream.md R82: a bit lands at place `7 - WCNT`, which was 0; the eighth sends the byte and empties the writer. -/
def Obligations.WriteBitPlacesTheBit : Prop :=
  ∀ (c : Busy) (bit : Bool), WriterClean c.arch →
    let acc := c.arch.wacc.toNat + (if bit then 2 ^ (7 - c.arch.wcnt.toNat) else 0)
    (c.arch.wcnt = 7#3 → writeBit c bit =
      { arch := { c.arch with wacc := 0#8, wcnt := 0#3 }, outs := c.outs ++ [⟨.cbyte, BitVec.ofNat 8 acc⟩] }) ∧
    (c.arch.wcnt ≠ 7#3 → writeBit c bit =
      { arch := { c.arch with wacc := BitVec.ofNat 8 acc, wcnt := c.arch.wcnt + 1#3 }, outs := c.outs }) ∧
    acc < 256

/-- 40_bitstream.md R83: closing emits the held byte, whose unused bits are 0, exactly when bits are held, and empties the writer;
the padding is `8 - WCNT` bits. -/
def Obligations.CloseWriterPadsWithZeros : Prop :=
  ∀ c : Busy, WriterClean c.arch →
    (c.arch.wcnt = 0#3 → closeWriter c = { c with arch := { c.arch with wacc := 0#8, wcnt := 0#3 } }) ∧
    (c.arch.wcnt ≠ 0#3 → closeWriter c =
        { arch := { c.arch with wacc := 0#8, wcnt := 0#3 }, outs := c.outs ++ [⟨.cbyte, c.arch.wacc⟩] } ∧
      bitsOfByte c.arch.wacc = heldBits c.arch ++ List.replicate (8 - c.arch.wcnt.toNat) false)

/-- 40_bitstream.md R84: after the bits `q` on an empty writer, `|q| / 8` bytes are emitted, WCNT is `|q| mod 8`, byte `j` packs
`q[8j .. 8j+7]`, WACC packs the rest above zeros; after closing, `ceil(|q| / 8)` bytes are emitted. -/
def Obligations.WriterPacksTheBits : Prop :=
  ∀ (c : Busy) (q : Bits), c.arch.wacc = 0#8 → c.arch.wcnt = 0#3 → c.outs = [] →
    ∃ bs : List (BitVec 8), (q.foldl writeBit c).outs = bs.map (OutRecord.mk .cbyte) ∧ bs.length = q.length / 8 ∧
      (q.foldl writeBit c).arch.wcnt.toNat = q.length % 8 ∧
      (∀ j n, n < 8 → j < bs.length → (bs.getD j 0#8).getLsbD (7 - n) = q.getD (8 * j + n) false) ∧
      heldBits (q.foldl writeBit c).arch = q.drop (8 * bs.length) ∧ WriterClean (q.foldl writeBit c).arch ∧
      (closeWriter (q.foldl writeBit c)).outs.length = (q.length + 7) / 8

/-- 40_bitstream.md R80: the bits `q`, written and closed, read back as `q` and then the padding, which is zero bits. -/
def Obligations.WrittenBitsReadBack : Prop :=
  ∀ (c : Busy) (q : Bits), c.arch.wacc = 0#8 → c.arch.wcnt = 0#3 → c.outs = [] →
    ∃ bs : List (BitVec 8), (closeWriter (q.foldl writeBit c)).outs = bs.map (OutRecord.mk .cbyte) ∧
      unpack bs = q ++ List.replicate ((8 - q.length % 8) % 8) false

/-- 40_bitstream.md R81: the byte of eight bits has the first at bit 7, and its value is the sum of the weights 128, 64, ..., 1: the
reader gives its bits in that order, and the writer, empty and given eight bits in that order, emits it. -/
def Obligations.BytesPackMostSignificantFirst : Prop :=
  ∀ b : BitVec 8,
    bitsOfByte b = [b.getLsbD 7, b.getLsbD 6, b.getLsbD 5, b.getLsbD 4, b.getLsbD 3, b.getLsbD 2, b.getLsbD 1, b.getLsbD 0] ∧
    ∀ q : Bits, q = bitsOfByte b → b.toNat =
      128 * (q.getD 0 false).toNat + 64 * (q.getD 1 false).toNat + 32 * (q.getD 2 false).toNat +
      16 * (q.getD 3 false).toNat + 8 * (q.getD 4 false).toNat + 4 * (q.getD 5 false).toNat +
      2 * (q.getD 6 false).toNat + (q.getD 7 false).toNat ∧
      ∀ c : Busy, c.arch.wacc = 0#8 → c.arch.wcnt = 0#3 →
        q.foldl writeBit c = { arch := c.arch, outs := c.outs ++ [⟨.cbyte, b⟩] }

/-! ### Encoder -/

/-- 44_codec.md R114: ENC of a symbol with a code opens the stream if need be and writes the code's bits behind those held: the
bytes sent and the bits then held are exactly these bits in order, and nothing but PHASE, WACC and WCNT changes. Without a code
it is UnknownSymbol (R116); in other phases it is turned away. -/
def Obligations.EncWritesTheCode : Prop :=
  ∀ (s : State) (x : Sym),
    (∀ held, (s.arch.phase = .ready ∧ held = []) ∨ (s.arch.phase = .enc ∧ held = heldBits s.arch ∧ WriterClean s.arch) →
      (s.arch.codeAt x).valid = true →
      ∃ bs w n, Answers (.enc x) s { s.arch with phase := .enc, wacc := w, wcnt := n } (bs.map (OutRecord.mk .cbyte)) true 0#32 ∧
        bs.length = (held.length + (s.arch.codeAt x).path.length) / 8 ∧
        unpack bs ++ heldBits { s.arch with wacc := w, wcnt := n } = held ++ (s.arch.codeAt x).path ∧
        WriterClean { s.arch with wacc := w, wcnt := n }) ∧
    (s.arch.phase = .ready ∨ s.arch.phase = .enc → (s.arch.codeAt x).valid = false →
      Answers (.enc x) s { withError s.arch .unknownSymbol with wacc := 0#8, wcnt := 0#3 }
        (if s.arch.phase = .enc ∧ s.arch.wcnt ≠ 0#3 then [⟨.cbyte, s.arch.wacc⟩] else []) false 0#32) ∧
    TurnedAway (.enc x) [.ready, .enc] s

/-- 44_codec.md R116 under the invariants: ENC of a symbol without a code, that is with `FREQ[s] = 0`, writes no bit for it, emits
the held bits padded with zeros as one last byte (none when the stream begins with it), and raises UnknownSymbol. -/
def Obligations.UnknownSymbolClosesTheWriter : Prop :=
  ∀ (s : State) (x : Sym), Inv s.arch → s.arch.phase = .ready ∨ s.arch.phase = .enc →
    ((s.arch.codeAt x).valid = false ↔ s.arch.freqAt x = 0#32) ∧
    (s.arch.freqAt x = 0#32 → ∃ bs, Answers (.enc x) s { withError s.arch .unknownSymbol with wacc := 0#8, wcnt := 0#3 } (bs.map (OutRecord.mk .cbyte))
        false 0#32 ∧
      unpack bs = heldBits s.arch ++ List.replicate ((8 - s.arch.wcnt.toNat) % 8) false ∧
      (s.arch.phase = .ready → bs = []))

/-- 44_codec.md R117: ENCEND emits the held byte if bits are held, empties the writer and leaves phase READY; in phase READY, under the
invariants, the writer is empty and nothing is emitted or changed; in other phases it is turned away. -/
def Obligations.EncendClosesTheStream : Prop :=
  ∀ s : State,
    (s.arch.phase = .ready ∨ s.arch.phase = .enc →
      Answers .encend s { s.arch with phase := .ready, wacc := 0#8, wcnt := 0#3 }
        (if s.arch.wcnt = 0#3 then [] else [⟨.cbyte, s.arch.wacc⟩]) true 0#32) ∧
    (Inv s.arch → s.arch.phase = .ready →
      s.arch.wcnt = 0#3 ∧ s.arch.wacc = 0#8 ∧ Answers .encend s s.arch [] true 0#32) ∧
    TurnedAway .encend [.ready, .enc] s

/-- 44_codec.md R115: an encode stream's bytes are its symbols' codes in order, packed, and padded with zero bits; where it encodes
each symbol as often as it was counted, its bits are the sum of the counts times the code lengths. -/
def Obligations.EncodeStreamPacksTheCodes : Prop :=
  ∀ (s : State) (xs : List Sym), s.arch.phase = .ready → s.arch.wcnt = 0#3 →
    (∀ x ∈ xs, (s.arch.codeAt x).valid = true) →
    ∃ t bs, feed s (xs.map .enc ++ [.encend]) = .next t ∧ t.arch = { s.arch with wacc := 0#8, wcnt := 0#3 } ∧
      bytesOn .cbyte t.delivered = bytesOn .cbyte s.delivered ++ bs ∧
      bs.length = ((xs.flatMap fun x => (s.arch.codeAt x).path).length + 7) / 8 ∧
      unpack bs = (xs.flatMap fun x => (s.arch.codeAt x).path) ++
        List.replicate (padding (xs.flatMap fun x => (s.arch.codeAt x).path).length) false ∧
      ((∀ x, xs.count x = (s.arch.freqAt x).toNat) → (xs.flatMap fun x => (s.arch.codeAt x).path).length =
        (allSyms.map fun x => (s.arch.freqAt x).toNat * (s.arch.codeAt x).path.length).sum)

/-! ### Decoder -/

/-- 44_codec.md R121: the step of the decoder, in the order of its cases; `EMITTED + 1` never exceeds TOTAL. -/
def Obligations.DecodeBitWalksTheTree : Prop :=
  ∀ (c : Busy) (bit : Bool),
    let a := c.arch
    let next := if bit then (a.nodeAt a.cur).right else (a.nodeAt a.cur).left
    (decodeBit c bit =
      if a.emitted = a.total then c
      else if (a.nodeAt a.root).leaf = true then
        { arch := { a with emitted := a.emitted + 1#32 }, outs := c.outs ++ [⟨.dsym, (a.nodeAt a.root).sym⟩] }
      else if (a.nodeAt next).leaf = true then
        { arch := { a with emitted := a.emitted + 1#32, cur := a.root }, outs := c.outs ++ [⟨.dsym, (a.nodeAt next).sym⟩] }
      else { arch := { a with cur := next }, outs := c.outs }) ∧
    (a.emitted.toNat ≤ a.total.toNat → (decodeBit c bit).arch.emitted.toNat ≤ a.total.toNat ∧
      ((decodeBit c bit).arch.emitted = a.emitted ∨ (decodeBit c bit).arch.emitted.toNat = a.emitted.toNat + 1))

/-- 44_codec.md R119: DEC opens the stream if need be and takes the byte's eight bits through decodeBit, bit 7 first; in other phases
it is turned away. -/
def Obligations.DecTakesEightBits : Prop :=
  ∀ (s : State) (b : BitVec 8),
    (∀ a, (s.arch.phase = .ready ∧ a = { s.arch with phase := .dec, cur := s.arch.root, emitted := 0#32 }) ∨
        (s.arch.phase = .dec ∧ a = s.arch) →
      ∃ c, c = [b.getLsbD 7, b.getLsbD 6, b.getLsbD 5, b.getLsbD 4, b.getLsbD 3, b.getLsbD 2, b.getLsbD 1, b.getLsbD 0].foldl
          decodeBit ⟨a, []⟩ ∧
        Answers (.dec b) s c.arch c.outs true 0#32 ∧
        c.arch = { a with cur := c.arch.cur, emitted := c.arch.emitted }) ∧
    TurnedAway (.dec b) [.ready, .dec] s

/-- 44_codec.md R122: over a single leaf the symbol's code has one bit, and DEC emits the symbol once for each bit, whatever the
bits, until TOTAL are emitted; CUR stays at ROOT = 0. -/
def Obligations.SingleLeafDecodesOneSymbolABit : Prop :=
  ∀ (s : State) (b : BitVec 8) (e : Nat), Inv s.arch → s.arch.nnodes = 1#10 →
    (s.arch.phase = .ready ∧ e = 0) ∨ (s.arch.phase = .dec ∧ e = s.arch.emitted.toNat) →
    let n := min 8 (s.arch.total.toNat - e)
    Answers (.dec b) s { s.arch with phase := .dec, cur := 0#9, emitted := BitVec.ofNat 32 (e + n) }
      (List.replicate n ⟨.dsym, (nodeAt s.arch.node 0).sym⟩) true 0#32 ∧
    s.arch.root = 0#9 ∧ (s.arch.codeAt (nodeAt s.arch.node 0).sym).path.length = 1

/-- 44_codec.md R126: once EMITTED = TOTAL every further bit is discarded unexamined, in the same byte and in later ones. -/
def Obligations.TrailingBitsAreDiscarded : Prop :=
  (∀ (s : State) (b : BitVec 8), s.arch.phase = .dec → s.arch.emitted = s.arch.total →
    Answers (.dec b) s s.arch [] true 0#32) ∧
  ∀ (c : Busy) (q : Bits), c.arch.emitted = c.arch.total → q.foldl decodeBit c = c

/-- In an open decode stream (phase DEC) over two or more symbols, the bits on the way to CUR and the bits DEC consumes are the codes of the symbols
it emits and then the bits on the way to the new CUR; DEC consumes fewer than eight only when TOTAL symbols are emitted
(43_code_table.md R105, R107, 44_codec.md R121). -/
def Obligations.DecEmitsTheSymbolsOfTheCodes : Prop :=
  ∀ (s : State) (b : BitVec 8) (before : Bits), Inv s.arch → s.arch.phase = .dec → s.arch.nnodes ≠ 1#10 →
    walk s.arch.node s.arch.root before = some s.arch.cur →
    ∃ (xs : List Sym) (n : Nat) (cur : NodeIdx) (after : Bits),
      Answers (.dec b) s { s.arch with cur := cur, emitted := BitVec.ofNat 32 (s.arch.emitted.toNat + xs.length) }
        (xs.map (OutRecord.mk .dsym)) true 0#32 ∧
      s.arch.emitted.toNat + xs.length ≤ s.arch.total.toNat ∧
      (∀ x ∈ xs, (s.arch.codeAt x).valid = true) ∧
      walk s.arch.node s.arch.root after = some cur ∧ n ≤ 8 ∧
      before ++ (bitsOfByte b).take n = (xs.flatMap fun x => (s.arch.codeAt x).path) ++ after ∧
      (n < 8 → s.arch.emitted.toNat + xs.length = s.arch.total.toNat)

/-- 44_codec.md R123, R124, R125: DECEND starts an empty stream in READY; with TOTAL symbols emitted it ends the stream, else it
raises EndOfStream at ROOT and CorruptStream elsewhere; in READY, under the invariants, it always raises EndOfStream; in other phases
it is turned away. -/
def Obligations.DecendEndsOrRaises : Prop :=
  ∀ s : State,
    (∀ a, (s.arch.phase = .ready ∧ a = { s.arch with cur := s.arch.root, emitted := 0#32 }) ∨
        (s.arch.phase = .dec ∧ a = s.arch) →
      (a.emitted = a.total → Answers .decend s { a with phase := .ready } [] true 0#32) ∧
      (a.emitted ≠ a.total → a.cur = a.root → Answers .decend s (withError a .endOfStream) [] false 0#32) ∧
      (a.emitted ≠ a.total → a.cur ≠ a.root → Answers .decend s (withError a .corruptStream) [] false 0#32)) ∧
    (Inv s.arch → s.arch.phase = .ready →
      Answers .decend s (withError { s.arch with cur := s.arch.root, emitted := 0#32 } .endOfStream) [] false 0#32) ∧
    TurnedAway .decend [.ready, .dec] s

/-! ### Errors and phases -/

/-- 60_exceptions.md R147: a command in a phase, other than ERR, where 30_encoding.md R70 has a blank for it raises ProtocolError
and changes nothing else; there are 24 such pairings. -/
def Obligations.BlanksOfR70RaiseProtocolError : Prop :=
  ∀ (i : Instr) (s : State),
    (match i, s.arch.phase with
      | .cnt _, p | .build, p => p = .tree ∨ p = .ready ∨ p = .enc ∨ p = .dec
      | .derive, p => p = .count ∨ p = .ready ∨ p = .enc ∨ p = .dec
      | .enc _, p | .encend, p => p = .count ∨ p = .tree ∨ p = .dec
      | .dec _, p | .decend, p => p = .count ∨ p = .tree ∨ p = .enc
      | _, _ => False) →
    Answers i s (withError s.arch .protocolError) [] false 0#32

/-- 60_exceptions.md R153: in phase ERR the legal encodings of NOP and the reads execute, CLR executes and leaves the phase, and
every other word, legal or illegal, is refused with the recorded error. -/
def Obligations.ErrPhaseExecutesOnlyReadsAndClr : Prop :=
  ∀ (w : CmdWord) (s : State), s.arch.phase = .err →
    (∀ i, decode w = .ok i → readsOnly i = true → ∃ data, Gives (execWord w s) s s.arch [] true data) ∧
    (decode w = .ok .clr → Gives (execWord w s) s Arch.reset [] true 0#32) ∧
    ((∀ i, decode w = .ok i → readsOnly i = false ∧ i ≠ .clr) → Gives (execWord w s) s s.arch [] false 0#32)

/-- From phase ERR a step with CLR or `rst` restores the full reset state, and every other step leaves the whole block as it is, ERR
with it: the first error wins, and nothing of a failed session survives its end (60_exceptions.md R152, R153, R154; log entry 1:
that the host's events stand in a list, and that a step with none is the identity, is the model's choice). -/
def Obligations.FirstErrorStaysUntilReset : Prop :=
  let returns (e : HostEvent) : Prop := e = .word 0x1000#16 ∨ e = .reset ∨ ∃ w, e = .wordThenReset w
  ∀ s : State, s.arch.phase = .err →
    (∀ e rest, s.input = e :: rest → returns e → ∃ t, step s = .next t ∧ t.arch = Arch.reset) ∧
    ((∀ e rest, s.input = e :: rest → ¬ returns e) → ∃ t, step s = .next t ∧ t.arch = s.arch)

/-- 60_exceptions.md R150: a word that raises an error writes ERR and PHASE, answers `ok = 0`, the new ERR and data 0, its records
delivered before (only UnknownSymbol can have one, the held byte), and every other element keeps its value, but that UnknownSymbol
leaves the writer closed and DECEND in READY leaves its stream start. -/
def Obligations.ErrorEntryWritesOnlyPhaseAndErr : Prop :=
  ∀ (w : CmdWord) (s t : State), execWord w s = .next t → s.arch.phase ≠ .err → t.arch.phase = .err →
    t.arch.err ≠ .none ∧
    Gives (.next t) s t.arch
      (if t.arch.err = .unknownSymbol ∧ s.arch.phase = .enc ∧ s.arch.wcnt ≠ 0#3 then [⟨.cbyte, s.arch.wacc⟩] else [])
      false 0#32 ∧
    ((t.arch.err = .unknownSymbol ∧ (∃ x, decode w = .ok (.enc x)) ∧
        t.arch = withError { s.arch with wacc := 0#8, wcnt := 0#3 } .unknownSymbol) ∨
     (decode w = .ok .decend ∧ s.arch.phase = .ready ∧
        t.arch = withError { s.arch with cur := s.arch.root, emitted := 0#32 } t.arch.err) ∨
     (t.arch.err ≠ .unknownSymbol ∧ (decode w = .ok .decend → s.arch.phase ≠ .ready) ∧ t.arch = withError s.arch t.arch.err))

/-- 60_exceptions.md R141: no step produces NotFound or IOFailure. -/
def Obligations.CollaboratorErrorsAreNeverRaised : Prop :=
  ∀ s t : State, step s = .next t → t.arch.err = .notFound ∨ t.arch.err = .ioFailure → t.arch.err = s.arch.err

/-- 30_encoding.md R71: PHASE and ERR change only as the table of transitions says: by a command, by an illegal word, by reset. -/
def Obligations.PhaseTransitionsAreThoseOfR71 : Prop :=
  (∀ (i : Instr) (s t : State), Inv s.arch → i.wellFormed = true → exec i s = .next t →
    (t.arch.phase, t.arch.err) = transition i s.arch) ∧
  (∀ (w : CmdWord) (s t : State), IllegalWord w → execWord w s = .next t →
    t.arch.phase = .err ∧ t.arch.err = if s.arch.phase = .err then s.arch.err else .illegalCommand) ∧
  ∀ (s t : State) (e : HostEvent) (rest : List HostEvent), s.input = e :: rest → (e = .reset ∨ ∃ w, e = .wordThenReset w) →
    step s = .next t → t.arch.phase = .count ∧ t.arch.err = .none

/-- No word but CLR changes the tree, the code table or the counts in phases READY, ENC and DEC (20_memory.md R52). -/
def Obligations.TablesAreImmutableUnderStreams : Prop :=
  ∀ (w : CmdWord) (s t : State), execWord w s = .next t → w ≠ 0x1000#16 →
    s.arch.phase = .ready ∨ s.arch.phase = .enc ∨ s.arch.phase = .dec →
    t.arch.node = s.arch.node ∧ t.arch.nleaf = s.arch.nleaf ∧ t.arch.nnodes = s.arch.nnodes ∧ t.arch.root = s.arch.root ∧
    t.arch.code = s.arch.code ∧ t.arch.freq = s.arch.freq ∧ t.arch.total = s.arch.total

/-- The frame of every command but CLR, by the access table of 10_state.md R25: what the table does not let it write keeps its value
(PHASE and ERR apart, which every raise writes); the ports' other side and the free-value counter are untouched. -/
def Obligations.CommandsWriteOnlyTheirElements : Prop :=
  ∀ (i : Instr) (s t : State), exec i s = .next t → i ≠ .clr →
    t.input = s.input ∧ t.draws = s.draws ∧ s.delivered <+: t.delivered ∧
    ((∀ x, i ≠ .cnt x) → t.arch.total = s.arch.total ∧ t.arch.freq = s.arch.freq) ∧
    (i ≠ .build → t.arch.node = s.arch.node ∧ t.arch.nleaf = s.arch.nleaf ∧ t.arch.nnodes = s.arch.nnodes ∧
      t.arch.root = s.arch.root) ∧
    (i ≠ .derive → t.arch.code = s.arch.code) ∧
    ((∀ x, i ≠ .enc x) → i ≠ .encend → t.arch.wacc = s.arch.wacc ∧ t.arch.wcnt = s.arch.wcnt) ∧
    ((∀ b, i ≠ .dec b) → i ≠ .decend → t.arch.cur = s.arch.cur ∧ t.arch.emitted = s.arch.emitted) ∧
    (readsOnly i = true → i.wellFormed = true → t.arch = s.arch) ∧
    (t.arch.err ≠ s.arch.err → t.arch.phase = .err)

/-! ### Invariants -/

/-- The reset state meets the invariants (10_state.md R23, 70_reset_and_hazards.md R165). -/
def Obligations.InvariantsHoldAtReset : Prop :=
  Inv State.reset.arch

/-- 10_state.md R23: every step of a state that meets the ten invariants gives a state that meets them. -/
def Obligations.StepKeepsInvariants : Prop :=
  ∀ s t : State, Inv s.arch → step s = .next t → Inv t.arch

/-- Every step keeps the memories in the form of log entries 4 and 5, from every state that has it: FREQ and CODE canonical, NODE
exactly its NNODES valid entries (10_state.md R15, R16, R18). -/
def Obligations.StepKeepsMemoryForm : Prop :=
  ∀ s t : State, MemoriesOk s.arch → step s = .next t → MemoriesOk t.arch

/-! ### The whole codec -/

/-- 44_codec.md R127: for every non-empty input of at most CNTMAX symbols, counting it, building, deriving, encoding and closing,
and then decoding the bytes emitted, raises no error, every response has `ok = 1`, the decoded symbols are the input, and the
final phase is READY. -/
def Obligations.CodecRoundTrip : Prop :=
  ∀ xs : List Sym, xs ≠ [] → xs.length ≤ 4294967295 →
    ∃ t u : State,
      feed State.reset (xs.map .cnt ++ [.build, .derive] ++ xs.map .enc ++ [.encend]) = .next t ∧
      feed t ((bytesOn .cbyte t.delivered).map .dec ++ [.decend]) = .next u ∧
      AllOk u.delivered ∧ bytesOn .dsym u.delivered = xs ∧ u.arch.phase = .ready ∧ EndsWell u
end

