-- ==== Sys2Proof/Laws/Memory.lean ====
section
/-! SUPPORT. The laws of the indexed memories: a read after a write, the canonical form, and that two memories in canonical
form that read alike are the same data. -/

namespace Sys2Proof.Machine

variable {α : Type} [DecidableEq α] {d : α}

/-- Below its first index a memory in canonical form reads as the default. -/
theorem Memory.read_below {size lo : Nat} {m : Memory α} (h : Memory.wfFrom d size lo m = true) {i : Nat} (hi : i < lo) :
    Memory.read d m i = d := by
  induction m generalizing lo with
  | nil => rfl
  | cons e m ih =>
    obtain ⟨j, v⟩ := e
    simp only [Memory.wfFrom, Bool.and_eq_true, decide_eq_true_eq] at h
    simp only [Memory.read]
    rw [if_neg (by omega)]
    exact ih h.2 (by omega)

theorem Memory.read_put {m : Memory α} {i : Nat} {v : α} (h : Memory.read d m i = d) (k : Nat) :
    Memory.read d (Memory.put d m i v) k = if k = i then v else Memory.read d m k := by
  unfold Memory.put
  by_cases hv : v = d
  · subst hv
    by_cases hk : k = i
    · subst hk; simp [h]
    · simp [hk]
  · simp [hv, Memory.read]

/-- What a memory in canonical form reads as after a write. -/
theorem Memory.read_write {size lo : Nat} {m : Memory α} (h : Memory.wfFrom d size lo m = true) (i : Nat) (v : α) (k : Nat) :
    Memory.read d (Memory.write d m i v) k = if k = i then v else Memory.read d m k := by
  induction m generalizing lo with
  | nil => exact Memory.read_put rfl k
  | cons e m ih =>
    obtain ⟨j, u⟩ := e
    have h' := h
    simp only [Memory.wfFrom, Bool.and_eq_true, decide_eq_true_eq] at h'
    simp only [Memory.write]
    by_cases h1 : i < j
    · rw [if_pos h1]
      refine Memory.read_put ?_ k
      simp only [Memory.read]
      rw [if_neg (by omega)]
      exact Memory.read_below h'.2 (by omega)
    · by_cases h2 : i = j
      · subst h2
        rw [if_neg h1, if_pos rfl, Memory.read_put (Memory.read_below h'.2 (by omega))]
        by_cases hk : k = i <;> simp [Memory.read, hk]
      · rw [if_neg h1, if_neg h2]
        simp only [Memory.read]
        rw [ih h'.2]
        by_cases hk : k = j
        · subst hk
          rw [if_pos rfl, if_pos rfl, if_neg (by omega)]
        · rw [if_neg hk, if_neg hk]

theorem Memory.wfFrom_mono {size lo lo' : Nat} {m : Memory α} (h : Memory.wfFrom d size lo m = true) (hl : lo' ≤ lo) :
    Memory.wfFrom d size lo' m = true := by
  cases m with
  | nil => rfl
  | cons e m =>
    obtain ⟨j, v⟩ := e
    simp only [Memory.wfFrom, Bool.and_eq_true, decide_eq_true_eq] at h ⊢
    exact ⟨⟨⟨by omega, h.1.1.2⟩, h.1.2⟩, h.2⟩

theorem Memory.wfFrom_put {size lo i : Nat} {m : Memory α} (h : Memory.wfFrom d size (i + 1) m = true) (hlo : lo ≤ i)
    (hi : i < size) (v : α) : Memory.wfFrom d size lo (Memory.put d m i v) = true := by
  unfold Memory.put
  split
  · exact Memory.wfFrom_mono h (by omega)
  · simp only [Memory.wfFrom, Bool.and_eq_true, decide_eq_true_eq]
    exact ⟨⟨⟨hlo, hi⟩, by simpa using ‹¬ v = d›⟩, h⟩

/-- A write keeps the canonical form. -/
theorem Memory.wfFrom_write {size lo i : Nat} {m : Memory α} (h : Memory.wfFrom d size lo m = true) (hlo : lo ≤ i)
    (hi : i < size) (v : α) : Memory.wfFrom d size lo (Memory.write d m i v) = true := by
  induction m generalizing lo with
  | nil => exact Memory.wfFrom_put rfl hlo hi v
  | cons e m ih =>
    obtain ⟨j, u⟩ := e
    have h' := h
    simp only [Memory.wfFrom, Bool.and_eq_true, decide_eq_true_eq] at h'
    simp only [Memory.write]
    by_cases h1 : i < j
    · rw [if_pos h1]
      refine Memory.wfFrom_put ?_ hlo hi v
      simp only [Memory.wfFrom, Bool.and_eq_true, decide_eq_true_eq]
      exact ⟨⟨⟨by omega, h'.1.1.2⟩, h'.1.2⟩, h'.2⟩
    · by_cases h2 : i = j
      · subst h2
        rw [if_neg h1, if_pos rfl]
        exact Memory.wfFrom_put h'.2 hlo hi v
      · rw [if_neg h1, if_neg h2]
        simp only [Memory.wfFrom, Bool.and_eq_true, decide_eq_true_eq]
        exact ⟨⟨⟨h'.1.1.1, h'.1.1.2⟩, h'.1.2⟩, ih h'.2 (by omega)⟩

/-- A write inside a memory keeps its canonical form. -/
theorem Memory.wf_write {size i : Nat} {m : Memory α} (h : Memory.wf d size m = true) (hi : i < size) (v : α) :
    Memory.wf d size (Memory.write d m i v) = true :=
  Memory.wfFrom_write h (Nat.zero_le i) hi v

/-- Two memories in canonical form that read alike are the same data. -/
theorem Memory.ext_of_wfFrom {size lo : Nat} {m m' : Memory α} (h : Memory.wfFrom d size lo m = true)
    (h' : Memory.wfFrom d size lo m' = true) (hr : ∀ i, Memory.read d m i = Memory.read d m' i) : m = m' := by
  induction m generalizing lo m' with
  | nil =>
    cases m' with
    | nil => rfl
    | cons e m' =>
      obtain ⟨j, v⟩ := e
      simp only [Memory.wfFrom, Bool.and_eq_true, decide_eq_true_eq] at h'
      have := hr j
      simp [Memory.read] at this
      simp [this] at h'
  | cons e m ih =>
    obtain ⟨j, v⟩ := e
    have hm := h
    simp only [Memory.wfFrom, Bool.and_eq_true, decide_eq_true_eq] at hm
    cases m' with
    | nil =>
      have := hr j
      simp [Memory.read] at this
      simp [this] at hm
    | cons e' m' =>
      obtain ⟨j', v'⟩ := e'
      have hm' := h'
      simp only [Memory.wfFrom, Bool.and_eq_true, decide_eq_true_eq] at hm'
      have hj : j = j' := by
        have h1 := hr j
        have h2 := hr j'
        simp only [Memory.read] at h1 h2
        rcases Nat.lt_trichotomy j j' with hlt | heq | hgt
        · rw [if_pos trivial, if_neg (by omega), Memory.read_below hm'.2 (by omega)] at h1
          simp [h1] at hm
        · exact heq
        · rw [if_neg (by omega), if_pos trivial, Memory.read_below hm.2 (by omega)] at h2
          simp [← h2] at hm'
      subst hj
      have hv : v = v' := by simpa [Memory.read] using hr j
      subst hv
      have hrest : ∀ i, Memory.read d m i = Memory.read d m' i := by
        intro i
        by_cases hi : i < j + 1
        · rw [Memory.read_below hm.2 hi, Memory.read_below hm'.2 hi]
        · have := hr i
          simp only [Memory.read] at this
          rwa [if_neg (by omega), if_neg (by omega)] at this
      rw [ih hm.2 hm'.2 hrest]

/-- Two memories in canonical form that read alike are the same data. -/
theorem Memory.ext_of_wf {size : Nat} {m m' : Memory α} (h : Memory.wf d size m = true) (h' : Memory.wf d size m' = true)
    (hr : ∀ i, Memory.read d m i = Memory.read d m' i) : m = m' :=
  Memory.ext_of_wfFrom h h' hr

/-- Outside its size a memory in canonical form reads as the default. -/
theorem Memory.read_outside {size lo : Nat} {m : Memory α} (h : Memory.wfFrom d size lo m = true) {i : Nat} (hi : size ≤ i) :
    Memory.read d m i = d := by
  induction m generalizing lo with
  | nil => rfl
  | cons e m ih =>
    obtain ⟨j, v⟩ := e
    simp only [Memory.wfFrom, Bool.and_eq_true, decide_eq_true_eq] at h
    simp only [Memory.read]
    rw [if_neg (by omega)]
    exact ih h.2

/-- `FREQ[y]` after `FREQ[x] <- v`. -/
theorem Arch.freqAt_setFreq {a : Arch} (h : Memory.wf freqDefault Config.nsym a.freq = true) (x y : Sym) (v : Count) :
    (a.setFreq x v).freqAt y = if y = x then v else a.freqAt y := by
  simp only [Arch.freqAt, Arch.setFreq, Memory.read_write h, BitVec.toNat_inj]

/-- `CODE[y]` after `CODE[x] <- e`. -/
theorem Arch.codeAt_setCode {a : Arch} (h : Memory.wf codeDefault Config.nsym a.code = true) (x y : Sym) (e : CodeEntry) :
    (a.setCode x e).codeAt y = if y = x then e else a.codeAt y := by
  simp only [Arch.codeAt, Arch.setCode, Memory.read_write h, BitVec.toNat_inj]

/-- A write of FREQ keeps its canonical form. -/
theorem Arch.wf_setFreq {a : Arch} (h : Memory.wf freqDefault Config.nsym a.freq = true) (x : Sym) (v : Count) :
    Memory.wf freqDefault Config.nsym (a.setFreq x v).freq = true :=
  Memory.wf_write h x.isLt v

/-- A write of CODE keeps its canonical form. -/
theorem Arch.wf_setCode {a : Arch} (h : Memory.wf codeDefault Config.nsym a.code = true) (x : Sym) (e : CodeEntry) :
    Memory.wf codeDefault Config.nsym (a.setCode x e).code = true :=
  Memory.wf_write h x.isLt e

end Sys2Proof.Machine
end

