-- ==== Sys2Proof/Laws/State.lean ====
section
/-! SUPPORT. What each named update of a record leaves in each field: one lemma for each, true by rfl. -/

namespace Sys2Proof.Machine

/-! ### Writes of the memories -/

@[simp] theorem Arch.setFreq_phase (a : Arch) (x : Sym) (v : Count) : (a.setFreq x v).phase = a.phase := rfl

@[simp] theorem Arch.setFreq_err (a : Arch) (x : Sym) (v : Count) : (a.setFreq x v).err = a.err := rfl

@[simp] theorem Arch.setFreq_total (a : Arch) (x : Sym) (v : Count) : (a.setFreq x v).total = a.total := rfl

@[simp] theorem Arch.setFreq_node (a : Arch) (x : Sym) (v : Count) : (a.setFreq x v).node = a.node := rfl

@[simp] theorem Arch.setFreq_nleaf (a : Arch) (x : Sym) (v : Count) : (a.setFreq x v).nleaf = a.nleaf := rfl

@[simp] theorem Arch.setFreq_nnodes (a : Arch) (x : Sym) (v : Count) : (a.setFreq x v).nnodes = a.nnodes := rfl

@[simp] theorem Arch.setFreq_root (a : Arch) (x : Sym) (v : Count) : (a.setFreq x v).root = a.root := rfl

@[simp] theorem Arch.setFreq_code (a : Arch) (x : Sym) (v : Count) : (a.setFreq x v).code = a.code := rfl

@[simp] theorem Arch.setFreq_wacc (a : Arch) (x : Sym) (v : Count) : (a.setFreq x v).wacc = a.wacc := rfl

@[simp] theorem Arch.setFreq_wcnt (a : Arch) (x : Sym) (v : Count) : (a.setFreq x v).wcnt = a.wcnt := rfl

@[simp] theorem Arch.setFreq_cur (a : Arch) (x : Sym) (v : Count) : (a.setFreq x v).cur = a.cur := rfl

@[simp] theorem Arch.setFreq_emitted (a : Arch) (x : Sym) (v : Count) : (a.setFreq x v).emitted = a.emitted := rfl

@[simp] theorem Arch.setCode_phase (a : Arch) (x : Sym) (e : CodeEntry) : (a.setCode x e).phase = a.phase := rfl

@[simp] theorem Arch.setCode_err (a : Arch) (x : Sym) (e : CodeEntry) : (a.setCode x e).err = a.err := rfl

@[simp] theorem Arch.setCode_total (a : Arch) (x : Sym) (e : CodeEntry) : (a.setCode x e).total = a.total := rfl

@[simp] theorem Arch.setCode_freq (a : Arch) (x : Sym) (e : CodeEntry) : (a.setCode x e).freq = a.freq := rfl

@[simp] theorem Arch.setCode_node (a : Arch) (x : Sym) (e : CodeEntry) : (a.setCode x e).node = a.node := rfl

@[simp] theorem Arch.setCode_nleaf (a : Arch) (x : Sym) (e : CodeEntry) : (a.setCode x e).nleaf = a.nleaf := rfl

@[simp] theorem Arch.setCode_nnodes (a : Arch) (x : Sym) (e : CodeEntry) : (a.setCode x e).nnodes = a.nnodes := rfl

@[simp] theorem Arch.setCode_root (a : Arch) (x : Sym) (e : CodeEntry) : (a.setCode x e).root = a.root := rfl

@[simp] theorem Arch.setCode_wacc (a : Arch) (x : Sym) (e : CodeEntry) : (a.setCode x e).wacc = a.wacc := rfl

@[simp] theorem Arch.setCode_wcnt (a : Arch) (x : Sym) (e : CodeEntry) : (a.setCode x e).wcnt = a.wcnt := rfl

@[simp] theorem Arch.setCode_cur (a : Arch) (x : Sym) (e : CodeEntry) : (a.setCode x e).cur = a.cur := rfl

@[simp] theorem Arch.setCode_emitted (a : Arch) (x : Sym) (e : CodeEntry) : (a.setCode x e).emitted = a.emitted := rfl

/-! ### A command in execution -/

@[simp] theorem start_arch (a : Arch) : (start a).arch = a := rfl

@[simp] theorem start_outs (a : Arch) : (start a).outs = [] := rfl

@[simp] theorem emit_arch (s : Stream) (b : BitVec 8) (c : Busy) : (emit s b c).arch = c.arch := rfl

@[simp] theorem emit_outs (s : Stream) (b : BitVec 8) (c : Busy) : (emit s b c).outs = c.outs ++ [⟨s, b⟩] := rfl

@[simp] theorem respond_arch (d : BitVec 32) (c : Busy) : (respond d c).arch = c.arch := rfl

@[simp] theorem respond_outs (d : BitVec 32) (c : Busy) : (respond d c).outs = c.outs := rfl

@[simp] theorem respond_ok (d : BitVec 32) (c : Busy) : (respond d c).ok = true := rfl

@[simp] theorem respond_data (d : BitVec 32) (c : Busy) : (respond d c).data = d := rfl

@[simp] theorem raise_arch (e : ErrorCode) (c : Busy) : (raise e c).arch = { c.arch with err := e, phase := .err } := rfl

@[simp] theorem raise_outs (e : ErrorCode) (c : Busy) : (raise e c).outs = c.outs := rfl

@[simp] theorem raise_ok (e : ErrorCode) (c : Busy) : (raise e c).ok = false := rfl

@[simp] theorem raise_data (e : ErrorCode) (c : Busy) : (raise e c).data = 0#32 := rfl

@[simp] theorem refuse_arch (a : Arch) : (refuse a).arch = a := rfl

@[simp] theorem refuse_outs (a : Arch) : (refuse a).outs = [] := rfl

@[simp] theorem refuse_ok (a : Arch) : (refuse a).ok = false := rfl

@[simp] theorem refuse_data (a : Arch) : (refuse a).data = 0#32 := rfl

@[simp] theorem clearAll_eq (a : Arch) : clearAll a = Arch.reset := rfl

/-! ### Delivery, reset and the command port -/

@[simp] theorem State.deliver_arch (s : State) (e : Effect) : (s.deliver e).arch = e.arch := rfl

@[simp] theorem State.deliver_input (s : State) (e : Effect) : (s.deliver e).input = s.input := rfl

@[simp] theorem State.deliver_delivered (s : State) (e : Effect) :
    (s.deliver e).delivered = s.delivered ++ e.outs.map .record ++ [.response e.response] := rfl

@[simp] theorem State.deliver_draws (s : State) (e : Effect) : (s.deliver e).draws = s.draws := rfl

@[simp] theorem State.hardReset_arch (s : State) : s.hardReset.arch = Arch.reset := rfl

@[simp] theorem State.hardReset_input (s : State) : s.hardReset.input = s.input := rfl

@[simp] theorem State.hardReset_delivered (s : State) : s.hardReset.delivered = s.delivered := rfl

@[simp] theorem State.hardReset_draws (s : State) : s.hardReset.draws = s.draws := rfl

@[simp] theorem State.abandon_arch (s : State) (d : Host.Outcome State Fault Refusal) : (s.abandon d).arch = Arch.reset := rfl

@[simp] theorem State.abandon_input (s : State) (d : Host.Outcome State Fault Refusal) : (s.abandon d).input = s.input := rfl

@[simp] theorem State.abandon_draws (s : State) (d : Host.Outcome State Fault Refusal) :
    (s.abandon d).draws = s.draws + 1 := rfl

@[simp] theorem present_arch (w : CmdWord) (s : State) : (present w s).arch = s.arch := rfl

@[simp] theorem present_input (w : CmdWord) (s : State) : (present w s).input = .word w :: s.input := rfl

@[simp] theorem present_delivered (w : CmdWord) (s : State) : (present w s).delivered = s.delivered := rfl

@[simp] theorem present_draws (w : CmdWord) (s : State) : (present w s).draws = s.draws := rfl

end Sys2Proof.Machine
end

