-- ==== Sys2Proof/Laws/Ops.lean ====
section
/-! SUPPORT. What each shared operation can do, said once: the checks before a rule, delivery, one step; code vectors; the
order of the forest; the walk of DERIVE; the bit writer; one decoder step. -/

namespace Sys2Proof.Machine

/-! ### The checks and delivery -/

/-- The three ways the checks can end, in the order of 30_encoding.md R68. -/
theorem checked_cases (i : Instr) (rule : Arch → Result) (a : Arch) :
    (legalIn i a.phase = true ∧ checked i rule a = rule a) ∨
    (legalIn i a.phase = false ∧ a.phase = .err ∧ checked i rule a = .next (refuse a)) ∨
    (legalIn i a.phase = false ∧ a.phase ≠ .err ∧ checked i rule a = .next (raise .protocolError (start a))) := by
  unfold checked
  cases h : legalIn i a.phase
  · by_cases he : a.phase = .err <;> simp [he]
  · simp

theorem checked_of_legal {i : Instr} {a : Arch} (h : legalIn i a.phase = true) (rule : Arch → Result) :
    checked i rule a = rule a := by
  simp [checked, h]

/-- A command's next state is its effect, delivered. -/
theorem command_next {i : Instr} {rule : Arch → Result} {s t : State} (h : command i rule s = .next t) :
    ∃ e, checked i rule s.arch = .next e ∧ t = s.deliver e := by
  unfold command finish at h
  split at h
  · next e he => exact ⟨e, he, by simpa using h.symm⟩
  · cases h
  · cases h

theorem command_of_next {i : Instr} {rule : Arch → Result} {s : State} {e : Effect} (h : checked i rule s.arch = .next e) :
    command i rule s = .next (s.deliver e) := by
  simp [command, finish, h]

/-- Each command's own rule, without the checks. -/
def ruleOf : Instr → Arch → Result
  | .nop => fun a => .next (respond 0#32 (start a))
  | .clr => fun a => .next (respond 0#32 (start (clearAll a)))
  | .cnt x => countRule x
  | .build => buildRule
  | .derive => deriveRule
  | .enc x => encodeRule x
  | .encend => encodeEndRule
  | .dec b => decodeRule b
  | .decend => decodeEndRule
  | .rdr reg => readout fun a => registerView a reg
  | .rdf x => readout fun a => some (a.freqAt x)
  | .rdl x => readout fun a => some (lengthView (a.codeAt x))
  | .rdc x word => readout fun a => some (vectorView (a.codeAt x) word)
  | .rdn idx field => readout fun a => nodeView a idx field

/-- Every command is its rule behind the checks. -/
theorem exec_eq_command (i : Instr) (s : State) : exec i s = command i (ruleOf i) s := by
  cases i <;> rfl

/-- A command's next state is an effect, delivered. -/
theorem exec_next {i : Instr} {s t : State} (h : exec i s = .next t) :
    ∃ e, checked i (ruleOf i) s.arch = .next e ∧ t = s.deliver e := by
  rw [exec_eq_command] at h
  exact command_next h

/-- A read answers, and changes nothing but by raising IllegalCommand. -/
theorem readout_next (view : Arch → Option (BitVec 32)) (a : Arch) :
    (∃ v, view a = some v ∧ readout view a = .next (respond v (start a))) ∨
    (view a = none ∧ readout view a = .next (illegal a)) := by
  unfold readout
  cases view a <;> simp

/-- Only DERIVE's rule can stop, and only with the fault of its depth. -/
theorem ruleOf_stops (i : Instr) (a : Arch) :
    (∃ e, ruleOf i a = .next e) ∨
    (i = .derive ∧ visit a.node Config.codeLenMax a.root [] = none ∧ ruleOf i a = .fault .codeDepthExceeded) := by
  cases i
  case derive =>
    simp only [ruleOf, deriveRule]
    cases visit a.node Config.codeLenMax a.root [] <;> simp
  case rdr reg => rcases readout_next (fun a => registerView a reg) a with ⟨v, -, h⟩ | ⟨-, h⟩ <;> exact .inl ⟨_, h⟩
  case rdn idx field => rcases readout_next (fun a => nodeView a idx field) a with ⟨v, -, h⟩ | ⟨-, h⟩ <;> exact .inl ⟨_, h⟩
  case cnt x => left; simp only [ruleOf, countRule]; split <;> exact ⟨_, rfl⟩
  case build => left; simp only [ruleOf, buildRule]; split <;> exact ⟨_, rfl⟩
  case enc x => left; simp only [ruleOf, encodeRule]; split <;> exact ⟨_, rfl⟩
  case decend => left; simp only [ruleOf, decodeEndRule]; (repeat' split) <;> exact ⟨_, rfl⟩
  all_goals exact .inl ⟨_, rfl⟩

/-- A command answers a next state, or is DERIVE in phase TREE over an arena that is too deep. -/
theorem exec_answers (i : Instr) (s : State) :
    (∃ e, exec i s = .next (s.deliver e)) ∨
    (i = .derive ∧ s.arch.phase = .tree ∧ visit s.arch.node Config.codeLenMax s.arch.root [] = none ∧
      exec i s = .fault .codeDepthExceeded) := by
  rw [exec_eq_command]
  rcases checked_cases i (ruleOf i) s.arch with ⟨hl, h⟩ | ⟨-, -, h⟩ | ⟨-, -, h⟩
  · rcases ruleOf_stops i s.arch with ⟨e, he⟩ | ⟨rfl, hv, hf⟩
    · exact .inl ⟨e, command_of_next (h.trans he)⟩
    · refine .inr ⟨rfl, ?_, hv, ?_⟩
      · simpa [legalIn, legalPhases] using hl
      · simp [command, finish, h, hf]
  · exact .inl ⟨_, command_of_next h⟩
  · exact .inl ⟨_, command_of_next h⟩

/-- What one step can do. -/
theorem step_cases {s t : State} (h : step s = .next t) :
    (s.input = [] ∧ t = s) ∨
    (∃ w rest, s.input = .word w :: rest ∧ execWord w { s with input := rest } = .next t) ∨
    (∃ rest, s.input = .reset :: rest ∧ t = State.hardReset { s with input := rest }) ∨
    (∃ w rest, s.input = .wordThenReset w :: rest ∧
      t = State.abandon { s with input := rest } (execWord w { s with input := rest })) := by
  unfold step takeNext at h
  split at h
  · next hi => exact .inl ⟨hi, by simpa using h.symm⟩
  · next e rest hi =>
    cases e with
    | word w => exact .inr (.inl ⟨w, rest, hi, h⟩)
    | reset => exact .inr (.inr (.inl ⟨rest, hi, by simpa [takeEvent] using h.symm⟩))
    | wordThenReset w => exact .inr (.inr (.inr ⟨w, rest, hi, by simpa [takeEvent] using h.symm⟩))

/-- What a command word can do: its command, or the effect of an illegal word. -/
theorem execWord_cases (w : CmdWord) (s : State) :
    (∃ i, decode w = .ok i ∧ execWord w s = exec i s) ∨
    (∃ r, decode w = .error r ∧ execWord w s = .next (s.deliver (illegal s.arch))) := by
  unfold execWord
  cases decode w <;> simp

/-! ### Code vectors -/

/-- The bits of a packed path (43_code_table.md R106): `p[i]` at `vec[255 - i]`, every other bit 0. -/
theorem pack_getMsbD (p : Bits) {n : Nat} (hn : n < 256) : (pack p).getMsbD n = p.getD n false := by
  induction p generalizing n with
  | nil => simp [pack]
  | cons b p ih =>
    rw [pack, BitVec.getMsbD_or, BitVec.getMsbD_ushiftRight]
    cases n with
    | zero => cases b <;> simp [BitVec.getMsbD_eq_getLsbD]
    | succ n =>
      rw [Nat.add_sub_cancel, ih (by omega)]
      cases b <;> simp [BitVec.getMsbD_eq_getLsbD, hn]
      omega

/-- A recorded path is read back whole, if it fits. -/
theorem path_ofPath {p : Bits} (h : p.length ≤ Config.codeLenMax) : (CodeEntry.ofPath p).path = p := by
  have hl : p.length % 256 = p.length := Nat.mod_eq_of_lt (by simp [Config.codeLenMax] at h; omega)
  apply List.ext_getElem
  · simp [CodeEntry.path, CodeEntry.ofPath, hl]
  · intro n h1 h2
    have h3 : n < 256 := by simp [Config.codeLenMax] at h; omega
    simp [CodeEntry.path, CodeEntry.ofPath, pack_getMsbD p h3, h2]

/-! ### The order of the forest -/

/-- The model's order is the one of 42_tree_build.md R98. -/
theorem comesBefore_iff (ns : List Node) (i j : Nat) : comesBefore ns i j = true ↔ PriorTo ns i j := by
  simp [comesBefore, PriorTo, BitVec.lt_def]

theorem PriorTo.trans {ns : List Node} {i j k : Nat} (h : PriorTo ns i j) (h' : PriorTo ns j k) : PriorTo ns i k := by
  unfold PriorTo at *
  rcases h with h | ⟨h, hi⟩ <;> rcases h' with h' | ⟨h', hj⟩
  · exact .inl (by omega)
  · exact .inl (h' ▸ h)
  · exact .inl (h ▸ h')
  · exact .inr ⟨h.trans h', by omega⟩

theorem PriorTo.total {ns : List Node} {i j : Nat} (h : i ≠ j) (hn : ¬ PriorTo ns i j) : PriorTo ns j i := by
  unfold PriorTo at *
  rcases Nat.lt_trichotomy (nodeAt ns i).weight.toNat (nodeAt ns j).weight.toNat with hw | hw | hw
  · exact absurd (.inl hw) hn
  · have hw' := BitVec.eq_of_toNat_eq hw
    exact .inr ⟨hw'.symm, by
      by_contra hc
      exact hn (.inr ⟨hw', by omega⟩)⟩
  · exact .inl hw

theorem leastRoot_eq_none {ns : List Node} {forest : List Nat} : leastRoot ns forest = none ↔ forest = [] := by
  cases forest with
  | nil => simp [leastRoot]
  | cons i rest =>
    simp only [leastRoot]
    cases leastRoot ns rest with
    | none => simp
    | some j => simp only []; split <;> simp

/-- `argmin` (42_tree_build.md R97, R98): a root, and every other root comes after it. -/
theorem leastRoot_spec {ns : List Node} {forest : List Nat} {m : Nat} (h : leastRoot ns forest = some m) :
    m ∈ forest ∧ ∀ i ∈ forest, i ≠ m → PriorTo ns m i := by
  induction forest generalizing m with
  | nil => simp [leastRoot] at h
  | cons i rest ih =>
    simp only [leastRoot] at h
    cases hr : leastRoot ns rest with
    | none =>
      rw [hr] at h
      rw [leastRoot_eq_none] at hr
      subst hr
      simp at h
      simp [h]
    | some j =>
      rw [hr] at h
      obtain ⟨hj, hmin⟩ := ih hr
      simp only [] at h
      split at h
      · next hb =>
        cases h
        rw [comesBefore_iff] at hb
        refine ⟨by simp, fun k hk hne => ?_⟩
        rcases List.mem_cons.1 hk with rfl | hk
        · exact absurd rfl hne
        · by_cases hkj : k = j
          · exact hkj ▸ hb
          · exact hb.trans (hmin k hk hkj)
      · next hb =>
        cases h
        rw [comesBefore_iff] at hb
        refine ⟨by simp [hj], fun k hk hne => ?_⟩
        rcases List.mem_cons.1 hk with rfl | hk
        · exact PriorTo.total hne hb
        · exact hmin k hk hne

/-! ### The walk of DERIVE -/

/-- `visit` records a leaf once for each path that leads to it from where it starts. -/
theorem visit_mem {ns : List Node} {depth : Nat} {i : NodeIdx} {p : Bits} {rs : List (Sym × Bits)}
    (h : visit ns depth i p = some rs) (x : Sym) (q : Bits) :
    (x, q) ∈ rs ↔ ∃ r j, q = p ++ r ∧ walk ns i r = some j ∧ (nodeAt ns j.toNat).leaf = true ∧ (nodeAt ns j.toNat).sym = x := by
  induction depth generalizing i p rs with
  | zero =>
    rw [visit] at h
    by_cases hl : (nodeAt ns i.toNat).leaf = true
    · simp only [hl, if_true, Option.some.injEq] at h
      subst h
      constructor
      · intro hm
        simp at hm
        exact ⟨[], i, by simp [hm.2], rfl, hl, hm.1.symm⟩
      · rintro ⟨r, j, rfl, hw, -, rfl⟩
        cases r with
        | nil => simp [walk] at hw; simp [hw]
        | cons b r => simp [walk, hl] at hw
    · simp [hl] at h
  | succ depth ih =>
    rw [visit] at h
    by_cases hl : (nodeAt ns i.toNat).leaf = true
    · simp only [hl, if_true, Option.some.injEq] at h
      subst h
      constructor
      · intro hm
        simp at hm
        exact ⟨[], i, by simp [hm.2], rfl, hl, hm.1.symm⟩
      · rintro ⟨r, j, rfl, hw, -, rfl⟩
        cases r with
        | nil => simp [walk] at hw; simp [hw]
        | cons b r => simp [walk, hl] at hw
    · simp only [hl, Bool.false_eq_true, if_false] at h
      split at h
      · next l r hL hR =>
        simp only [Option.some.injEq] at h
        subst h
        rw [List.mem_append, ih hL, ih hR]
        constructor
        · rintro (⟨t, j, rfl, hw, hj, hs⟩ | ⟨t, j, rfl, hw, hj, hs⟩)
          · exact ⟨false :: t, j, by simp, by simpa [walk, hl] using hw, hj, hs⟩
          · exact ⟨true :: t, j, by simp, by simpa [walk, hl] using hw, hj, hs⟩
        · rintro ⟨t, j, rfl, hw, hj, hs⟩
          cases t with
          | nil =>
            simp [walk] at hw
            subst hw
            exact absurd hj hl
          | cons b t =>
            cases b
            · exact .inl ⟨t, j, by simp, by simpa [walk, hl] using hw, hj, hs⟩
            · exact .inr ⟨t, j, by simp, by simpa [walk, hl] using hw, hj, hs⟩
      · cases h

/-- A walk goes on where another ends. -/
theorem walk_append (ns : List Node) (i : NodeIdx) (p q : Bits) :
    walk ns i (p ++ q) = (walk ns i p).bind fun j => walk ns j q := by
  induction p generalizing i with
  | nil => rfl
  | cons b p ih =>
    simp only [List.cons_append, walk]
    split
    · rfl
    · exact ih _

/-! ### The bit writer -/

/-- Where a written bit lands (40_bitstream.md R82): at place `WCNT`, and the other bits stay. -/
theorem writeBit_acc : ∀ (w : BitVec 8) (n : BitVec 3) (b : Bool), (∀ i < 8, n.toNat ≤ i → w.getMsbD i = false) →
    ∀ i < 8, (w ||| ((BitVec.ofBool b).zeroExtend 8 <<< (7 - n.toNat))).getMsbD i =
      if i = n.toNat then b else w.getMsbD i := by
  decide +kernel

/-- Only the writer's registers change. -/
theorem writeBit_arch (c : Busy) (b : Bool) :
    ∃ w n, (writeBit c b).arch = { c.arch with wacc := w, wcnt := n } := by
  unfold writeBit
  dsimp only
  split <;> exact ⟨_, _, rfl⟩

/-- The bits held and the bytes sent are exactly the bits written, in order (40_bitstream.md R82, R84). -/
theorem writeBit_bits (c : Busy) (b : Bool) (h : WriterClean c.arch) :
    WriterClean (writeBit c b).arch ∧
    ∃ bs : List (BitVec 8), (writeBit c b).outs = c.outs ++ bs.map (OutRecord.mk .cbyte) ∧
      unpack bs ++ heldBits (writeBit c b).arch = heldBits c.arch ++ [b] := by
  have hacc := writeBit_acc c.arch.wacc c.arch.wcnt b fun i _ hi => h i hi
  have hlt : c.arch.wcnt.toNat < 8 := c.arch.wcnt.isLt
  have hheld : (List.range (c.arch.wcnt.toNat + 1)).map
      (c.arch.wacc ||| ((BitVec.ofBool b).zeroExtend 8 <<< (7 - c.arch.wcnt.toNat))).getMsbD =
      heldBits c.arch ++ [b] := by
    rw [List.range_succ, List.map_append, heldBits]
    congr 1
    · refine List.map_congr_left fun i hi => ?_
      have hi' := List.mem_range.1 hi
      rw [hacc i (by omega), if_neg (by omega)]
    · simp [hacc _ hlt]
  by_cases h7 : c.arch.wcnt = 7#3
  · simp only [writeBit, h7, if_true]
    rw [h7] at hheld
    refine ⟨by simp [WriterClean],
      [c.arch.wacc ||| ((BitVec.ofBool b).zeroExtend 8 <<< (7 - (7#3).toNat))], by simp, ?_⟩
    rw [← hheld]
    simp [unpack, bitsOfByte, heldBits]
  · have h7' : c.arch.wcnt.toNat ≠ 7 := fun hc => h7 (BitVec.eq_of_toNat_eq hc)
    have hn : (c.arch.wcnt + 1#3).toNat = c.arch.wcnt.toNat + 1 := by
      rw [BitVec.toNat_add]
      simp
      omega
    simp only [writeBit, h7, if_false]
    refine ⟨fun i hi => ?_, [], by simp, ?_⟩
    · simp only [hn] at hi
      by_cases hi8 : i < 8
      · rw [hacc i hi8, if_neg (by omega)]
        exact h i (by omega)
      · exact BitVec.getMsbD_of_ge _ _ (by omega)
    · rw [← hheld]
      simp only [unpack, List.flatMap_nil, List.nil_append, heldBits, hn]

/-- The same for a whole bit sequence (40_bitstream.md R84). -/
theorem writeBits_bits (q : Bits) (c : Busy) (h : WriterClean c.arch) :
    WriterClean (q.foldl writeBit c).arch ∧
    (∃ w n, (q.foldl writeBit c).arch = { c.arch with wacc := w, wcnt := n }) ∧
    ∃ bs : List (BitVec 8), (q.foldl writeBit c).outs = c.outs ++ bs.map (OutRecord.mk .cbyte) ∧
      unpack bs ++ heldBits (q.foldl writeBit c).arch = heldBits c.arch ++ q := by
  induction q generalizing c with
  | nil => exact ⟨h, ⟨_, _, rfl⟩, [], by simp, by simp [unpack]⟩
  | cons b q ih =>
    obtain ⟨h1, bs, ho, hb⟩ := writeBit_bits c b h
    obtain ⟨w, n, ha⟩ := writeBit_arch c b
    obtain ⟨h2, ⟨w', n', ha'⟩, bs', ho', hb'⟩ := ih (writeBit c b) h1
    refine ⟨h2, ⟨w', n', by rw [List.foldl_cons, ha', ha]⟩, bs ++ bs', by simp [ho', ho], ?_⟩
    rw [List.foldl_cons, unpack, List.flatMap_append, List.append_assoc]
    change unpack bs ++ (unpack bs' ++ _) = _
    rw [hb', ← List.append_assoc, hb]
    simp

/-- What closing the writer does (40_bitstream.md R83). -/
theorem closeWriter_eq (c : Busy) :
    closeWriter c =
      { arch := { c.arch with wacc := 0#8, wcnt := 0#3 }
        outs := c.outs ++ if c.arch.wcnt = 0#3 then [] else [⟨.cbyte, c.arch.wacc⟩] } := by
  unfold closeWriter
  dsimp only
  split <;> simp [emit]

/-! ### One decoder step -/

/-- The four things a decoder step can do, in the order of 44_codec.md R121. -/
theorem decodeBit_cases (c : Busy) (b : Bool) :
    (c.arch.emitted = c.arch.total ∧ decodeBit c b = c) ∨
    (c.arch.emitted ≠ c.arch.total ∧ (c.arch.nodeAt c.arch.root).leaf = true ∧
      decodeBit c b =
        { arch := { c.arch with emitted := c.arch.emitted + 1#32 }
          outs := c.outs ++ [⟨.dsym, (c.arch.nodeAt c.arch.root).sym⟩] }) ∨
    (c.arch.emitted ≠ c.arch.total ∧ (c.arch.nodeAt c.arch.root).leaf = false ∧
      ∃ n, n = (if b then (c.arch.nodeAt c.arch.cur).right else (c.arch.nodeAt c.arch.cur).left) ∧
        (((c.arch.nodeAt n).leaf = true ∧
          decodeBit c b =
            { arch := { c.arch with cur := c.arch.root, emitted := c.arch.emitted + 1#32 }
              outs := c.outs ++ [⟨.dsym, (c.arch.nodeAt n).sym⟩] }) ∨
         ((c.arch.nodeAt n).leaf = false ∧ decodeBit c b = { c with arch := { c.arch with cur := n } }))) := by
  by_cases he : c.arch.emitted = c.arch.total
  · exact .inl ⟨he, by simp [decodeBit, allEmitted, he]⟩
  · cases hl : (c.arch.nodeAt c.arch.root).leaf
    · refine .inr (.inr ⟨he, rfl, _, rfl, ?_⟩)
      cases hn : (c.arch.nodeAt (if b then (c.arch.nodeAt c.arch.cur).right else (c.arch.nodeAt c.arch.cur).left)).leaf
      · exact .inr ⟨rfl, by simp [decodeBit, allEmitted, he, hl, hn]⟩
      · exact .inl ⟨rfl, by simp [decodeBit, allEmitted, he, hl, hn, emitSymbol, emit]⟩
    · exact .inr (.inl ⟨he, rfl, by simp [decodeBit, allEmitted, he, hl, emitSymbol, emit]⟩)

/-- A decoder step writes only CUR and EMITTED. -/
theorem decodeBit_arch (c : Busy) (b : Bool) :
    ∃ i n, (decodeBit c b).arch = { c.arch with cur := i, emitted := n } := by
  rcases decodeBit_cases c b with ⟨-, h⟩ | ⟨-, -, h⟩ | ⟨-, -, n, -, ⟨-, h⟩ | ⟨-, h⟩⟩ <;> rw [h] <;> exact ⟨_, _, rfl⟩

/-! ### The reduction of BUILD -/

/-- The reduction writes entries behind those that exist and changes none (42_tree_build.md R97, 10_state.md R16). -/
theorem mergeRoots_prefix (fuel : Nat) (ns : List Node) (forest : List Nat) : ns <+: mergeRoots fuel ns forest := by
  induction fuel generalizing ns forest with
  | zero => exact List.prefix_rfl
  | succ fuel ih =>
    rw [mergeRoots]
    split
    · exact List.prefix_rfl
    · split
      · exact List.prefix_rfl
      · exact (List.prefix_append _ _).trans (ih _ _)

/-- Each merge takes one root away, so `k` roots take `k - 1` merges (42_tree_build.md R100). -/
theorem mergeRoots_length (fuel : Nat) (ns : List Node) (forest : List Nat) (h : forest.length ≤ fuel) :
    (mergeRoots fuel ns forest).length = ns.length + (forest.length - 1) := by
  induction fuel generalizing ns forest with
  | zero => simp [mergeRoots, Nat.le_zero.1 h]
  | succ fuel ih =>
    rw [mergeRoots]
    cases h1 : leastRoot ns forest with
    | none => simp [leastRoot_eq_none.1 h1]
    | some first =>
      have hm1 := (leastRoot_spec h1).1
      have hl1 := List.length_erase_of_mem hm1
      have hpos := List.length_pos_of_mem hm1
      cases h2 : leastRoot ns (forest.erase first) with
      | none =>
        have := congrArg List.length (leastRoot_eq_none.1 h2)
        simp only [h2, List.length_nil] at this ⊢
        omega
      | some second =>
        have hm2 := (leastRoot_spec h2).1
        have hl2 := List.length_erase_of_mem hm2
        have hpos2 := List.length_pos_of_mem hm2
        simp only [h2]
        rw [ih]
        · simp only [List.length_append, List.length_singleton]
          omega
        · simp only [List.length_append, List.length_singleton]
          omega

end Sys2Proof.Machine
end

