-- ==== Sys2Proof/Laws/PerInstr.lean ====
section
/-! SUPPORT. For each command: its word, built from the formats of 30_encoding.md R61, matches its row of R66. -/

namespace Sys2Proof.Laws.RowMatch

/-- The encoded word agrees with the row of R66 that bears the command's mnemonic. -/
def Statement (i : Instr) : Prop :=
  ∃ row ∈ opcodeRows, row.mnemonic = i.mnemonic ∧ encode i &&& row.mask = row.pattern

theorem nop : Statement .nop := ⟨⟨"NOP", 0x0000#16, 0xFFFF#16⟩, by decide, rfl, by decide⟩

theorem clr : Statement .clr := ⟨⟨"CLR", 0x1000#16, 0xFFFF#16⟩, by decide, rfl, by decide⟩

theorem cnt (x : Sym) : Statement (.cnt x) :=
  ⟨⟨"CNT", 0x2000#16, 0xFF00#16⟩, by decide, rfl, by revert x; decide +kernel⟩

theorem build : Statement .build := ⟨⟨"BUILD", 0x3000#16, 0xFFFF#16⟩, by decide, rfl, by decide⟩

theorem derive : Statement .derive := ⟨⟨"DERIVE", 0x4000#16, 0xFFFF#16⟩, by decide, rfl, by decide⟩

theorem enc (x : Sym) : Statement (.enc x) :=
  ⟨⟨"ENC", 0x5000#16, 0xFF00#16⟩, by decide, rfl, by revert x; decide +kernel⟩

theorem encend : Statement .encend := ⟨⟨"ENCEND", 0x6000#16, 0xFFFF#16⟩, by decide, rfl, by decide⟩

theorem dec (b : BitVec 8) : Statement (.dec b) :=
  ⟨⟨"DEC", 0x7000#16, 0xFF00#16⟩, by decide, rfl, by revert b; decide +kernel⟩

theorem decend : Statement .decend := ⟨⟨"DECEND", 0x8000#16, 0xFFFF#16⟩, by decide, rfl, by decide⟩

theorem rdr (reg : BitVec 4) : Statement (.rdr reg) :=
  ⟨⟨"RDR", 0x9000#16, 0xFFF0#16⟩, by decide, rfl, by revert reg; decide +kernel⟩

theorem rdf (x : Sym) : Statement (.rdf x) :=
  ⟨⟨"RDF", 0xA000#16, 0xFF00#16⟩, by decide, rfl, by revert x; decide +kernel⟩

theorem rdl (x : Sym) : Statement (.rdl x) :=
  ⟨⟨"RDL", 0xB000#16, 0xFF00#16⟩, by decide, rfl, by revert x; decide +kernel⟩

theorem rdc (x : Sym) (word : BitVec 3) : Statement (.rdc x word) :=
  ⟨⟨"RDC", 0xC000#16, 0xF800#16⟩, by decide, rfl, by revert x word; decide +kernel⟩

theorem rdn (idx : NodeIdx) (field : BitVec 2) : Statement (.rdn idx field) :=
  ⟨⟨"RDN", 0xD000#16, 0xF800#16⟩, by decide, rfl, by revert idx field; decide +kernel⟩

end Sys2Proof.Laws.RowMatch
end

