-- ==== Sys2Proof/Tests/Slice0.lean ====
section
/-! SUPPORT. Tests with expected results from spec/95_test_vectors.md (T, P and W numbers) or worked by hand from a rule, and for
each obligation with hypotheses a witness that meets them. -/

namespace Sys2Proof.Tests

open Sys2Proof.Machine

/-! ### Well-formedness: one ill-formed term for each check (30_encoding.md R67 (c), (d)) -/

theorem test_wf_rdr_refuses_7 : (Instr.rdr 7#4).wellFormed = false ∧ (Instr.rdr 15#4).wellFormed = false ∧
    (Instr.rdr 6#4).wellFormed = true := by decide

theorem test_wf_rdn_refuses_field_3 : (Instr.rdn 0#9 3#2).wellFormed = false ∧ (Instr.rdn 511#9 2#2).wellFormed = true := by
  decide

/-! ### Decoding: each command's word written out bit by bit (30_encoding.md R61, R65), and illegal words (T86 to T95) -/

theorem test_decode_nop : decode 0b0000000000000000#16 = .ok .nop := by decide
theorem test_decode_clr : decode 0b0001000000000000#16 = .ok .clr := by decide
theorem test_decode_cnt : decode 0b0010000001100001#16 = .ok (.cnt 0x61#8) := by decide
theorem test_decode_build : decode 0b0011000000000000#16 = .ok .build := by decide
theorem test_decode_derive : decode 0b0100000000000000#16 = .ok .derive := by decide
theorem test_decode_enc : decode 0b0101000001111010#16 = .ok (.enc 0x7A#8) := by decide
theorem test_decode_encend : decode 0b0110000000000000#16 = .ok .encend := by decide
theorem test_decode_dec : decode 0b0111000011011100#16 = .ok (.dec 0xDC#8) := by decide
theorem test_decode_decend : decode 0b1000000000000000#16 = .ok .decend := by decide
theorem test_decode_rdr : decode 0b1001000000000101#16 = .ok (.rdr 5#4) := by decide
theorem test_decode_rdf : decode 0b1010000011111111#16 = .ok (.rdf 0xFF#8) := by decide
theorem test_decode_rdl : decode 0b1011000010000001#16 = .ok (.rdl 0x81#8) := by decide
/-- `word = w[10:8] = 0b101`, `sym = 0b00000011`: unequal fields, so that swapped ones would show. -/
theorem test_decode_rdc : decode 0b1100010100000011#16 = .ok (.rdc 0x03#8 5#3) := by decide
/-- `field = w[10:9] = 0b01`, `idx = w[8:0] = 0b100000010`. -/
theorem test_decode_rdn : decode 0b1101001100000010#16 = .ok (.rdn 258#9 1#2) := by decide

/-- The legal words at the edges (T95). -/
theorem test_decode_edges : decode 0x20FF#16 = .ok (.cnt 0xFF#8) ∧ decode 0x9006#16 = .ok (.rdr 6#4) ∧
    decode 0xC7FF#16 = .ok (.rdc 0xFF#8 7#3) ∧ decode 0xD5FF#16 = .ok (.rdn 511#9 2#2) ∧
    decode 0xD1FF#16 = .ok (.rdn 511#9 0#2) := by decide

/-- The illegal words of T86 to T94. -/
theorem test_decode_illegal :
    ([0xE000, 0xEFFF, 0xF000, 0xFFFF, 0x0001, 0x0800, 0x1001, 0x3001, 0x4100, 0x6010, 0x8FFF, 0x2161, 0x5861, 0x7100, 0xA100,
      0xB800, 0x9010, 0x9100, 0x9007, 0x900F, 0xC800, 0xCFFF, 0xD800, 0xDFFF, 0xD600, 0xD7FF] : List Nat).all
      (fun w => (decodeTableWord 16 w).isNone) = true := by decide

/-! ### States of the vectors -/

/-- The state after an outcome, if it is a next state. -/
def after (o : Host.Outcome State Fault Refusal) : Option State :=
  match o with
  | .next t => some t
  | .fault _ => none
  | .refused _ => none

/-- The machine with the block `a`, nothing pending and nothing delivered. -/
def withArch (a : Arch) : State := { State.reset with arch := a }

/-- The records and the response word of the commands in a run, as numbers: a record's 9 bits, a response's 40. -/
def seen (o : Host.Outcome State Fault Refusal) : List Nat :=
  match after o with
  | none => []
  | some t => t.delivered.map fun d => match d with
    | .record r => r.bits.toNat
    | .response r => r.bits.toNat

/-- The block with "abracadabra" counted (41_frequency.md R93), in phase COUNT. -/
def abraCounted : Arch :=
  { Arch.reset with
    total := 11#32
    freq := [(0x61, 5#32), (0x62, 2#32), (0x63, 1#32), (0x64, 1#32), (0x72, 2#32)] }

/-- The arena of T30 (42_tree_build.md R103 (a)). -/
def abraArena : List Node :=
  [⟨true, 0x61#8, 5#32, 0#9, 0#9⟩, ⟨true, 0x62#8, 2#32, 0#9, 0#9⟩, ⟨true, 0x63#8, 1#32, 0#9, 0#9⟩,
   ⟨true, 0x64#8, 1#32, 0#9, 0#9⟩, ⟨true, 0x72#8, 2#32, 0#9, 0#9⟩, ⟨false, 0#8, 2#32, 2#9, 3#9⟩, ⟨false, 0#8, 4#32, 1#9, 4#9⟩,
   ⟨false, 0#8, 6#32, 5#9, 6#9⟩, ⟨false, 0#8, 11#32, 0#9, 7#9⟩]

/-- The block with the tree of T30, in phase TREE. -/
def abraTree : Arch :=
  { abraCounted with node := abraArena, nleaf := 5#9, nnodes := 9#10, root := 8#9, phase := .tree }

/-- A code whose vector's top byte is `top`, the rest 0. -/
def shortCode (len : BitVec 8) (top : BitVec 8) : CodeEntry := ⟨true, len, top ++ 0#248⟩

/-- The block with the table of T30c, in phase READY. -/
def abraReady : Arch :=
  { abraTree with
    code := [(0x61, shortCode 1#8 0x00#8), (0x62, shortCode 3#8 0xC0#8), (0x63, shortCode 3#8 0x80#8),
      (0x64, shortCode 3#8 0xA0#8), (0x72, shortCode 3#8 0xE0#8)]
    phase := .ready }

/-- The block of T50: "ab" encoded. -/
def abraEnc : Arch := { abraReady with phase := .enc, wacc := 0x60#8, wcnt := 4#3 }

/-- The block of T59: one byte decoded. -/
def abraDec : Arch := { abraReady with phase := .dec, cur := 8#9, emitted := 4#32 }

/-! ### One step for each command -/

/-- T18: CNT at one below CNTMAX. -/
theorem test_cnt_up_to_max :
    (after (exec (.cnt 0x62#8) (withArch { Arch.reset with total := 0xFFFFFFFE#32, freq := [(0x61, 0xFFFFFFFE#32)] }))).map
      (fun t => (t.arch.total, t.arch.freq, t.arch.phase)) =
    some (0xFFFFFFFF#32, [(0x61, 0xFFFFFFFE#32), (0x62, 1#32)], .count) := by decide

/-- T19: CountOverflow, FREQ and TOTAL unchanged. -/
theorem test_cnt_overflow :
    (after (exec (.cnt 0x61#8) (withArch { Arch.reset with total := 0xFFFFFFFF#32, freq := [(0x61, 0xFFFFFFFF#32)] }))).map
      (fun t => (t.arch.total, t.arch.freq, t.arch.phase, t.arch.err)) =
    some (0xFFFFFFFF#32, [(0x61, 0xFFFFFFFF#32)], .err, .countOverflow) := by decide

/-- T30: ties between leaves and an internal node of the same weight. -/
theorem test_build_abracadabra : (after (exec .build (withArch abraCounted))).map (fun t => t.arch) = some abraTree := by
  decide +kernel

/-- T36: the largest weight, the heavier leaf on the right though its index is smaller. -/
theorem test_build_largest_weight :
    (after (exec .build (withArch { Arch.reset with
      total := 0xFFFFFFFF#32, freq := [(0x61, 0xFFFFFFFE#32), (0x62, 1#32)] }))).map (fun t => (t.arch.node, t.arch.root)) =
    some ([⟨true, 0x61#8, 0xFFFFFFFE#32, 0#9, 0#9⟩, ⟨true, 0x62#8, 1#32, 0#9, 0#9⟩, ⟨false, 0#8, 0xFFFFFFFF#32, 1#9, 0#9⟩],
      2#9) := by decide +kernel

/-- T30c: the codes of "abracadabra". -/
theorem test_derive_abracadabra : (after (exec .derive (withArch abraTree))).map (fun t => t.arch) = some abraReady := by
  decide +kernel

/-- T38: the single leaf's override. -/
theorem test_derive_single_leaf :
    (after (exec .derive (withArch { Arch.reset with
      phase := .tree, total := 4#32, freq := [(0x61, 4#32)], node := [⟨true, 0x61#8, 4#32, 0#9, 0#9⟩], nleaf := 1#9,
      nnodes := 1#10 }))).map (fun t => t.arch.code) = some [(0x61, shortCode 1#8 0x80#8)] := by decide +kernel

/-- T52: a code that fills the byte, after T51. -/
theorem test_enc_fills_the_byte :
    seen (exec (.enc 0x61#8) (withArch { abraEnc with wacc := 0x6E#8, wcnt := 7#3 })) = [0x06E, 0xB000000000] := by
  decide +kernel

/-- T54: an unknown symbol flushes the held bits first. -/
theorem test_enc_unknown_symbol : seen (exec (.enc 0x7A#8) (withArch abraEnc)) = [0x060, 0x7600000000] := by decide +kernel

/-- P1, command 25: the last byte, with one bit of padding. -/
theorem test_encend_pads :
    seen (exec .encend (withArch { abraEnc with wacc := 0xDC#8, wcnt := 7#3 })) = [0x0DC, 0xA000000000] := by decide +kernel

/-- T56: a stream of no symbols is no bytes. -/
theorem test_encend_empty : seen (exec .encend (withArch abraReady)) = [0xA000000000] := by decide +kernel

/-- T64: the byte ends inside a code. -/
theorem test_dec_ends_inside_a_code :
    (after (exec (.dec 0x8B#8) (withArch abraDec))).map (fun t => (t.arch.cur, t.arch.emitted)) = some (7#9, 7#32) ∧
    seen (exec (.dec 0x8B#8) (withArch abraDec)) = [0x163, 0x161, 0x164, 0xC000000000] := by decide +kernel

/-- T61: the padding bit is discarded at the eleventh symbol. -/
theorem test_dec_stops_at_total :
    seen (exec (.dec 0xDC#8) (withArch { abraDec with emitted := 8#32 })) = [0x162, 0x172, 0x161, 0xC000000000] := by
  decide +kernel

/-- T66: DECEND in READY writes its stream start and raises EndOfStream. -/
theorem test_decend_of_nothing :
    (after (exec .decend (withArch { abraReady with cur := 3#9, emitted := 5#32 }))).map
      (fun t => (t.arch.cur, t.arch.emitted, t.arch.err)) = some (8#9, 0#32, .endOfStream) := by decide

/-- T65: CorruptStream inside a code. -/
theorem test_decend_inside_a_code : seen (exec .decend (withArch { abraDec with cur := 7#9, emitted := 7#32 })) =
    [0x7500000000] := by decide

/-- T101: NOP in phase ERR. -/
theorem test_nop_in_err : seen (exec .nop (withArch { Arch.reset with phase := .err, err := .emptyInput })) = [0xF300000000] := by
  decide

/-- T85: CLR drops the held bits. -/
theorem test_clr_drops_held_bits : (after (exec .clr (withArch abraEnc))).map (fun t => t.arch) = some State.reset.arch ∧
    seen (exec .clr (withArch abraEnc)) = [0x8000000000] := by decide

/-- T53: the STATUS view. -/
theorem test_rdr_status : seen (exec (.rdr 0#4) (withArch abraEnc)) = [0xB000600403] := by decide

/-- T100: a register that does not exist, in phase ERR. -/
theorem test_rdr_illegal_in_err : seen (exec (.rdr 7#4) (withArch { Arch.reset with phase := .err, err := .illegalCommand })) =
    [0x7900000000] := by decide

/-- T103: the tables stay readable in phase ERR. -/
theorem test_rdf_in_err :
    seen (exec (.rdf 0x61#8) (withArch { Arch.reset with
      phase := .err, err := .illegalCommand, total := 1#32, freq := [(0x61, 1#32)] })) = [0xF900000001] := by decide

/-- T30c: RDL 'r' and RDL 'z'. -/
theorem test_rdl_lengths : seen (exec (.rdl 0x72#8) (withArch abraReady)) = [0xA080000003] ∧
    seen (exec (.rdl 0x7A#8) (withArch abraReady)) = [0xA000000000] := by decide

/-- T30c: RDC 'r', 0 and RDC 'b', 7. -/
theorem test_rdc_words : seen (exec (.rdc 0x72#8 0#3) (withArch abraReady)) = [0xA0E0000000] ∧
    seen (exec (.rdc 0x62#8 7#3) (withArch abraReady)) = [0xA000000000] := by decide +kernel

/-- T80, T81: KIND of a leaf, WEIGHT of the root. -/
theorem test_rdn_kind_weight : seen (exec (.rdn 4#9 0#2) (withArch abraReady)) = [0xA0C0000072] ∧
    seen (exec (.rdn 8#9 1#2) (withArch abraReady)) = [0xA00000000B] := by decide

/-- T82, T83: LINKS, and a node that does not exist. -/
theorem test_rdn_links_outside : seen (exec (.rdn 7#9 2#2) (withArch abraReady)) = [0xA000050006] ∧
    seen (exec (.rdn 511#9 0#2) (withArch abraReady)) = [0xA000000000] := by decide

/-! ### The port -/

/-- T96: an illegal word in a phase where nothing would be legal reports IllegalCommand. -/
theorem test_illegal_word : seen (step (present 0xE000#16 (withArch abraTree))) = [0x7900000000] := by decide

/-- T99: an illegal word in phase ERR is refused and ERR stays. -/
theorem test_illegal_word_in_err :
    seen (step (present 0xFFFF#16 (withArch { Arch.reset with phase := .err, err := .emptyInput }))) = [0x7300000000] := by decide

/-- T97: ProtocolError before UnknownSymbol. -/
theorem test_protocol_before_own_error : seen (step (present 0x507A#16 (withArch abraDec))) = [0x7800000000] := by decide

/-- T73: a protocol error in an open encode stream keeps the held bits. -/
theorem test_protocol_error_keeps_writer :
    (after (step (present 0x7000#16 (withArch abraEnc)))).map (fun t => (t.arch.wacc, t.arch.wcnt, t.arch.err)) =
    some (0x60#8, 4#3, .protocolError) := by decide

/-- R166: `rst` during ENC leaves the reset state, no response, and at most the one record of T52. -/
theorem test_reset_during_enc :
    (after (step { withArch { abraEnc with wacc := 0x6E#8, wcnt := 7#3 } with input := [.wordThenReset 0x5061#16] })).map
      (fun t => (t.arch, t.delivered)) =
    some (Arch.reset, ([Delivery.record ⟨.cbyte, 0x6E#8⟩]).take (Config.abandonedRecords 0)) := by rfl

/-! ### Witnesses: states that meet the invariants -/

/-- A block with the two-leaf tree of "ab" (T27); the rest as given. -/
def abArch (p : Phase) (e : ErrorCode) (code : Memory CodeEntry) (wacc : BitVec 8) (wcnt : BitVec 3) (cur : NodeIdx)
    (emitted : Count) : Arch :=
  { phase := p, err := e, total := 2#32, freq := [(0x61, 1#32), (0x62, 1#32)]
    node := [⟨true, 0x61#8, 1#32, 0#9, 0#9⟩, ⟨true, 0x62#8, 1#32, 0#9, 0#9⟩, ⟨false, 0#8, 2#32, 0#9, 1#9⟩]
    nleaf := 2#9, nnodes := 3#10, root := 2#9, code := code, wacc := wacc, wcnt := wcnt, cur := cur, emitted := emitted }

/-- The code table of "ab" (T39). -/
def abCode : Memory CodeEntry := [(0x61, shortCode 1#8 0x00#8), (0x62, shortCode 1#8 0x80#8)]

/-- A block with the single leaf of "aaaa" (T26); the rest as given. -/
def aArch (p : Phase) (code : Memory CodeEntry) (cur : NodeIdx) (emitted : Count) : Arch :=
  { phase := p, err := .none, total := 4#32, freq := [(0x61, 4#32)], node := [⟨true, 0x61#8, 4#32, 0#9, 0#9⟩]
    nleaf := 1#9, nnodes := 1#10, root := 0#9, code := code, wacc := 0#8, wcnt := 0#3, cur := cur, emitted := emitted }

/-- The code table of "aaaa" (T38). -/
def aCode : Memory CodeEntry := [(0x61, shortCode 1#8 0x80#8)]

section Witnesses

variable (p : Phase) (e : ErrorCode) (code : Memory CodeEntry) (wacc : BitVec 8) (wcnt : BitVec 3) (cur : NodeIdx)
  (emitted : Count)

theorem ab_distinct : distinctSyms (abArch p e code wacc wcnt cur emitted) = [0x61#8, 0x62#8] := by
  have h : allSyms.filter (fun x => Memory.read freqDefault [(0x61, 1#32), (0x62, 1#32)] x.toNat ≠ 0#32) = [0x61#8, 0x62#8] := by
    decide +kernel
  exact h

theorem ab_freqSum : freqSum (abArch p e code wacc wcnt cur emitted) = 2 := by
  have h : (allSyms.map fun x => (Memory.read freqDefault [(0x61, 1#32), (0x62, 1#32)] x.toNat).toNat).sum = 2 := by
    decide +kernel
  exact h

theorem ab_tree : TreeOk (abArch p e code wacc wcnt cur emitted) where
  someSym := by simp [ab_distinct]
  nleaf := by rw [ab_distinct]; rfl
  nnodes := by rw [ab_distinct]; rfl
  root := by rw [ab_distinct]; rfl
  leaf i x h := by
    rw [ab_distinct] at h
    match i with
    | 0 => simp at h; subst h; rfl
    | 1 => simp at h; subst h; rfl
    | n + 2 => simp at h
  inner i h1 h2 := by
    rw [ab_distinct] at h1
    have : i = 2 := by simp [abArch] at h1 h2; omega
    subst this
    simp only [abArch, Arch.nodeAt, nodeAt]
    decide
  oneParent j hj := by
    rw [ab_distinct]
    have hc : ∀ i, 2 ≤ i → i < 3 → i = 2 := fun i _ _ => by omega
    have hj' : j = 0 ∨ j = 1 := by simp [abArch] at hj; omega
    refine ⟨2, ⟨by simp, by simp [abArch], ?_⟩, fun i hi => hc i hi.1 hi.2.1⟩
    rcases hj' with rfl | rfl <;> simp only [ChildOf, abArch, nodeAt] <;> decide
  rootWeight := rfl
  weights i h1 h2 := by
    rw [ab_distinct] at h1
    simp [abArch] at h1 h2
    omega

theorem ab_codes : CodesOk (abArch p e abCode wacc wcnt cur emitted) := by
  have h : ∀ x : Sym, x = 0x61#8 ∨ x = 0x62#8 ∨
      (Memory.read freqDefault [(0x61, 1#32), (0x62, 1#32)] x.toNat = 0#32 ∧ Memory.read codeDefault abCode x.toNat = codeDefault) := by
    decide +kernel
  intro x
  rcases h x with rfl | rfl | ⟨hf, hc⟩
  · rw [if_neg (by simp [Arch.freqAt, abArch, Memory.read])]
    refine ⟨[false], ?_, by simp only [abArch, Arch.codeAt]; decide +kernel⟩
    simp only [IsCode, abArch]
    exact ⟨0#9, rfl, rfl, rfl⟩
  · rw [if_neg (by simp [Arch.freqAt, abArch, Memory.read])]
    refine ⟨[true], ?_, by simp only [abArch, Arch.codeAt]; decide +kernel⟩
    simp only [IsCode, abArch]
    exact ⟨1#9, rfl, rfl, rfl⟩
  · have hf' : (abArch p e abCode wacc wcnt cur emitted).freqAt x = 0#32 := hf
    rw [if_pos hf']
    exact hc

/-- The two-leaf block in a phase after DERIVE meets the invariants. -/
theorem ab_inv (hp : (p = .ready ∧ e = .none) ∨ (p = .enc ∧ e = .none) ∨ (p = .dec ∧ e = .none) ∨ (p = .err ∧ e = .protocolError))
    (hw : ∀ n, wcnt.toNat ≤ n → wacc.getMsbD n = false) (hi : p ≠ .enc → p ≠ .err → wcnt = 0#3 ∧ wacc = 0#8)
    (he : emitted.toNat ≤ 2) (hc : cur = 2#9) : Inv (abArch p e abCode wacc wcnt cur emitted) where
  memories := ⟨by simp only [abArch]; decide, by simp only [abArch]; decide +kernel, rfl⟩
  total := (ab_freqSum p e abCode wacc wcnt cur emitted).symm
  errPhase := by rcases hp with ⟨rfl, rfl⟩ | ⟨rfl, rfl⟩ | ⟨rfl, rfl⟩ | ⟨rfl, rfl⟩ <;> simp [abArch]
  errRaised := by rcases hp with ⟨rfl, rfl⟩ | ⟨rfl, rfl⟩ | ⟨rfl, rfl⟩ | ⟨rfl, rfl⟩ <;> simp [abArch]
  noTree := by simp [abArch]
  countPhase := by rcases hp with ⟨rfl, rfl⟩ | ⟨rfl, rfl⟩ | ⟨rfl, rfl⟩ | ⟨rfl, rfl⟩ <;> simp [abArch]
  treePhases := by simp [abArch]
  tree _ := ab_tree p e abCode wacc wcnt cur emitted
  codes _ := ab_codes p e wacc wcnt cur emitted
  noCodes := by rcases hp with ⟨rfl, rfl⟩ | ⟨rfl, rfl⟩ | ⟨rfl, rfl⟩ | ⟨rfl, rfl⟩ <;> simp [abArch]
  codesInErr _ := .inr ⟨by simp [abArch], ab_codes p e wacc wcnt cur emitted⟩
  writer := hw
  writerIdle := hi
  emitted := he
  cursor _ := by subst hc; exact ⟨by simp [abArch], .inl rfl⟩

/-- The two-leaf block in phase TREE meets the invariants. -/
theorem ab_tree_inv : Inv (abArch .tree .none [] 0#8 0#3 0#9 0#32) where
  memories := ⟨by decide, by decide, rfl⟩
  total := (ab_freqSum ..).symm
  errPhase := by simp [abArch]
  errRaised := by simp [abArch]
  noTree := by simp [abArch]
  countPhase := by simp [abArch]
  treePhases := by simp [abArch]
  tree _ := ab_tree ..
  codes := by simp [abArch]
  noCodes _ _ := rfl
  codesInErr := by simp [abArch]
  writer := by simp [WriterClean, abArch]
  writerIdle := by simp [abArch]
  emitted := by simp [abArch]
  cursor := by simp [abArch]

theorem a_distinct : distinctSyms (aArch p code cur emitted) = [0x61#8] := by
  have h : allSyms.filter (fun x => Memory.read freqDefault [(0x61, 4#32)] x.toNat ≠ 0#32) = [0x61#8] := by decide +kernel
  exact h

theorem a_freqSum : freqSum (aArch p code cur emitted) = 4 := by
  have h : (allSyms.map fun x => (Memory.read freqDefault [(0x61, 4#32)] x.toNat).toNat).sum = 4 := by decide +kernel
  exact h

theorem a_tree : TreeOk (aArch p code cur emitted) where
  someSym := by simp [a_distinct]
  nleaf := by rw [a_distinct]; rfl
  nnodes := by rw [a_distinct]; rfl
  root := by rw [a_distinct]; rfl
  leaf i x h := by
    rw [a_distinct] at h
    match i with
    | 0 => simp at h; subst h; rfl
    | n + 1 => simp at h
  inner i h1 h2 := by
    rw [a_distinct] at h1
    simp [aArch] at h1 h2
    omega
  oneParent j hj := by simp [aArch] at hj
  rootWeight := rfl
  weights i h1 h2 := by simp [aArch] at h2

theorem a_codes : CodesOk (aArch p aCode cur emitted) := by
  have h : ∀ x : Sym, x = 0x61#8 ∨
      (Memory.read freqDefault [(0x61, 4#32)] x.toNat = 0#32 ∧ Memory.read codeDefault aCode x.toNat = codeDefault) := by
    decide +kernel
  intro x
  rcases h x with rfl | ⟨hf, hc⟩
  · rw [if_neg (by simp [Arch.freqAt, aArch, Memory.read])]
    exact ⟨[true], ⟨rfl, rfl⟩, by simp only [aArch, Arch.codeAt]; decide +kernel⟩
  · have hf' : (aArch p aCode cur emitted).freqAt x = 0#32 := hf
    rw [if_pos hf']
    exact hc

/-- The single-leaf block in phase TREE, with no codes, or in READY or DEC, with its code, meets the invariants. -/
theorem a_inv (hp : (p = .tree ∧ code = []) ∨ ((p = .ready ∨ p = .dec) ∧ code = aCode)) (he : emitted.toNat ≤ 4) (hc : cur = 0#9) :
    Inv (aArch p code cur emitted) where
  memories := ⟨by simp only [aArch]; decide, by
    rcases hp with ⟨-, rfl⟩ | ⟨-, rfl⟩
    · simp only [aArch]; decide
    · simp only [aArch]; decide +kernel, rfl⟩
  total := (a_freqSum p code cur emitted).symm
  errPhase := by rcases hp with ⟨rfl, -⟩ | ⟨rfl | rfl, -⟩ <;> simp [aArch]
  errRaised := by simp [aArch]
  noTree := by simp [aArch]
  countPhase := by rcases hp with ⟨rfl, -⟩ | ⟨rfl | rfl, -⟩ <;> simp [aArch]
  treePhases := by simp [aArch]
  tree _ := a_tree p code cur emitted
  codes h := by
    rcases hp with ⟨rfl, -⟩ | ⟨-, rfl⟩
    · simp [aArch] at h
    · exact a_codes p cur emitted
  noCodes h := by
    rcases hp with ⟨-, rfl⟩ | ⟨rfl | rfl, -⟩
    · exact fun _ => rfl
    · simp [aArch] at h
    · simp [aArch] at h
  codesInErr h := by rcases hp with ⟨rfl, -⟩ | ⟨rfl | rfl, -⟩ <;> simp [aArch] at h
  writer := by simp [WriterClean, aArch]
  writerIdle := by simp [aArch]
  emitted := he
  cursor _ := by subst hc; exact ⟨by simp [aArch], .inl rfl⟩

end Witnesses

/-- A block in phase COUNT with `n` times 'a' counted. -/
def countedA (n : Count) : Arch := { Arch.reset with total := n, freq := [(0x61, n)] }

theorem countedA_distinct : distinctSyms (countedA 4#32) = [0x61#8] := by
  have h : allSyms.filter (fun x => Memory.read freqDefault [(0x61, 4#32)] x.toNat ≠ 0#32) = [0x61#8] := by decide +kernel
  exact h

/-- Blocks in phase COUNT meet the invariants. -/
theorem count_inv (a : Arch) (f : Memory Count) (n : Count) (ha : a = { Arch.reset with freq := f, total := n })
    (hf : Memory.wf freqDefault Config.nsym f = true)
    (hn : n.toNat = (allSyms.map fun x => (Memory.read freqDefault f x.toNat).toNat).sum) : Inv a := by
  subst ha
  exact
    { memories := ⟨hf, rfl, rfl⟩
      total := hn
      errPhase := by simp [Arch.reset]
      errRaised := by simp [Arch.reset]
      noTree := fun _ => ⟨rfl, rfl, fun _ => rfl⟩
      countPhase := fun _ => rfl
      treePhases := by simp [Arch.reset]
      tree := fun h => absurd rfl h
      codes := by simp [Arch.reset]
      noCodes := by simp [Arch.reset]
      codesInErr := by simp [Arch.reset]
      writer := by simp [WriterClean, Arch.reset]
      writerIdle := fun _ _ => ⟨rfl, rfl⟩
      emitted := by simp [Arch.reset]
      cursor := by simp [Arch.reset] }

theorem countedA_inv : Inv (countedA 4#32) := count_inv _ [(0x61, 4#32)] 4#32 rfl (by decide) (by decide +kernel)

theorem empty_inv : Inv Arch.reset := count_inv _ [] 0#32 rfl rfl (by decide +kernel)

theorem ab_ready_inv : Inv (abArch .ready .none abCode 0#8 0#3 2#9 0#32) :=
  ab_inv _ _ _ _ _ _ (.inl ⟨rfl, rfl⟩) (by simp) (fun _ _ => ⟨rfl, rfl⟩) (by decide) rfl

theorem ab_enc_inv : Inv (abArch .enc .none abCode 0x80#8 1#3 2#9 0#32) := by
  refine ab_inv _ _ _ _ _ _ (.inr (.inl ⟨rfl, rfl⟩)) (fun n hn => ?_) (fun h => absurd rfl h) (by decide) rfl
  by_cases h8 : n < 8
  · have h : ∀ n < 8, 1 ≤ n → (0x80#8).getMsbD n = false := by decide
    exact h n h8 hn
  · exact BitVec.getMsbD_of_ge _ _ (by omega)

theorem ab_dec_inv : Inv (abArch .dec .none abCode 0#8 0#3 2#9 0#32) :=
  ab_inv _ _ _ _ _ _ (.inr (.inr (.inl ⟨rfl, rfl⟩))) (by simp) (fun _ _ => ⟨rfl, rfl⟩) (by decide) rfl

theorem ab_err_inv : Inv (abArch .err .protocolError abCode 0#8 0#3 2#9 0#32) :=
  ab_inv _ _ _ _ _ _ (.inr (.inr (.inr ⟨rfl, rfl⟩))) (by simp) (fun _ h => absurd rfl h) (by decide) rfl

/-- The machine with "ab" derived, no stream open. -/
def abReady : State := withArch (abArch .ready .none abCode 0#8 0#3 2#9 0#32)

/-- The machine with an encode stream of "ab" open and one bit held. -/
def abEnc : State := withArch (abArch .enc .none abCode 0x80#8 1#3 2#9 0#32)

/-- The machine with a decode stream of "ab" open. -/
def abDec : State := withArch (abArch .dec .none abCode 0#8 0#3 2#9 0#32)

/-- The machine with "ab" built. -/
def abTree : State := withArch (abArch .tree .none [] 0#8 0#3 0#9 0#32)

/-- The machine in phase ERR. -/
def abErr : State := withArch (abArch .err .protocolError abCode 0#8 0#3 2#9 0#32)

/-! ### Witnesses: the hypotheses of each obligation -/

theorem witness_DecodeOfEncodeIsSameCommand :
    (Instr.rdr 6#4).wellFormed = true ∧ (Instr.rdn 511#9 2#2).wellFormed = true ∧ (Instr.cnt 0xFF#8).wellFormed = true := by decide

theorem witness_EncodeOfDecodeIsSameWord : decode 0xD5FF#16 = .ok (.rdn 511#9 2#2) := by decide

/-- A word for each clause of R67, at its edge; legal words next to them; both kinds of phase. -/
theorem witness_IllegalWordsAreExactlyR67 :
    IllegalWord 0xE000#16 ∧ IllegalWord 0xFFFF#16 ∧ IllegalWord 0x0001#16 ∧ IllegalWord 0x2100#16 ∧ IllegalWord 0x9010#16 ∧
    IllegalWord 0xC800#16 ∧ IllegalWord 0x9007#16 ∧ IllegalWord 0xD600#16 ∧ ¬ IllegalWord 0x9006#16 ∧ ¬ IllegalWord 0xD5FF#16 ∧
    ¬ IllegalWord 0xC7FF#16 ∧ abReady.arch.phase ≠ .err ∧ abErr.arch.phase = .err := by
  simp [IllegalWord, abReady, abErr, withArch, abArch]

theorem witness_RowsOfR66SelectCommands :
    ((⟨"RDR", 0x9000#16, 0xFFF0#16⟩ : OpcodeRow) ∈ opcodeRows ∧ 0x9006#16 &&& 0xFFF0#16 = 0x9000#16) ∧
    ∀ row ∈ opcodeRows, 0xC800#16 &&& row.mask ≠ row.pattern := by decide

/-- A word that decodes; an illegal word outside and in phase ERR; nothing pending. -/
theorem witness_StepRunsDecodedCommand :
    ((present 0xD5FF#16 abErr).input = .word 0xD5FF#16 :: [] ∧ decode 0xD5FF#16 = .ok (.rdn 511#9 2#2)) ∧
    ((present 0xD7FF#16 abEnc).input = .word 0xD7FF#16 :: [] ∧ IllegalWord 0xD7FF#16 ∧ (present 0xD7FF#16 abEnc).arch.phase ≠ .err) ∧
    ((present 0x9007#16 abErr).input = .word 0x9007#16 :: [] ∧ IllegalWord 0x9007#16 ∧ (present 0x9007#16 abErr).arch.phase = .err) ∧
    abErr.input = [] :=
  ⟨by decide, ⟨rfl, by simp [IllegalWord], by decide⟩, ⟨rfl, by simp [IllegalWord], rfl⟩, rfl⟩

theorem witness_ResetAndClrGiveResetValues : ({ abEnc with input := [.reset] } : State).input = .reset :: [] := rfl

/-- An abandoned ENC that has a record to lose. -/
theorem witness_AbandonedCommandLeavesOnlySomeRecords :
    ({ abEnc with input := [.reset] } : State).input = .reset :: [] ∧
    ({ withArch { abraEnc with wcnt := 7#3 } with input := [.wordThenReset 0x5061#16] } : State).input =
      .wordThenReset 0x5061#16 :: [] ∧
    ∃ a outs, Gives (execWord 0x5061#16 (withArch { abraEnc with wcnt := 7#3 })) (withArch { abraEnc with wcnt := 7#3 }) a outs
      true 0#32 ∧ outs.length = 1 := ⟨rfl, rfl, _, _, rfl, by decide +kernel⟩

theorem witness_StepAnswersUnderInvariants : Inv abTree.arch ∧ Inv (present 0x4000#16 abTree).arch :=
  ⟨ab_tree_inv, ab_tree_inv⟩

theorem witness_OutputRecordsOfEachCommand :
    (∃ t, exec (.enc 0x61#8) (withArch { abraEnc with wcnt := 7#3 }) = .next t) ∧ (∃ t, exec .encend abEnc = .next t) ∧
    (∃ t, exec (.dec 0x40#8) abDec = .next t) ∧ ∃ t, exec .nop abErr = .next t := ⟨⟨_, rfl⟩, ⟨_, rfl⟩, ⟨_, rfl⟩, _, rfl⟩

theorem witness_ResponseWordHoldsR64 :
    (Instr.rdr 6#4).wellFormed = true ∧ (∃ t, exec (.rdr 6#4) abErr = .next t) ∧ (Instr.cnt 0#8).wellFormed = true ∧
    (∃ t, exec (.cnt 0#8) abErr = .next t) ∧ ∃ t, exec (.cnt 0#8) abReady = .next t :=
  ⟨rfl, ⟨_, rfl⟩, rfl, ⟨_, rfl⟩, _, rfl⟩

theorem witness_RdrReadsRegisters :
    7 ≤ (7#4).toNat ∧ 7 ≤ (15#4).toNat ∧ abReady.arch.phase ≠ .err ∧ abErr.arch.phase = .err := by decide

/-- The last node that exists and the first that does not. -/
theorem witness_RdnReadsNode :
    (2#2 ≠ 3#2 ∧ abReady.arch.nnodes.toNat ≤ (3#9).toNat) ∧ (2#9).toNat < abReady.arch.nnodes.toNat ∧
    (abReady.arch.phase ≠ .err ∧ abErr.arch.phase = .err) ∧ Inv abReady.arch ∧ State.reset.arch.phase = .count ∧
    ((2#9).toNat < abReady.arch.nnodes.toNat ∧ (abReady.arch.nodeAt 2#9).leaf = false) ∧ (abReady.arch.nodeAt 1#9).leaf = true :=
  ⟨by decide, by decide, by decide, ab_ready_inv, rfl, by decide, rfl⟩

theorem witness_RdlReadsLength :
    (Inv abTree.arch ∧ abTree.arch.phase = .tree) ∧ Inv State.reset.arch ∧ State.reset.arch.phase = .count :=
  ⟨⟨ab_tree_inv, rfl⟩, empty_inv, rfl⟩

/-- A symbol with a code and one without. -/
theorem witness_RdcReadsCodeVector : Inv abReady.arch ∧ (abReady.arch.codeAt 0x7A#8).valid = false ∧
    (abReady.arch.codeAt 0x62#8).valid = true := ⟨ab_ready_inv, rfl, rfl⟩

theorem witness_ReadsDetermineTheState :
    (readsOnly (.rdr 6#4) = true ∧ (Instr.rdr 6#4).wellFormed = true) ∧ Inv abReady.arch ∧ ∀ (i : Instr) (data : BitVec 32), readsOnly i = true → i.wellFormed = true →
      (Answers i abReady abReady.arch [] true data ↔ Answers i abReady abReady.arch [] true data) :=
  ⟨⟨rfl, rfl⟩, ab_ready_inv, fun _ _ _ _ => Iff.rfl⟩

/-- One below CNTMAX, at CNTMAX, another phase, phase ERR. -/
theorem witness_CntCountsOneSymbol :
    ((countedA 0xFFFFFFFE#32).phase = .count ∧ (countedA 0xFFFFFFFE#32).total ≠ 0xFFFFFFFF#32 ∧
      Memory.wf freqDefault 256 (countedA 0xFFFFFFFE#32).freq = true) ∧
    ((countedA 0xFFFFFFFF#32).phase = .count ∧ (countedA 0xFFFFFFFF#32).total = 0xFFFFFFFF#32) ∧
    (abTree.arch.phase ≠ .err ∧ abTree.arch.phase ∉ [Phase.count]) ∧ abErr.arch.phase = .err := by decide

/-- Below CNTMAX and at it. -/
theorem witness_CntNeverWraps :
    (Inv (countedA 4#32) ∧ (countedA 4#32).phase = .count ∧ (countedA 4#32).total ≠ 0xFFFFFFFF#32) ∧
    Inv (countedA 0xFFFFFFFF#32) ∧ (countedA 0xFFFFFFFF#32).phase = .count ∧ (countedA 0xFFFFFFFF#32).total = 0xFFFFFFFF#32 :=
  ⟨⟨countedA_inv, rfl, by decide⟩, count_inv _ [(0x61, 0xFFFFFFFF#32)] 0xFFFFFFFF#32 rfl (by decide) (by decide +kernel), rfl, rfl⟩

theorem witness_CountingIgnoresOrder :
    State.reset.arch.phase = .count ∧ Memory.wf freqDefault 256 State.reset.arch.freq = true ∧
    State.reset.arch.total.toNat + [0x61#8, 0x62#8].length ≤ 4294967295 ∧ [0x62#8, 0x61#8].Perm [0x61#8, 0x62#8] := by decide

theorem witness_BuildMergesTheFirstTwoRoots :
    (State.reset.arch.phase = .count ∧ State.reset.arch.total = 0#32) ∧
    ((countedA 4#32).phase = .count ∧ (countedA 4#32).total ≠ 0#32 ∧ distinctSyms (countedA 4#32) ≠ []) ∧
    (abTree.arch.phase ≠ .err ∧ abTree.arch.phase ∉ [Phase.count]) ∧ abErr.arch.phase = .err :=
  ⟨by decide, ⟨rfl, by decide, by simp [countedA_distinct]⟩, by decide, rfl⟩

theorem witness_BuildOfOneSymbolIsItsLeaf :
    Inv (countedA 4#32) ∧ (countedA 4#32).phase = .count ∧ distinctSyms (countedA 4#32) = [0x61#8] :=
  ⟨countedA_inv, rfl, countedA_distinct⟩

theorem witness_NodeWeightsNeverWrap :
    Inv abTree.arch ∧ abTree.arch.nnodes ≠ 0#10 ∧ 2 < abTree.arch.nnodes.toNat ∧ (nodeAt abTree.arch.node 2).leaf = false :=
  ⟨ab_tree_inv, by decide, by decide, rfl⟩

/-- The tree of two leaves and the single leaf; a symbol of a leaf and one of none. -/
theorem witness_DeriveRecordsPathsOfLeaves :
    (Inv abTree.arch ∧ abTree.arch.phase = .tree ∧ (1#9).toNat < abTree.arch.nnodes.toNat ∧ (abTree.arch.nodeAt 1#9).leaf = true ∧
      (abTree.arch.nodeAt 1#9).sym = 0x62#8 ∧ 3 ≤ abTree.arch.nnodes.toNat) ∧
    (Inv (aArch .tree [] 0#9 0#32) ∧ (aArch .tree [] 0#9 0#32).phase = .tree ∧ (aArch .tree [] 0#9 0#32).nnodes = 1#10 ∧
      (nodeAt (aArch .tree [] 0#9 0#32).node 0).sym = 0x61#8 ∧
      ∀ i, i < (aArch .tree [] 0#9 0#32).nnodes.toNat → (nodeAt (aArch .tree [] 0#9 0#32).node i).leaf = true →
        (nodeAt (aArch .tree [] 0#9 0#32).node i).sym ≠ 0x62#8) := by
  refine ⟨⟨ab_tree_inv, rfl, by decide, rfl, rfl, by decide⟩, a_inv _ _ _ _ (.inl ⟨rfl, rfl⟩) (by decide) rfl, rfl, rfl, rfl, ?_⟩
  intro i hi _
  have : i = 0 := by simp [aArch] at hi; omega
  subst this
  simp [aArch, nodeAt]

/-- An arena whose only node is its own child, in which a walk never ends; a good arena; another phase. -/
theorem witness_DeriveStopsOnlyOnTooDeepArenas :
    (∃ s : State, s.arch.phase = .tree ∧ ∃ p i, p.length = 256 ∧ walk s.arch.node s.arch.root p = some i) ∧
    (∃ t, exec .derive abTree = .next t) ∧ (abReady.arch.phase ≠ .err ∧ abReady.arch.phase ∉ [Phase.tree]) ∧
    abErr.arch.phase = .err := by
  refine ⟨⟨withArch { Arch.reset with phase := .tree, node := [⟨false, 0#8, 0#32, 0#9, 0#9⟩] }, rfl, List.replicate 256 false,
    0#9, List.length_replicate, ?_⟩, ⟨_, rfl⟩, by decide, rfl⟩
  have h : ∀ n, walk [⟨false, 0#8, 0#32, 0#9, 0#9⟩] 0#9 (List.replicate n false) = some 0#9 := by
    intro n
    induction n with
    | zero => rfl
    | succ n ih => exact ih
  exact h 256

theorem witness_SingleLeafGetsOneBitCode :
    (Inv (aArch .tree [] 0#9 0#32) ∧ (aArch .tree [] 0#9 0#32).phase = .tree ∧ (aArch .tree [] 0#9 0#32).nnodes = 1#10) ∧
    Inv abReady.arch ∧ (abReady.arch.codeAt 0x61#8).valid = true :=
  ⟨⟨a_inv _ _ _ _ (.inl ⟨rfl, rfl⟩) (by decide) rfl, rfl, rfl⟩, ab_ready_inv, rfl⟩

theorem witness_CodesArePrefixFree :
    Inv abReady.arch ∧ 0x61#8 ≠ 0x62#8 ∧ (abReady.arch.codeAt 0x61#8).valid = true ∧ (abReady.arch.codeAt 0x62#8).valid = true :=
  ⟨ab_ready_inv, by decide, rfl, rfl⟩

theorem witness_CodeLengthsAreBounded : Inv abReady.arch ∧ (abReady.arch.codeAt 0x62#8).valid = true := ⟨ab_ready_inv, rfl⟩

/-- A full writer but for one bit, and an empty one. -/
theorem witness_WriteBitPlacesTheBit :
    (WriterClean { abraEnc with wacc := 0xDC#8, wcnt := 7#3 } ∧ ({ abraEnc with wacc := 0xDC#8, wcnt := 7#3 } : Arch).wcnt = 7#3) ∧
    WriterClean Arch.reset ∧ Arch.reset.wcnt ≠ 7#3 := by
  refine ⟨⟨fun n hn => ?_, rfl⟩, by simp [WriterClean, Arch.reset], by decide⟩
  by_cases h8 : n < 8
  · have : n = 7 := by simp at hn; omega
    subst this
    decide
  · exact BitVec.getMsbD_of_ge _ _ (by omega)

theorem witness_CloseWriterPadsWithZeros :
    (WriterClean Arch.reset ∧ Arch.reset.wcnt = 0#3) ∧ WriterClean abEnc.arch ∧ abEnc.arch.wcnt ≠ 0#3 :=
  ⟨⟨by simp [WriterClean, Arch.reset], rfl⟩, ab_enc_inv.writer, by decide⟩

theorem witness_BytesPackMostSignificantFirst :
    [false, true, true, false, true, true, true, false] = bitsOfByte 0x6E#8 ∧
    (start Arch.reset).arch.wacc = 0#8 ∧ (start Arch.reset).arch.wcnt = 0#3 := by decide

theorem witness_WriterPacksTheBits :
    (start Arch.reset).arch.wacc = 0#8 ∧ (start Arch.reset).arch.wcnt = 0#3 ∧ (start Arch.reset).outs = [] := by decide

theorem witness_WrittenBitsReadBack :
    (start abReady.arch).arch.wacc = 0#8 ∧ (start abReady.arch).arch.wcnt = 0#3 ∧ (start abReady.arch).outs = [] := by decide

theorem witness_EncWritesTheCode :
    (abReady.arch.phase = .ready ∧ (abReady.arch.codeAt 0x61#8).valid = true) ∧
    (abEnc.arch.phase = .enc ∧ WriterClean abEnc.arch ∧ (abEnc.arch.codeAt 0x62#8).valid = true) ∧
    (abEnc.arch.codeAt 0x7A#8).valid = false ∧ (abTree.arch.phase ≠ .err ∧ abTree.arch.phase ∉ [Phase.ready, .enc]) ∧
    abErr.arch.phase = .err :=
  ⟨⟨rfl, rfl⟩, ⟨rfl, ab_enc_inv.writer, rfl⟩, rfl, by decide, rfl⟩

theorem witness_UnknownSymbolClosesTheWriter :
    (Inv abEnc.arch ∧ abEnc.arch.phase = .enc ∧ abEnc.arch.freqAt 0x7A#8 = 0#32 ∧ abEnc.arch.freqAt 0x61#8 ≠ 0#32) ∧
    Inv abReady.arch ∧ abReady.arch.phase = .ready ∧ abReady.arch.freqAt 0x7A#8 = 0#32 :=
  ⟨⟨ab_enc_inv, rfl, rfl, by decide⟩, ab_ready_inv, rfl, rfl⟩

theorem witness_EncendClosesTheStream :
    (Inv abReady.arch ∧ abReady.arch.phase = .ready) ∧ abEnc.arch.phase = .enc ∧
    (abDec.arch.phase ≠ .err ∧ abDec.arch.phase ∉ [Phase.ready, .enc]) ∧ abErr.arch.phase = .err :=
  ⟨⟨ab_ready_inv, rfl⟩, by decide⟩

theorem witness_EncodeStreamPacksTheCodes :
    abReady.arch.phase = .ready ∧ abReady.arch.wcnt = 0#3 ∧ (∀ x ∈ [0x62#8, 0x61#8], (abReady.arch.codeAt x).valid = true) ∧
    ∀ x, [0x62#8, 0x61#8].count x = (abReady.arch.freqAt x).toNat := ⟨rfl, rfl, by decide, by decide +kernel⟩

/-- One symbol before the stream's end, and at it. -/
theorem witness_DecodeBitWalksTheTree :
    (aArch .dec aCode 0#9 3#32).emitted.toNat ≤ (aArch .dec aCode 0#9 3#32).total.toNat ∧
    (aArch .dec aCode 0#9 4#32).emitted.toNat ≤ (aArch .dec aCode 0#9 4#32).total.toNat := by decide

theorem witness_DecTakesEightBits :
    abReady.arch.phase = .ready ∧ abDec.arch.phase = .dec ∧ (abEnc.arch.phase ≠ .err ∧ abEnc.arch.phase ∉ [Phase.ready, .dec]) ∧
    abErr.arch.phase = .err := by decide

/-- At the start of a stream, and one symbol before its end. -/
theorem witness_SingleLeafDecodesOneSymbolABit :
    (Inv (aArch .ready aCode 0#9 4#32) ∧ (aArch .ready aCode 0#9 4#32).nnodes = 1#10 ∧ (aArch .ready aCode 0#9 4#32).phase = .ready) ∧
    Inv (aArch .dec aCode 0#9 3#32) ∧ (aArch .dec aCode 0#9 3#32).phase = .dec ∧ 3 = (aArch .dec aCode 0#9 3#32).emitted.toNat :=
  ⟨⟨a_inv _ _ _ _ (.inr ⟨.inl rfl, rfl⟩) (by decide) rfl, rfl, rfl⟩, a_inv _ _ _ _ (.inr ⟨.inr rfl, rfl⟩) (by decide) rfl, rfl, rfl⟩

theorem witness_TrailingBitsAreDiscarded :
    (aArch .dec aCode 0#9 4#32).phase = .dec ∧ (aArch .dec aCode 0#9 4#32).emitted = (aArch .dec aCode 0#9 4#32).total := by decide

theorem witness_DecEmitsTheSymbolsOfTheCodes :
    Inv abDec.arch ∧ abDec.arch.phase = .dec ∧ abDec.arch.nnodes ≠ 1#10 ∧
    walk abDec.arch.node abDec.arch.root [] = some abDec.arch.cur := ⟨ab_dec_inv, rfl, by decide, rfl⟩

/-- The stream's end, a boundary too early, inside a code, READY, other phases. -/
theorem witness_DecendEndsOrRaises :
    ((aArch .dec aCode 0#9 4#32).phase = .dec ∧ (aArch .dec aCode 0#9 4#32).emitted = (aArch .dec aCode 0#9 4#32).total) ∧
    (abDec.arch.phase = .dec ∧ abDec.arch.emitted ≠ abDec.arch.total ∧ abDec.arch.cur = abDec.arch.root) ∧
    (({ abraDec with cur := 7#9 } : Arch).phase = .dec ∧ ({ abraDec with cur := 7#9 } : Arch).emitted ≠ abraDec.total ∧
      ({ abraDec with cur := 7#9 } : Arch).cur ≠ abraDec.root) ∧
    (Inv abReady.arch ∧ abReady.arch.phase = .ready) ∧ (abTree.arch.phase ≠ .err ∧ abTree.arch.phase ∉ [Phase.ready, .dec]) ∧
    abErr.arch.phase = .err :=
  ⟨by decide, by decide, by decide, ⟨ab_ready_inv, rfl⟩, by decide, rfl⟩

/-- A phase of the blanks for each of the seven commands (T106). -/
theorem witness_BlanksOfR70RaiseProtocolError :
    abTree.arch.phase = .tree ∧ abDec.arch.phase = .dec ∧ State.reset.arch.phase = .count ∧ abEnc.arch.phase = .enc ∧
    abReady.arch.phase = .ready ∧
    Answers (.cnt 0#8) abTree (withError abTree.arch .protocolError) [] false 0#32 ∧
    Answers .build abDec (withError abDec.arch .protocolError) [] false 0#32 ∧
    Answers .derive State.reset (withError State.reset.arch .protocolError) [] false 0#32 ∧
    Answers (.enc 0#8) abDec (withError abDec.arch .protocolError) [] false 0#32 ∧
    Answers .encend abTree (withError abTree.arch .protocolError) [] false 0#32 ∧
    Answers (.dec 0#8) abEnc (withError abEnc.arch .protocolError) [] false 0#32 ∧
    Answers .decend State.reset (withError State.reset.arch .protocolError) [] false 0#32 :=
  ⟨rfl, rfl, rfl, rfl, rfl, rfl, rfl, rfl, rfl, rfl, rfl, rfl⟩

/-- A read, CLR, a command that is refused, an illegal word. -/
theorem witness_ErrPhaseExecutesOnlyReadsAndClr :
    abErr.arch.phase = .err ∧ (decode 0x9006#16 = .ok (.rdr 6#4) ∧ readsOnly (.rdr 6#4) = true) ∧ decode 0x1000#16 = .ok .clr ∧
    (decode 0x2061#16 = .ok (.cnt 0x61#8) ∧ readsOnly (.cnt 0x61#8) = false) ∧ decode 0x9007#16 = .error .reservedRegister := by
  decide

/-- The three events that return, a word that does not, and no event. -/
theorem witness_FirstErrorStaysUntilReset :
    abErr.arch.phase = .err ∧ (present 0x1000#16 abErr).input = .word 0x1000#16 :: [] ∧
    ({ abErr with input := [.reset] } : State).input = .reset :: [] ∧
    ({ abErr with input := [.wordThenReset 0x2061#16] } : State).input = .wordThenReset 0x2061#16 :: [] ∧
    ((present 0xFFFF#16 abErr).input = .word 0xFFFF#16 :: [] ∧ HostEvent.word 0xFFFF#16 ≠ .word 0x1000#16) ∧ abErr.input = [] := by
  decide

/-- UnknownSymbol with a bit held, EndOfStream in READY, ProtocolError, IllegalCommand. -/
theorem witness_ErrorEntryWritesOnlyPhaseAndErr :
    (∃ t, execWord 0x507A#16 abEnc = .next t ∧ abEnc.arch.phase ≠ .err ∧ t.arch.phase = .err ∧ t.arch.err = .unknownSymbol) ∧
    (∃ t, execWord 0x8000#16 abReady = .next t ∧ abReady.arch.phase ≠ .err ∧ t.arch.phase = .err ∧ t.arch.err = .endOfStream) ∧
    (∃ t, execWord 0x3000#16 abTree = .next t ∧ abTree.arch.phase ≠ .err ∧ t.arch.phase = .err ∧ t.arch.err = .protocolError) ∧
    ∃ t, execWord 0x9007#16 abEnc = .next t ∧ t.arch.phase = .err ∧ t.arch.err = .illegalCommand :=
  ⟨⟨_, rfl, by decide, rfl, rfl⟩, ⟨_, rfl, by decide, rfl, rfl⟩, ⟨_, rfl, by decide, rfl, rfl⟩, _, rfl, rfl, rfl⟩

/-- A state no run reaches, in which ERR names a collaborator's error: nothing else can meet the hypothesis. -/
theorem witness_CollaboratorErrorsAreNeverRaised :
    ∃ s t : State, step s = .next t ∧ t.arch.err = .notFound :=
  ⟨withArch { Arch.reset with phase := .err, err := .notFound }, _, rfl, rfl⟩

theorem witness_PhaseTransitionsAreThoseOfR71 :
    (Inv abReady.arch ∧ Instr.decend.wellFormed = true ∧ ∃ t, exec .decend abReady = .next t) ∧
    (IllegalWord 0xE000#16 ∧ ∃ t, execWord 0xE000#16 abErr = .next t) ∧
    (∃ t, step { abEnc with input := [.reset] } = .next t) ∧ ∃ t, step { abEnc with input := [.wordThenReset 0x5061#16] } = .next t :=
  ⟨⟨ab_ready_inv, rfl, _, rfl⟩, ⟨by simp [IllegalWord], _, rfl⟩, ⟨_, rfl⟩, _, rfl⟩

theorem witness_TablesAreImmutableUnderStreams :
    (∃ t, execWord 0x5061#16 abReady = .next t) ∧ 0x5061#16 ≠ 0x1000#16 ∧ abReady.arch.phase = .ready ∧
    (∃ t, execWord 0x2061#16 abEnc = .next t) ∧ abEnc.arch.phase = .enc ∧ (∃ t, execWord 0xFFFF#16 abDec = .next t) ∧
    abDec.arch.phase = .dec := ⟨⟨_, rfl⟩, by decide, rfl, ⟨_, rfl⟩, rfl, ⟨_, rfl⟩, rfl⟩

theorem witness_CommandsWriteOnlyTheirElements :
    (∃ t, exec .build (withArch abraCounted) = .next t) ∧ Instr.build ≠ .clr ∧ (∃ t, exec (.rdr 6#4) abReady = .next t) ∧
    Instr.rdr 6#4 ≠ .clr ∧ readsOnly (.rdr 6#4) = true := ⟨⟨_, rfl⟩, by decide, ⟨_, rfl⟩, by decide, rfl⟩

theorem witness_StepKeepsInvariants :
    Inv (present 0x5061#16 abReady).arch ∧ ∃ t, step (present 0x5061#16 abReady) = .next t := ⟨ab_ready_inv, _, rfl⟩

theorem witness_StepKeepsMemoryForm :
    MemoriesOk (present 0x2061#16 State.reset).arch ∧ ∃ t, step (present 0x2061#16 State.reset) = .next t :=
  ⟨⟨rfl, rfl, rfl⟩, _, rfl⟩

theorem witness_CodecRoundTrip : [0x61#8] ≠ [] ∧ [0x61#8].length ≤ 4294967295 := by decide

/-! ### The host's questions: from reset, a table word is the command that runs first -/

theorem test_fetch_word_runs : seen (step (State.reset.withFetchWord 16 0x2061)) = [0x8000000000] ∧
    decodeTableWord 16 0x2061 = some (.cnt 0x61#8) := by decide

end Sys2Proof.Tests
end

section
/-! SUPPORT. The decoder's checks in numbers: which words each format refuses, and that the words `decode` refuses are exactly the
illegal words of 30_encoding.md R67. What a step does with a word, legal or illegal. -/

namespace Sys2Proof

/-! ### Fields in numbers (R61) -/

/-- `n` bits of a word from bit `lo` on: drop what lies above them, then what lies below. -/
theorem extractLsb'_toNat_eq_mod_div (w : CmdWord) (lo n : Nat) :
    (w.extractLsb' lo n).toNat = w.toNat % 2 ^ (lo + n) / 2 ^ lo := by
  rw [BitVec.extractLsb'_toNat, Nat.shiftRight_eq_div_pow, Nat.pow_add, Nat.mod_mul_right_div_self]

theorem extractLsb'_eq_zero_iff (w : CmdWord) (lo n : Nat) :
    w.extractLsb' lo n = 0#n ↔ w.toNat % 2 ^ (lo + n) / 2 ^ lo = 0 := by
  rw [← BitVec.toNat_inj, extractLsb'_toNat_eq_mod_div, BitVec.toNat_zero]

theorem opcodeField_toNat (w : CmdWord) : (opcodeField w).toNat = w.toNat / 4096 := by
  rw [opcodeField, extractLsb'_toNat_eq_mod_div, Nat.mod_eq_of_lt w.isLt]
  rfl

theorem regField_toNat (w : CmdWord) : (regField w).toNat = w.toNat % 4096 % 16 := by
  rw [regField, extractLsb'_toNat_eq_mod_div]
  omega

theorem partField_toNat (w : CmdWord) : (partField w).toNat = w.toNat % 4096 / 512 % 4 := by
  rw [partField, extractLsb'_toNat_eq_mod_div]
  omega

/-! ### What each format refuses (R67 (b), (c), (d)) -/

/-- A check before `d`: what is refused is what fails the check or is refused by `d`. -/
theorem ite_error_iff (c : Prop) [Decidable c] (d : Decoded) (e : IllegalReason) :
    (∃ r, (if c then d else .error e) = .error r) ↔ ¬ c ∨ ∃ r, d = .error r := by
  by_cases h : c <;> simp [h]

theorem decodeZ_error_iff (w : CmdWord) (i : Instr) :
    (∃ r, decodeZ w i = .error r) ↔ w.toNat % 4096 ≠ 0 := by
  rw [decodeZ, ite_error_iff, extractLsb'_eq_zero_iff]
  simp

theorem decodeS_error_iff (w : CmdWord) (i : Sym → Instr) :
    (∃ r, decodeS w i = .error r) ↔ w.toNat % 4096 / 256 ≠ 0 := by
  rw [decodeS, ite_error_iff, extractLsb'_eq_zero_iff]
  simp

theorem decodeR_error_iff (w : CmdWord) (i : BitVec 4 → Instr) :
    (∃ r, decodeR w i = .error r) ↔ w.toNat % 4096 / 16 ≠ 0 ∨ 7 ≤ w.toNat % 4096 % 16 := by
  rw [decodeR, ite_error_iff, ite_error_iff, extractLsb'_eq_zero_iff, BitVec.le_def, regField_toNat]
  simp
  omega

theorem decodeC_error_iff (w : CmdWord) (i : Sym → BitVec 3 → Instr) :
    (∃ r, decodeC w i = .error r) ↔ w.toNat % 4096 / 2048 ≠ 0 := by
  rw [decodeC, ite_error_iff, extractLsb'_eq_zero_iff]
  simp

theorem decodeN_error_iff (w : CmdWord) (i : NodeIdx → BitVec 2 → Instr) :
    (∃ r, decodeN w i = .error r) ↔ w.toNat % 4096 / 2048 ≠ 0 ∨ w.toNat % 4096 / 512 % 4 = 3 := by
  rw [decodeN, ite_error_iff, ← ite_not, ite_error_iff, extractLsb'_eq_zero_iff, ← BitVec.toNat_inj, partField_toNat]
  simp

end Sys2Proof

namespace Sys2Proof.Machine

/-! ### Illegal words (R67, R68) -/

/-- The words that do not decode are those of R67 (a) to (d): opcode by opcode, what the opcode's format refuses. -/
theorem decode_error_iff (w : CmdWord) : (∃ r, decode w = .error r) ↔ IllegalWord w := by
  unfold decode IllegalWord
  rw [opcodeField_toNat]
  split
  case h_15 =>
    have hop : w.toNat / 4096 = 14 ∨ w.toNat / 4096 = 15 := by
      have hw := w.isLt
      simp only [imp_false] at *
      omega
    rcases hop with h | h <;> simp [h]
  all_goals
    next h =>
      simp [h, decodeZ_error_iff, decodeS_error_iff, decodeR_error_iff, decodeC_error_iff, decodeN_error_iff]

theorem execWord_of_illegalWord {w : CmdWord} (hw : IllegalWord w) (s : State) :
    execWord w s = .next (s.deliver (illegal s.arch)) := by
  obtain ⟨r, hr⟩ := (decode_error_iff w).mpr hw
  simp [execWord, hr]

/-- Outside phase ERR an illegal word raises IllegalCommand and changes nothing else (60_exceptions.md R148, R150). -/
theorem execWord_illegalWord_raises {w : CmdWord} (hw : IllegalWord w) (s : State) (hp : s.arch.phase ≠ .err) :
    Gives (execWord w s) s (withError s.arch .illegalCommand) [] false 0#32 := by
  rw [execWord_of_illegalWord hw, illegal, if_neg hp]
  rfl

/-- In phase ERR an illegal word is refused (60_exceptions.md R153). -/
theorem execWord_illegalWord_refused {w : CmdWord} (hw : IllegalWord w) (s : State) (hp : s.arch.phase = .err) :
    Gives (execWord w s) s s.arch [] false 0#32 := by
  rw [execWord_of_illegalWord hw, illegal, if_pos hp]
  rfl

theorem execWord_of_decode {w : CmdWord} {i : Instr} (h : decode w = .ok i) (s : State) : execWord w s = exec i s := by
  simp [execWord, h]

/-! ### One step (R59, 70_reset_and_hazards.md R165) -/

theorem step_word {s : State} {w : CmdWord} {rest : List HostEvent} (h : s.input = .word w :: rest) :
    step s = execWord w { s with input := rest } := by
  simp [step, takeNext, h, takeEvent]

theorem step_idle {s : State} (h : s.input = []) : step s = .next s := by
  simp [step, takeNext, h]

/-- Settles O6: a step is `execWord` of the word presented, which runs the command the word decodes to, or does what R68 says of an
illegal word. -/
theorem stepRunsDecodedCommand : Obligations.StepRunsDecodedCommand := by
  unfold Obligations.StepRunsDecodedCommand
  refine ⟨fun s w rest hin => ?_, fun s => step_idle⟩
  rw [step_word hin]
  exact ⟨rfl, fun i hi => execWord_of_decode hi _, fun hw => execWord_illegalWord_raises hw { s with input := rest },
    fun hw => execWord_illegalWord_refused hw { s with input := rest }⟩

end Sys2Proof.Machine
end

section
/-! SUPPORT. What each command's rule leaves in the block, said once: the cases of its result. -/

namespace Sys2Proof.Machine

/-! ### What each rule leaves in the block -/

theorem raise_start_arch (r : ErrorCode) (a : Arch) : (raise r (start a)).arch = withError a r := rfl

/-- NOP and the reads change nothing, or act as an illegal word (log entry 10). -/
theorem readsOnly_rule_arch {i : Instr} {a : Arch} {e : Effect} (hi : readsOnly i = true) (h : ruleOf i a = .next e) :
    e.arch = a ∨ e = illegal a := by
  have hread : ∀ view : Arch → Option (BitVec 32), readout view a = .next e → e.arch = a ∨ e = illegal a := by
    intro view hv
    rcases readout_next view a with ⟨v, -, h'⟩ | ⟨-, h'⟩ <;> rw [h'] at hv <;> cases hv
    · exact .inl rfl
    · exact .inr rfl
  cases i
  case nop => cases h; exact .inl rfl
  case rdr reg => exact hread (registerView · reg) h
  case rdf x => exact hread (fun a => some (a.freqAt x)) h
  case rdl x => exact hread (fun a => some (lengthView (a.codeAt x))) h
  case rdc x word => exact hread (fun a => some (vectorView (a.codeAt x) word)) h
  case rdn idx field => exact hread (nodeView · idx field) h
  all_goals cases hi

theorem countRule_arch {x : Sym} {a : Arch} {e : Effect} (h : countRule x a = .next e) :
    (a.total = Config.cntMax ∧ e.arch = withError a .countOverflow) ∨
    (a.total ≠ Config.cntMax ∧ e.arch = { a.setFreq x (a.freqAt x + 1#32) with total := a.total + 1#32 }) := by
  by_cases hf : a.total = Config.cntMax <;> simp only [countRule, countFull, hf, decide_true, decide_false, if_true,
    Bool.false_eq_true, if_false] at h <;> cases h
  · exact .inl ⟨hf, rfl⟩
  · exact .inr ⟨hf, rfl⟩

/-- The block with the arena `ns` over `k` leaves and its three registers (42_tree_build.md R97): what `buildRule` writes. -/
def withArena (a : Arch) (k : Nat) (ns : List Node) : Arch :=
  { a with
    node := ns
    nleaf := BitVec.ofNat 9 k
    nnodes := BitVec.ofNat 10 ns.length
    root := BitVec.ofNat 9 (ns.length - 1)
    phase := .tree }

theorem buildRule_arch {a : Arch} {e : Effect} (h : buildRule a = .next e) :
    (a.total = 0#32 ∧ e.arch = withError a .emptyInput) ∨
    (a.total ≠ 0#32 ∧ e.arch = withArena a (leaves a).length (buildArena (leaves a))) := by
  by_cases ht : a.total = 0#32 <;> simp only [buildRule, nothingCounted, ht, decide_true, decide_false, if_true,
    Bool.false_eq_true, if_false] at h <;> cases h
  · exact .inl ⟨ht, rfl⟩
  · exact .inr ⟨ht, rfl⟩

/-- The code table DERIVE leaves when its walk recorded `rs` (43_code_table.md R106, R108). -/
def derivedCode (a : Arch) (rs : List (Sym × Bits)) : Memory CodeEntry := (overrideSingle (rs.foldl recordCode a)).code

theorem foldl_recordCode_arch (rs : List (Sym × Bits)) (a : Arch) : ∃ c, rs.foldl recordCode a = { a with code := c } := by
  induction rs generalizing a with
  | nil => exact ⟨_, rfl⟩
  | cons r rs ih =>
    obtain ⟨c, hc⟩ := ih (recordCode a r)
    exact ⟨c, hc⟩

theorem overrideSingle_arch (a : Arch) : ∃ c, overrideSingle a = { a with code := c } := by
  unfold overrideSingle
  split <;> exact ⟨_, rfl⟩

/-- Recording codes writes only CODE. -/
theorem derived_eq (a : Arch) (rs : List (Sym × Bits)) :
    overrideSingle (rs.foldl recordCode a) = { a with code := derivedCode a rs } := by
  obtain ⟨c, hc⟩ := foldl_recordCode_arch rs a
  obtain ⟨c', hc'⟩ := overrideSingle_arch { a with code := c }
  rw [derivedCode, hc, hc']

theorem deriveRule_arch {a : Arch} {e : Effect} (h : deriveRule a = .next e) :
    ∃ rs, visit a.node Config.codeLenMax a.root [] = some rs ∧
      e.arch = { a with code := derivedCode a rs, phase := .ready } := by
  unfold deriveRule at h
  split at h
  · cases h
  · next rs hrs =>
    cases h
    exact ⟨rs, hrs, by rw [respond_arch, start_arch, derived_eq]⟩

/-- ENC starts from an empty writer in READY and from the one it finds in ENC (44_codec.md R114). -/
theorem startEncode_eq {a : Arch} (hp : a.phase = .ready ∨ a.phase = .enc) :
    (a.phase = .ready ∧ startEncode a = { a with wacc := 0#8, wcnt := 0#3, phase := .enc }) ∨
    (a.phase = .enc ∧ startEncode a = a) := by
  rcases hp with hp | hp <;> simp [startEncode, hp]

theorem encodeRule_arch {x : Sym} {a : Arch} {e : Effect} (h : encodeRule x a = .next e) :
    (∃ q : Bits, e.arch = (q.foldl writeBit (start (startEncode a))).arch) ∨
    e.arch = withError { startEncode a with wacc := 0#8, wcnt := 0#3 } .unknownSymbol := by
  unfold encodeRule at h
  dsimp only at h
  split at h <;> cases h
  · exact .inl ⟨_, rfl⟩
  · exact .inr (by rw [raise_arch, closeWriter_eq]; rfl)

theorem encodeEndRule_arch {a : Arch} {e : Effect} (h : encodeEndRule a = .next e) :
    e.arch = { a with wacc := 0#8, wcnt := 0#3, phase := .ready } := by
  cases h
  rw [closeWriter_eq]
  rfl

/-- DEC and DECEND start at the root in READY and where they stand in DEC (44_codec.md R120). -/
theorem startDecode_eq {a : Arch} (hp : a.phase = .ready ∨ a.phase = .dec) :
    (a.phase = .ready ∧ startDecode a = { a with cur := a.root, emitted := 0#32 }) ∨ (a.phase = .dec ∧ startDecode a = a) := by
  rcases hp with hp | hp <;> simp [startDecode, hp]

theorem decodeRule_arch {b : BitVec 8} {a : Arch} {e : Effect} (h : decodeRule b a = .next e) :
    e.arch = ((bitsOfByte b).foldl decodeBit (start { startDecode a with phase := .dec })).arch := by
  rw [decodeRule, Host.Outcome.next.injEq] at h
  rw [← h, respond_arch]

theorem decodeEndRule_arch {a : Arch} {e : Effect} (h : decodeEndRule a = .next e) :
    e.arch = { startDecode a with phase := .ready } ∨ e.arch = withError (startDecode a) .endOfStream ∨
    e.arch = withError (startDecode a) .corruptStream := by
  unfold decodeEndRule at h
  dsimp only at h
  split at h
  · cases h; exact .inl rfl
  · split at h <;> cases h
    · exact .inr (.inl rfl)
    · exact .inr (.inr rfl)

end Sys2Proof.Machine
end

section
/-! SUPPORT. The frame of every command but CLR, by the access table of 10_state.md R25; how a property of the block is carried over
one step; and the canonical form of the memories (log entries 4 and 5). -/

namespace Sys2Proof.Machine

/-! ### The access table (10_state.md R25) -/

/-- What the row of the command `i` does not let it write is the same in `b` as in `a`; ERR changes only on the way into phase ERR. -/
structure WritesOnly (i : Instr) (a b : Arch) : Prop where
  counts : (∀ x, i ≠ .cnt x) → b.total = a.total ∧ b.freq = a.freq
  tree : i ≠ .build → b.node = a.node ∧ b.nleaf = a.nleaf ∧ b.nnodes = a.nnodes ∧ b.root = a.root
  code : i ≠ .derive → b.code = a.code
  writer : (∀ x, i ≠ .enc x) → i ≠ .encend → b.wacc = a.wacc ∧ b.wcnt = a.wcnt
  reader : (∀ b, i ≠ .dec b) → i ≠ .decend → b.cur = a.cur ∧ b.emitted = a.emitted
  error : b.err ≠ a.err → b.phase = .err

theorem WritesOnly.refl (i : Instr) (a : Arch) : WritesOnly i a a where
  counts _ := ⟨rfl, rfl⟩
  tree _ := ⟨rfl, rfl, rfl, rfl⟩
  code _ := rfl
  writer _ _ := ⟨rfl, rfl⟩
  reader _ _ := ⟨rfl, rfl⟩
  error h := absurd rfl h

/-- Every command may raise an error. -/
theorem WritesOnly.withError {i : Instr} {a b : Arch} (h : WritesOnly i a b) (r : ErrorCode) : WritesOnly i a (withError b r) :=
  { h with error := fun _ => rfl }

theorem illegal_arch_cases (a : Arch) :
    (illegal a).arch = a ∨ (a.phase ≠ .err ∧ (illegal a).arch = withError a .illegalCommand) := by
  by_cases hp : a.phase = .err
  · exact .inl (by rw [illegal, if_pos hp, refuse_arch])
  · exact .inr ⟨hp, by rw [illegal, if_neg hp, raise_start_arch]⟩

theorem WritesOnly.illegal (i : Instr) (a : Arch) : WritesOnly i a (illegal a).arch := by
  rcases illegal_arch_cases a with h | ⟨-, h⟩ <;> rw [h]
  · exact .refl i a
  · exact (WritesOnly.refl i a).withError _

section StreamRows

variable (a : Arch)

theorem WritesOnly.enc (x : Sym) (w : BitVec 8) (n : BitVec 3) (p : Phase) :
    WritesOnly (.enc x) a { a with wacc := w, wcnt := n, phase := p } :=
  { WritesOnly.refl (.enc x) a with writer := fun h => absurd rfl (h x), error := fun h => absurd rfl h }

theorem WritesOnly.dec (b : BitVec 8) (i : NodeIdx) (n : Count) (p : Phase) :
    WritesOnly (.dec b) a { a with cur := i, emitted := n, phase := p } :=
  { WritesOnly.refl (.dec b) a with reader := fun h => absurd rfl (h b), error := fun h => absurd rfl h }

theorem WritesOnly.decend (i : NodeIdx) (n : Count) (p : Phase) :
    WritesOnly .decend a { a with cur := i, emitted := n, phase := p } :=
  { WritesOnly.refl .decend a with reader := fun _ h => absurd rfl h, error := fun h => absurd rfl h }

end StreamRows

theorem foldl_writeBit_arch (q : Bits) (c : Busy) :
    ∃ w n, (q.foldl writeBit c).arch = { c.arch with wacc := w, wcnt := n } := by
  induction q generalizing c with
  | nil => exact ⟨_, _, rfl⟩
  | cons b q ih =>
    obtain ⟨w, n, h⟩ := writeBit_arch c b
    obtain ⟨w', n', h'⟩ := ih (writeBit c b)
    exact ⟨w', n', by rw [List.foldl_cons, h', h]⟩

theorem foldl_decodeBit_arch (q : Bits) (c : Busy) :
    ∃ i n, (q.foldl decodeBit c).arch = { c.arch with cur := i, emitted := n } := by
  induction q generalizing c with
  | nil => exact ⟨_, _, rfl⟩
  | cons b q ih =>
    obtain ⟨i, n, h⟩ := decodeBit_arch c b
    obtain ⟨i', n', h'⟩ := ih (decodeBit c b)
    exact ⟨i', n', by rw [List.foldl_cons, h', h]⟩

theorem startEncode_arch (a : Arch) : ∃ w n p, startEncode a = { a with wacc := w, wcnt := n, phase := p } := by
  unfold startEncode
  split <;> exact ⟨_, _, _, rfl⟩

theorem startDecode_arch (a : Arch) : ∃ i n, startDecode a = { a with cur := i, emitted := n } := by
  unfold startDecode
  split <;> exact ⟨_, _, rfl⟩

/-- Each command's rule writes what its row of 10_state.md R25 lets it write. -/
theorem ruleOf_writesOnly {i : Instr} {a : Arch} {e : Effect} (h : ruleOf i a = .next e) (hi : i ≠ .clr) :
    WritesOnly i a e.arch := by
  by_cases hr : readsOnly i = true
  · rcases readsOnly_rule_arch hr h with h' | rfl
    · rw [h']; exact .refl i a
    · exact .illegal i a
  cases i
  case clr => exact absurd rfl hi
  case cnt x =>
    rcases countRule_arch h with ⟨-, h'⟩ | ⟨-, h'⟩ <;> rw [h']
    · exact (WritesOnly.refl _ a).withError _
    · exact { WritesOnly.refl (.cnt x) a with counts := fun hx => absurd rfl (hx x), error := fun he => absurd rfl he }
  case build =>
    rcases buildRule_arch h with ⟨-, h'⟩ | ⟨-, h'⟩ <;> rw [h']
    · exact (WritesOnly.refl _ a).withError _
    · exact { WritesOnly.refl .build a with tree := fun hb => absurd rfl hb, error := fun he => absurd rfl he }
  case derive =>
    obtain ⟨rs, -, h'⟩ := deriveRule_arch h
    rw [h']
    exact { WritesOnly.refl .derive a with code := fun hd => absurd rfl hd, error := fun he => absurd rfl he }
  case enc x =>
    obtain ⟨w, n, p, hs⟩ := startEncode_arch a
    rcases encodeRule_arch h with ⟨q, h'⟩ | h' <;> rw [h']
    · obtain ⟨w', n', hq⟩ := foldl_writeBit_arch q (start (startEncode a))
      rw [hq, start_arch, hs]
      exact .enc a x w' n' p
    · rw [hs]
      exact (WritesOnly.enc a x 0#8 0#3 p).withError _
  case encend =>
    rw [encodeEndRule_arch h]
    exact { WritesOnly.refl .encend a with writer := fun _ he => absurd rfl he, error := fun he => absurd rfl he }
  case dec b =>
    obtain ⟨j, n, hs⟩ := startDecode_arch a
    obtain ⟨j', n', hq⟩ := foldl_decodeBit_arch (bitsOfByte b) (start { startDecode a with phase := .dec })
    rw [decodeRule_arch h, hq, start_arch, hs]
    exact .dec a b j' n' .dec
  case decend =>
    obtain ⟨j, n, hs⟩ := startDecode_arch a
    rcases decodeEndRule_arch h with h' | h' | h' <;> rw [h', hs]
    · exact .decend a j n .ready
    · exact (WritesOnly.decend a j n a.phase).withError _
    · exact (WritesOnly.decend a j n a.phase).withError _
  all_goals exact absurd rfl hr

/-- A command that runs its checks and its rule: its own rule, refused, or ProtocolError (30_encoding.md R68). -/
theorem checked_next_cases {i : Instr} {a : Arch} {e : Effect} (h : checked i (ruleOf i) a = .next e) :
    (legalIn i a.phase = true ∧ ruleOf i a = .next e) ∨ (legalIn i a.phase = false ∧ e.arch = a) ∨
    (legalIn i a.phase = false ∧ a.phase ≠ .err ∧ e.arch = withError a .protocolError) := by
  rcases checked_cases i (ruleOf i) a with ⟨hl, hc⟩ | ⟨hl, -, hc⟩ | ⟨hl, hp, hc⟩ <;> rw [hc] at h
  · exact .inl ⟨hl, h⟩
  · cases h; exact .inr (.inl ⟨hl, rfl⟩)
  · cases h; exact .inr (.inr ⟨hl, hp, rfl⟩)

theorem checked_writesOnly {i : Instr} {a : Arch} {e : Effect} (h : checked i (ruleOf i) a = .next e) (hi : i ≠ .clr) :
    WritesOnly i a e.arch := by
  rcases checked_next_cases h with ⟨-, h'⟩ | ⟨-, h'⟩ | ⟨-, -, h'⟩
  · exact ruleOf_writesOnly h' hi
  · rw [h']; exact .refl i a
  · rw [h']; exact (WritesOnly.refl i a).withError _

/-! ### Reads (45_system.md R137) -/

theorem legalIn_of_readsOnly {i : Instr} (h : readsOnly i = true) (p : Phase) : legalIn i p = true := by
  cases i
  case clr | cnt | build | derive | enc | encend | dec | decend => cases h
  all_goals cases p <;> rfl

/-- The registers 0 to 6 have a view. -/
theorem registerView_isSome {reg : BitVec 4} (h : reg ≤ 6#4) (a : Arch) : ∃ v, registerView a reg = some v := by
  have hr : reg.toNat ≤ 6 := h
  unfold registerView
  split
  case h_8 => simp only [imp_false] at *; omega
  all_goals exact ⟨_, rfl⟩

/-- The fields 0 to 2 have a view. -/
theorem nodeView_isSome {field : BitVec 2} (h : field ≠ 3#2) (a : Arch) (idx : NodeIdx) : ∃ v, nodeView a idx field = some v := by
  have hf : field.toNat ≠ 3 := fun hc => h (BitVec.eq_of_toNat_eq hc)
  have hlt := field.isLt
  unfold nodeView
  dsimp only
  split
  case h_4 => simp only [imp_false] at *; omega
  all_goals split <;> exact ⟨_, rfl⟩

theorem readout_arch_of_some {view : Arch → Option (BitVec 32)} {a : Arch} {e : Effect} {v : BitVec 32} (hv : view a = some v)
    (h : readout view a = .next e) : e.arch = a := by
  rw [readout, hv] at h
  cases h
  rfl

/-- A read that a word can name changes nothing. -/
theorem wellFormed_read_arch {i : Instr} {a : Arch} {e : Effect} (hr : readsOnly i = true) (hw : i.wellFormed = true)
    (h : ruleOf i a = .next e) : e.arch = a := by
  cases i
  case nop => cases h; rfl
  case rdr reg =>
    obtain ⟨v, hv⟩ := registerView_isSome (of_decide_eq_true hw) a
    exact readout_arch_of_some (view := (registerView · reg)) hv h
  case rdf x => cases h; rfl
  case rdl x => cases h; rfl
  case rdc x word => cases h; rfl
  case rdn idx field =>
    obtain ⟨v, hv⟩ := nodeView_isSome (of_decide_eq_true hw) a idx
    exact readout_arch_of_some (view := (nodeView · idx field)) hv h
  all_goals cases hr

/-- Settles O53: a command's effect, delivered, leaves the ports' other side alone, and the rule behind it keeps to its row of the
access table. -/
theorem commandsWriteOnlyTheirElements : Obligations.CommandsWriteOnlyTheirElements := by
  unfold Obligations.CommandsWriteOnlyTheirElements
  intro i s t h hi
  obtain ⟨e, he, rfl⟩ := exec_next h
  obtain ⟨counts, tree, code, writer, reader, error⟩ := checked_writesOnly he hi
  refine ⟨rfl, rfl, ?_, counts, tree, code, writer, reader, fun hr hw => ?_, error⟩
  · rw [State.deliver_delivered, List.append_assoc]
    exact List.prefix_append _ _
  · rw [checked_of_legal (legalIn_of_readsOnly hr _)] at he
    exact wellFormed_read_arch hr hw he

/-! ### A property of the block over one step -/

section StepKeeps

variable {P : Arch → Prop} (hreset : P Arch.reset)
  (hraise : ∀ a r, P a → a.phase ≠ .err → r = .protocolError ∨ r = .illegalCommand → P (withError a r))
  (hrule : ∀ i a e, P a → legalIn i a.phase = true → ruleOf i a = .next e → P e.arch)
include hraise hrule

theorem execWord_keeps {w : CmdWord} {s t : State} (hs : P s.arch) (h : execWord w s = .next t) : P t.arch := by
  rcases execWord_cases w s with ⟨i, -, hw⟩ | ⟨r, -, hw⟩ <;> rw [hw] at h
  · obtain ⟨e, he, rfl⟩ := exec_next h
    rcases checked_next_cases he with ⟨hl, h'⟩ | ⟨-, h'⟩ | ⟨-, hp, h'⟩
    · exact hrule i s.arch e hs hl h'
    · rw [State.deliver_arch, h']; exact hs
    · rw [State.deliver_arch, h']; exact hraise _ _ hs hp (.inl rfl)
  · cases h
    rw [State.deliver_arch]
    rcases illegal_arch_cases s.arch with h' | ⟨hp, h'⟩ <;> rw [h']
    · exact hs
    · exact hraise _ _ hs hp (.inr rfl)

include hreset

/-- What holds at reset, is kept by the errors of the checks and is kept by every command's rule where it is legal, is kept by
every step. -/
theorem step_keeps {s t : State} (hs : P s.arch) (h : step s = .next t) : P t.arch := by
  rcases step_cases h with ⟨-, rfl⟩ | ⟨w, rest, -, hw⟩ | ⟨rest, -, rfl⟩ | ⟨w, rest, -, rfl⟩
  · exact hs
  · exact execWord_keeps (s := { s with input := rest }) hraise hrule hs hw
  · exact hreset
  · exact hreset

end StepKeeps

/-! ### The canonical form of the memories (log entries 4 and 5) -/

theorem MemoriesOk.of_eq {a b : Arch} (h : MemoriesOk a) (hf : b.freq = a.freq) (hc : b.code = a.code) (hn : b.node = a.node)
    (hk : b.nnodes = a.nnodes) : MemoriesOk b :=
  ⟨hf ▸ h.freq, hc ▸ h.code, by rw [hn, hk]; exact h.node⟩

theorem memoriesOk_reset : MemoriesOk Arch.reset := ⟨rfl, rfl, rfl⟩

/-- Recording codes keeps CODE in canonical form. -/
theorem wf_foldl_recordCode (rs : List (Sym × Bits)) {a : Arch} (h : Memory.wf codeDefault Config.nsym a.code = true) :
    Memory.wf codeDefault Config.nsym (rs.foldl recordCode a).code = true := by
  induction rs generalizing a with
  | nil => exact h
  | cons r rs ih => exact ih (Arch.wf_setCode h _ _)

theorem wf_overrideSingle {a : Arch} (h : Memory.wf codeDefault Config.nsym a.code = true) :
    Memory.wf codeDefault Config.nsym (overrideSingle a).code = true := by
  unfold overrideSingle
  split
  · exact Arch.wf_setCode h _ _
  · exact h

theorem wf_derivedCode (rs : List (Sym × Bits)) {a : Arch} (h : Memory.wf codeDefault Config.nsym a.code = true) :
    Memory.wf codeDefault Config.nsym (derivedCode a rs) = true :=
  wf_overrideSingle (wf_foldl_recordCode rs h)

theorem leaves_length_le (a : Arch) : (leaves a).length ≤ 256 := by
  refine (List.length_filterMap_le _ _).trans ?_
  rw [List.length_range, Config.nsym]

theorem buildArena_length (ls : List Node) : (buildArena ls).length = ls.length + (ls.length - 1) := by
  rw [buildArena, mergeRoots_length _ _ _ (by rw [List.length_range]), List.length_range]

theorem memoriesOk_rule {i : Instr} {a : Arch} {e : Effect} (h : MemoriesOk a) (he : ruleOf i a = .next e) : MemoriesOk e.arch := by
  by_cases hi : i = .clr
  · subst hi
    cases he
    exact memoriesOk_reset
  have hw := ruleOf_writesOnly he hi
  by_cases hc : ∃ x, i = .cnt x
  · obtain ⟨x, rfl⟩ := hc
    rcases countRule_arch he with ⟨-, h'⟩ | ⟨-, h'⟩ <;> rw [h']
    · exact h.of_eq rfl rfl rfl rfl
    · exact ⟨Arch.wf_setFreq h.freq x _, h.code, h.node⟩
  by_cases hb : i = .build
  · subst hb
    rcases buildRule_arch he with ⟨-, h'⟩ | ⟨-, h'⟩ <;> rw [h']
    · exact h.of_eq rfl rfl rfl rfl
    · refine ⟨h.freq, h.code, ?_⟩
      have hlen := buildArena_length (leaves a)
      have hle := leaves_length_le a
      simp only [withArena, BitVec.toNat_ofNat]
      omega
  by_cases hd : i = .derive
  · subst hd
    obtain ⟨rs, -, h'⟩ := deriveRule_arch he
    rw [h']
    exact ⟨h.freq, wf_derivedCode rs h.code, h.node⟩
  obtain ⟨hnode, -, hnnodes, -⟩ := hw.tree hb
  exact h.of_eq (hw.counts fun x hx => hc ⟨x, hx⟩).2 (hw.code hd) hnode hnnodes

/-- Settles O56: only CNT, BUILD and DERIVE write the memories, each in canonical form; CLR and `rst` empty them. -/
theorem stepKeepsMemoryForm : Obligations.StepKeepsMemoryForm := by
  unfold Obligations.StepKeepsMemoryForm
  intro s t
  exact step_keeps memoriesOk_reset (fun a r h _ _ => h.of_eq rfl rfl rfl rfl) fun i a e h _ => memoriesOk_rule h

end Sys2Proof.Machine
end

section
/-! SUPPORT. The tree of 10_state.md R23 (items 4 to 7): its indices, that each node is reached from ROOT, and which symbols its leaves
hold; and the sum of FREQ (item 1). -/

namespace Sys2Proof.Machine

/-! ### Entries of an arena -/

theorem nodeAt_of_getElem? {ns : List Node} {i : Nat} {n : Node} (h : ns[i]? = some n) : nodeAt ns i = n := by
  simp [nodeAt, h]

theorem nodeAt_append_left {ns : List Node} {i : Nat} (h : i < ns.length) (l : List Node) : nodeAt (ns ++ l) i = nodeAt ns i := by
  simp [nodeAt, List.getElem?_append_left h]

theorem nodeAt_append_length (ns : List Node) (n : Node) : nodeAt (ns ++ [n]) ns.length = n :=
  nodeAt_of_getElem? (by simp)

/-- An internal node below which the arena is in order (item 5 of 10_state.md R23). -/
structure InnerOk (ns : List Node) (i : Nat) : Prop where
  inner : (nodeAt ns i).leaf = false
  noSym : (nodeAt ns i).sym = 0#8
  left_lt : (nodeAt ns i).left.toNat < i
  right_lt : (nodeAt ns i).right.toNat < i
  differ : (nodeAt ns i).left ≠ (nodeAt ns i).right
  weight : (nodeAt ns i).weight.toNat =
    (nodeAt ns (nodeAt ns i).left.toNat).weight.toNat + (nodeAt ns (nodeAt ns i).right.toNat).weight.toNat

/-- The child a bit selects comes earlier in the arena. -/
theorem InnerOk.child_lt {ns : List Node} {i : Nat} (h : InnerOk ns i) (b : Bool) :
    (if b then (nodeAt ns i).right else (nodeAt ns i).left).toNat < i := by
  cases b
  · exact h.left_lt
  · exact h.right_lt

/-- A walk goes one step on, to the child a bit selects. -/
theorem walk_snoc {ns : List Node} {r i : NodeIdx} {p : Bits} (hw : walk ns r p = some i) (hl : (nodeAt ns i.toNat).leaf = false)
    (b : Bool) :
    walk ns r (p ++ [b]) = some (if b then (nodeAt ns i.toNat).right else (nodeAt ns i.toNat).left) := by
  rw [walk_append, hw]
  simp [walk, hl]

/-! ### Symbols and counts -/

theorem mem_allSyms (x : Sym) : x ∈ allSyms :=
  List.mem_map.2 ⟨x.toNat, List.mem_range.2 x.isLt, by simp⟩

theorem allSyms_nodup : allSyms.Nodup := by
  refine List.nodup_range.map_on fun i hi j hj h => ?_
  have h' := congrArg BitVec.toNat h
  rw [List.mem_range] at hi hj
  rwa [BitVec.toNat_ofNat, BitVec.toNat_ofNat, Nat.mod_eq_of_lt hi, Nat.mod_eq_of_lt hj] at h'

theorem mem_distinctSyms {a : Arch} {x : Sym} : x ∈ distinctSyms a ↔ a.freqAt x ≠ 0#32 := by
  simp [distinctSyms, mem_allSyms]

theorem distinctSyms_length_le (a : Arch) : (distinctSyms a).length ≤ 256 :=
  (List.length_filter_le _ _).trans (by simp [allSyms])

/-- The count of `x` and the counts of the other symbols. -/
theorem freqSum_split (a : Arch) (x : Sym) :
    (a.freqAt x).toNat + ((allSyms.erase x).map fun y => (a.freqAt y).toNat).sum = freqSum a :=
  List.sum_map_erase (fun y => (a.freqAt y).toNat) (mem_allSyms x)

theorem freqAt_le_freqSum (a : Arch) (x : Sym) : (a.freqAt x).toNat ≤ freqSum a :=
  freqSum_split a x ▸ Nat.le_add_right _ _

/-- One more of `x`, where its count does not wrap, is one more in all. -/
theorem freqSum_succ {a b : Arch} {x : Sym} (hx : (a.freqAt x).toNat + 1 < 2 ^ 32)
    (h : ∀ y, b.freqAt y = if y = x then a.freqAt x + 1#32 else a.freqAt y) : freqSum b = freqSum a + 1 := by
  have hself : (b.freqAt x).toNat = (a.freqAt x).toNat + 1 := by
    rw [h x, if_pos rfl, BitVec.toNat_add_of_lt hx]
    rfl
  have hrest : (allSyms.erase x).map (fun y => (b.freqAt y).toNat) = (allSyms.erase x).map fun y => (a.freqAt y).toNat := by
    refine List.map_congr_left fun y hy => ?_
    rw [h y, if_neg ((allSyms_nodup.mem_erase_iff.1 hy).1)]
  rw [← freqSum_split b x, ← freqSum_split a x, hself, hrest]
  omega

/-! ### The tree -/

namespace TreeOk

variable {a : Arch}

/-- The tree depends on the counts and on the arena with its registers only. -/
theorem of_eq {b : Arch} (h : TreeOk a) (hf : b.freq = a.freq) (ht : b.total = a.total) (hn : b.node = a.node)
    (hl : b.nleaf = a.nleaf) (hk : b.nnodes = a.nnodes) (hr : b.root = a.root) : TreeOk b := by
  cases a
  cases b
  subst hf ht hn hl hk hr
  obtain ⟨someSym, nleaf, nnodes, root, leaf, inner, oneParent, rootWeight, weights⟩ := h
  exact ⟨someSym, nleaf, nnodes, root, leaf, inner, oneParent, rootWeight, weights⟩

variable (h : TreeOk a)
include h

theorem leafCount_pos : 0 < (distinctSyms a).length := List.length_pos_iff.2 h.someSym

theorem nnodes_eq_root_succ : a.nnodes.toNat = a.root.toNat + 1 := by
  have hk := h.leafCount_pos
  rw [h.nnodes, h.root]
  omega

theorem leafCount_le_nnodes : (distinctSyms a).length ≤ a.nnodes.toNat := by
  have hk := h.leafCount_pos
  rw [h.nnodes]
  omega

theorem innerOk {i : Nat} (hk : (distinctSyms a).length ≤ i) (hi : i < a.nnodes.toNat) : InnerOk a.node i := by
  obtain ⟨inner, noSym, left_lt, right_lt, differ, weight⟩ := h.inner i hk hi
  exact ⟨inner, noSym, left_lt, right_lt, differ, weight⟩

/-- An entry that is no leaf stands behind the leaves. -/
theorem innerOk_of_not_leaf {i : Nat} (hi : i ≤ a.root.toNat) (hl : (nodeAt a.node i).leaf = false) : InnerOk a.node i := by
  refine h.innerOk (Nat.le_of_not_lt fun hlt => ?_) (by rw [h.nnodes_eq_root_succ]; omega)
  rw [h.leaf i _ (List.getElem?_eq_getElem hlt)] at hl
  cases hl

/-- Walks from inside the tree stay inside. -/
theorem walk_le {i j : NodeIdx} {p : Bits} (hi : i.toNat ≤ a.root.toNat) (hw : walk a.node i p = some j) :
    j.toNat ≤ a.root.toNat := by
  induction p generalizing i with
  | nil => cases hw; exact hi
  | cons b p ih =>
    rw [walk] at hw
    split at hw
    · cases hw
    · next hl =>
      have hc := (h.innerOk_of_not_leaf hi (by simpa using hl)).child_lt b
      exact ih (by omega) hw

/-- Every node of the tree is reached from ROOT: going up from it, each parent has a larger index. -/
theorem exists_walk {n : Nat} (hn : n ≤ a.root.toNat) : ∃ p j, walk a.node a.root p = some j ∧ j.toNat = n := by
  induction hd : a.root.toNat - n using Nat.strong_induction_on generalizing n with
  | _ d ih =>
    by_cases hr : n = a.root.toNat
    · exact ⟨[], a.root, rfl, hr.symm⟩
    · obtain ⟨i, ⟨hk, hi, hchild⟩, -⟩ := h.oneParent n (by omega)
      have hin := h.innerOk hk hi
      have hlt : n < i := by
        rcases hchild with hc | hc <;> rw [← hc]
        · exact hin.left_lt
        · exact hin.right_lt
      have hroot := h.nnodes_eq_root_succ
      obtain ⟨p, j, hw, rfl⟩ := ih (a.root.toNat - i) (by omega) (by omega) rfl
      rcases hchild with hc | hc
      · exact ⟨p ++ [false], _, walk_snoc hw hin.inner false, hc⟩
      · exact ⟨p ++ [true], _, walk_snoc hw hin.inner true, hc⟩

/-- A counted symbol has a leaf. -/
theorem exists_leaf {x : Sym} (hx : a.freqAt x ≠ 0#32) : ∃ n, n ≤ a.root.toNat ∧ nodeAt a.node n = leafOf a x := by
  obtain ⟨n, hn, hget⟩ := List.getElem_of_mem (mem_distinctSyms.2 hx)
  have hle := h.leafCount_le_nnodes
  have hroot := h.nnodes_eq_root_succ
  exact ⟨n, by omega, h.leaf n x (by rw [List.getElem?_eq_getElem hn, hget])⟩

/-- A leaf's symbol was counted. -/
theorem freqAt_leaf {n : Nat} (hn : n ≤ a.root.toNat) (hl : (nodeAt a.node n).leaf = true) :
    a.freqAt (nodeAt a.node n).sym ≠ 0#32 := by
  by_cases hk : n < (distinctSyms a).length
  · rw [h.leaf n _ (List.getElem?_eq_getElem hk)]
    exact mem_distinctSyms.1 (List.getElem_mem hk)
  · have hroot := h.nnodes_eq_root_succ
    rw [(h.innerOk (Nat.le_of_not_lt hk) (by omega)).inner] at hl
    cases hl

end TreeOk

end Sys2Proof.Machine
end

section
/-! SUPPORT. The invariants of 10_state.md R23 at reset, after an error, under CNT, and under the commands of the streams. -/

namespace Sys2Proof.Machine

/-! ### Reset and errors -/

theorem freqSum_reset : freqSum Arch.reset = 0 := by
  simp [freqSum, Arch.freqAt, Arch.reset, Memory.read, freqDefault]

theorem inv_reset : Inv Arch.reset where
  memories := memoriesOk_reset
  total := freqSum_reset.symm
  errPhase := by decide
  errRaised := by decide
  noTree _ := ⟨rfl, rfl, fun _ => rfl⟩
  countPhase _ := rfl
  treePhases := by decide
  tree h := absurd rfl h
  codes h := by rcases h with h | h | h <;> cases h
  noCodes _ _ := rfl
  codesInErr h := by cases h
  writer n _ := by simp [Arch.reset]
  writerIdle _ _ := ⟨rfl, rfl⟩
  emitted := Nat.le_refl 0
  cursor := by decide

/-- Settles O54. -/
theorem invariantsHoldAtReset : Obligations.InvariantsHoldAtReset := inv_reset

/-- An error HUFFCORE can raise (60_exceptions.md R141). -/
def Raised (r : ErrorCode) : Prop := r ≠ .none ∧ r ≠ .notFound ∧ r ≠ .ioFailure

/-- The codes there are outside phase ERR: none before DERIVE, those of the tree after it (item 8). -/
theorem Inv.noCodes_or_codesOk {a : Arch} (h : Inv a) (hp : a.phase ≠ .err) : NoCodes a ∨ (a.nnodes ≠ 0#10 ∧ CodesOk a) := by
  cases hph : a.phase
  case count => exact .inl (h.noTree (h.countPhase hph)).2.2
  case tree => exact .inl (h.noCodes hph)
  case ready => exact .inr ⟨h.treePhases (by simp [hph]), h.codes (by simp [hph])⟩
  case enc => exact .inr ⟨h.treePhases (by simp [hph]), h.codes (by simp [hph])⟩
  case dec => exact .inr ⟨h.treePhases (by simp [hph]), h.codes (by simp [hph])⟩
  case err => exact absurd hph hp

/-- Error entry keeps the invariants (60_exceptions.md R150). -/
theorem Inv.withError {a : Arch} (h : Inv a) (hp : a.phase ≠ .err) {r : ErrorCode} (hr : Raised r) : Inv (withError a r) where
  memories := h.memories.of_eq rfl rfl rfl rfl
  total := h.total
  errPhase := iff_of_true hr.1 rfl
  errRaised := hr.2
  noTree := h.noTree
  countPhase hc := by cases hc
  treePhases hc := by rcases hc with hc | hc | hc | hc <;> cases hc
  tree hn := (h.tree hn).of_eq rfl rfl rfl rfl rfl rfl
  codes hc := by rcases hc with hc | hc | hc <;> cases hc
  noCodes hc := by cases hc
  codesInErr _ := h.noCodes_or_codesOk hp
  writer := h.writer
  writerIdle _ he := absurd rfl he
  emitted := h.emitted
  cursor hc := by cases hc

/-! ### CNT -/

/-- In phase COUNT nothing but FREQ and TOTAL is written, and the sum stays in step (41_frequency.md R91, R92). -/
theorem Inv.count {a : Arch} (h : Inv a) (hp : a.phase = .count) (x : Sym) (hmax : a.total ≠ Config.cntMax) :
    Inv { a.setFreq x (a.freqAt x + 1#32) with total := a.total + 1#32 } := by
  have hn := h.countPhase hp
  have hlt : a.total.toNat + 1 < 2 ^ 32 := by
    have hne : a.total.toNat ≠ 4294967295 := fun hc => hmax (BitVec.eq_of_toNat_eq hc)
    have := a.total.isLt
    omega
  have htotal : (a.total + 1#32).toNat = a.total.toNat + 1 := BitVec.toNat_add_of_lt hlt
  have hle : a.total.toNat ≤ (a.total + 1#32).toNat := by omega
  have hx : (a.freqAt x).toNat ≤ a.total.toNat := h.total ▸ freqAt_le_freqSum a x
  have hsum : freqSum { a.setFreq x (a.freqAt x + 1#32) with total := a.total + 1#32 } = freqSum a + 1 :=
    freqSum_succ (by omega) fun y => Arch.freqAt_setFreq h.memories.freq x y _
  exact
    { memories := ⟨Arch.wf_setFreq h.memories.freq x _, h.memories.code, h.memories.node⟩
      total := by rw [hsum, ← h.total]; exact htotal
      errPhase := h.errPhase
      errRaised := h.errRaised
      noTree := h.noTree
      countPhase := h.countPhase
      treePhases := h.treePhases
      tree := fun hc => absurd hn hc
      codes := fun hc => absurd hn (h.treePhases (.inr hc))
      noCodes := h.noCodes
      codesInErr := fun hc => by cases hp.symm.trans hc
      writer := h.writer
      writerIdle := h.writerIdle
      emitted := h.emitted.trans hle
      cursor := fun hc => by cases hp.symm.trans hc }

theorem inv_countRule {x : Sym} {a : Arch} {e : Effect} (h : Inv a) (hp : a.phase = .count) (he : countRule x a = .next e) :
    Inv e.arch := by
  rcases countRule_arch he with ⟨-, h'⟩ | ⟨hmax, h'⟩ <;> rw [h']
  · exact h.withError (by simp [hp]) (by simp [Raised])
  · exact h.count hp x hmax

/-! ### Streams -/

/-- A phase in which the tree and its codes exist. -/
def Derived (p : Phase) : Prop := p = .ready ∨ p = .enc ∨ p = .dec

theorem Derived.ne_err {p : Phase} (h : Derived p) : p ≠ .err := by
  rcases h with rfl | rfl | rfl <;> decide

/-- Once the codes are derived, a command that writes only PHASE and the registers of the streams keeps the invariants, if the
registers are right for the phase it leaves. -/
theorem Inv.withStream {a : Arch} (h : Inv a) (hp : Derived a.phase) {p : Phase} {w : BitVec 8} {n : BitVec 3} {i : NodeIdx}
    {m : Count} (hp' : Derived p) (writer : ∀ k, n.toNat ≤ k → w.getMsbD k = false)
    (writerIdle : p ≠ .enc → n = 0#3 ∧ w = 0#8) (emitted : m.toNat ≤ a.total.toNat)
    (cursor : p = .dec → i.toNat ≤ a.root.toNat ∧ (i = a.root ∨ (a.nodeAt i).leaf = false)) :
    Inv { a with phase := p, wacc := w, wcnt := n, cur := i, emitted := m } := by
  have hn : a.nnodes ≠ 0#10 := h.treePhases (.inr hp)
  have herr : a.err = .none := by
    by_contra hc
    exact hp.ne_err (h.errPhase.1 hc)
  exact
    { memories := h.memories.of_eq rfl rfl rfl rfl
      total := h.total
      errPhase := iff_of_false (fun hc => hc herr) hp'.ne_err
      errRaised := h.errRaised
      noTree := h.noTree
      countPhase := fun hc => by rcases hp' with hp' | hp' | hp' <;> cases hp'.symm.trans hc
      treePhases := fun _ => hn
      tree := fun hn => (h.tree hn).of_eq rfl rfl rfl rfl rfl rfl
      codes := fun _ => h.codes hp
      noCodes := fun hc => by rcases hp' with hp' | hp' | hp' <;> cases hp'.symm.trans hc
      codesInErr := fun hc => absurd hc hp'.ne_err
      writer := writer
      writerIdle := fun hc _ => writerIdle hc
      emitted := emitted
      cursor := cursor }

theorem emptyWriter_clean (k : Nat) (_ : (0#3).toNat ≤ k) : (0#8).getMsbD k = false := BitVec.getMsbD_zero

/-! ### ENC and ENCEND -/

/-- An encode stream is open with the writer in order. -/
theorem Inv.withWriter {a : Arch} (h : Inv a) (hp : Derived a.phase) {w : BitVec 8} {n : BitVec 3}
    (writer : ∀ k, n.toNat ≤ k → w.getMsbD k = false) : Inv { a with wacc := w, wcnt := n, phase := .enc } :=
  h.withStream hp (.inr (.inl rfl)) writer (fun hc => absurd rfl hc) h.emitted fun hc => by cases hc

theorem inv_startEncode {a : Arch} (h : Inv a) (hp : a.phase = .ready ∨ a.phase = .enc) :
    Inv (startEncode a) ∧ (startEncode a).phase = .enc := by
  rcases startEncode_eq hp with ⟨hp, hs⟩ | ⟨hp, hs⟩ <;> rw [hs]
  · exact ⟨h.withWriter (.inl hp) emptyWriter_clean, rfl⟩
  · exact ⟨h, hp⟩

theorem inv_foldl_writeBit {c : Busy} (h : Inv c.arch) (hp : c.arch.phase = .enc) (q : Bits) : Inv (q.foldl writeBit c).arch := by
  obtain ⟨hclean, ⟨w, n, hq⟩, -⟩ := writeBits_bits q c h.writer
  rw [hq] at hclean ⊢
  have hinv := h.withWriter (.inr (.inl hp)) hclean
  rwa [← hp] at hinv

theorem inv_encodeRule {x : Sym} {a : Arch} {e : Effect} (h : Inv a) (hp : a.phase = .ready ∨ a.phase = .enc)
    (he : encodeRule x a = .next e) : Inv e.arch := by
  obtain ⟨hs, hps⟩ := inv_startEncode h hp
  rcases encodeRule_arch he with ⟨q, h'⟩ | h' <;> rw [h']
  · exact inv_foldl_writeBit hs hps q
  · have hclosed := hs.withWriter (.inr (.inl hps)) emptyWriter_clean
    rw [← hps] at hclosed
    exact hclosed.withError (by simp [hps]) (by simp [Raised])

theorem inv_encodeEndRule {a : Arch} {e : Effect} (h : Inv a) (hp : a.phase = .ready ∨ a.phase = .enc)
    (he : encodeEndRule a = .next e) : Inv e.arch := by
  rw [encodeEndRule_arch he]
  have hd : Derived a.phase := by rcases hp with hp | hp <;> simp [Derived, hp]
  exact h.withStream hd (.inl rfl) emptyWriter_clean (fun _ => ⟨rfl, rfl⟩) h.emitted fun hc => by cases hc

/-! ### DEC and DECEND -/

/-- Where the decoder may stand and how much it may have emitted in the tree of `a` (item 10). -/
def ReaderOk (a : Arch) (i : NodeIdx) (m : Count) : Prop :=
  m.toNat ≤ a.total.toNat ∧ i.toNat ≤ a.root.toNat ∧ (i = a.root ∨ (a.nodeAt i).leaf = false)

theorem readerOk_root {a : Arch} {m : Count} (h : m.toNat ≤ a.total.toNat) : ReaderOk a a.root m :=
  ⟨h, Nat.le_refl _, .inl rfl⟩

/-- A decode stream is open, or ended or not begun, with the reader in order. -/
theorem Inv.withReader {a : Arch} (h : Inv a) (hp : a.phase = .ready ∨ a.phase = .dec) {p : Phase} (hp' : p = .ready ∨ p = .dec)
    {i : NodeIdx} {m : Count} (hr : ReaderOk a i m) : Inv { a with cur := i, emitted := m, phase := p } := by
  obtain ⟨hidle, hw⟩ := h.writerIdle (by rcases hp with hp | hp <;> simp [hp]) (by rcases hp with hp | hp <;> simp [hp])
  refine h.withStream (by rcases hp with hp | hp <;> simp [Derived, hp]) (by rcases hp' with hp | hp <;> simp [Derived, hp])
    h.writer (fun _ => ⟨hidle, hw⟩) hr.1 fun _ => hr.2

theorem inv_startDecode {a : Arch} (h : Inv a) (hp : a.phase = .ready ∨ a.phase = .dec) :
    Inv (startDecode a) ∧ (startDecode a).phase = a.phase ∧ ReaderOk (startDecode a) (startDecode a).cur (startDecode a).emitted := by
  rcases startDecode_eq hp with ⟨-, hs⟩ | ⟨hd, hs⟩ <;> rw [hs]
  · have hroot : ReaderOk a a.root 0#32 := readerOk_root (Nat.zero_le _)
    exact ⟨h.withReader hp hp hroot, rfl, hroot⟩
  · exact ⟨h, rfl, h.emitted, h.cursor hd⟩

theorem emitted_succ_le {m n : Count} (h : m.toNat ≤ n.toNat) (hne : m ≠ n) : (m + 1#32).toNat ≤ n.toNat := by
  have hne' : m.toNat ≠ n.toNat := fun hc => hne (BitVec.eq_of_toNat_eq hc)
  have := n.isLt
  rw [BitVec.toNat_add_of_lt (by simp only [BitVec.toNat_ofNat]; omega)]
  simp only [BitVec.toNat_ofNat]
  omega

/-- One decoder step keeps the invariants of a decode stream: EMITTED stops at TOTAL, and CUR goes back to ROOT or down to a node
that is no leaf (44_codec.md R121). -/
theorem inv_decodeBit {c : Busy} (h : Inv c.arch) (hp : c.arch.phase = .dec) (b : Bool) :
    Inv (decodeBit c b).arch ∧ (decodeBit c b).arch.phase = .dec := by
  obtain ⟨hcur, hat⟩ := h.cursor hp
  have htree := h.tree (h.treePhases (by simp [hp]))
  have hkeep {i : NodeIdx} {m : Count} (hr : ReaderOk c.arch i m) : Inv { c.arch with cur := i, emitted := m } :=
    h.withReader (.inr hp) (.inr hp) hr
  rcases decodeBit_cases c b with ⟨-, h'⟩ | ⟨hne, -, h'⟩ | ⟨hne, hroot, n, hn, ⟨-, h'⟩ | ⟨hinner, h'⟩⟩ <;> rw [h']
  · exact ⟨h, hp⟩
  · exact ⟨hkeep ⟨emitted_succ_le h.emitted hne, hcur, hat⟩, hp⟩
  · exact ⟨hkeep (readerOk_root (emitted_succ_le h.emitted hne)), hp⟩
  · have hcurInner : (c.arch.nodeAt c.arch.cur).leaf = false := hat.elim (fun he => he ▸ hroot) id
    have hlt : n.toNat < c.arch.cur.toNat := hn ▸ (htree.innerOk_of_not_leaf hcur hcurInner).child_lt b
    exact ⟨hkeep ⟨h.emitted, by omega, .inr hinner⟩, hp⟩

theorem inv_foldl_decodeBit (q : Bits) {c : Busy} (h : Inv c.arch) (hp : c.arch.phase = .dec) : Inv (q.foldl decodeBit c).arch := by
  induction q generalizing c with
  | nil => exact h
  | cons b q ih =>
    obtain ⟨h', hp'⟩ := inv_decodeBit h hp b
    exact ih h' hp'

theorem inv_decodeRule {b : BitVec 8} {a : Arch} {e : Effect} (h : Inv a) (hp : a.phase = .ready ∨ a.phase = .dec)
    (he : decodeRule b a = .next e) : Inv e.arch := by
  obtain ⟨hs, hps, hr⟩ := inv_startDecode h hp
  rw [decodeRule_arch he]
  exact inv_foldl_decodeBit _ (hs.withReader (hps ▸ hp) (.inr rfl) hr) rfl

theorem inv_decodeEndRule {a : Arch} {e : Effect} (h : Inv a) (hp : a.phase = .ready ∨ a.phase = .dec)
    (he : decodeEndRule a = .next e) : Inv e.arch := by
  obtain ⟨hs, hps, hr⟩ := inv_startDecode h hp
  have hne : (startDecode a).phase ≠ .err := by rcases hp with hp | hp <;> simp [hps, hp]
  rcases decodeEndRule_arch he with h' | h' | h' <;> rw [h']
  · exact hs.withReader (hps ▸ hp) (.inl rfl) hr
  · exact hs.withError hne (by simp [Raised])
  · exact hs.withError hne (by simp [Raised])

end Sys2Proof.Machine
end

section
/-! SUPPORT. DERIVE keeps the invariants: the codes it records are those of 43_code_table.md R107. -/

namespace Sys2Proof.Machine

/-- After recording `rs`, a symbol has the code of one of its records, or, when it has none, the entry it had. -/
theorem codeAt_foldl_recordCode (rs : List (Sym × Bits)) {a : Arch} (hwf : Memory.wf codeDefault Config.nsym a.code = true) (x : Sym) :
    (∃ q, (x, q) ∈ rs ∧ (rs.foldl recordCode a).codeAt x = CodeEntry.ofPath q) ∨
    ((∀ q, (x, q) ∉ rs) ∧ (rs.foldl recordCode a).codeAt x = a.codeAt x) := by
  induction rs generalizing a with
  | nil => exact .inr ⟨fun _ => List.not_mem_nil, rfl⟩
  | cons r rs ih =>
    obtain ⟨y, p⟩ := r
    rw [List.foldl_cons]
    rcases ih (a := recordCode a (y, p)) (Arch.wf_setCode hwf _ _) with ⟨q, hq, h⟩ | ⟨hnone, h⟩
    · exact .inl ⟨q, List.mem_cons_of_mem _ hq, h⟩
    · rw [h, recordCode, Arch.codeAt_setCode hwf]
      by_cases hx : x = y
      · exact .inl ⟨p, by rw [hx]; exact List.mem_cons_self, if_pos hx⟩
      · exact .inr ⟨fun q hq => (List.mem_cons.1 hq).elim (fun he => hx (congrArg Prod.fst he)) (hnone q), if_neg hx⟩

/-- A single node is a leaf. -/
theorem TreeOk.leaf_of_single {a : Arch} (ht : TreeOk a) (hn : a.nnodes = 1#10) : a.root.toNat = 0 ∧ (nodeAt a.node 0).leaf = true := by
  have hroot : a.root.toNat = 0 := by
    have := ht.nnodes_eq_root_succ
    simp [hn] at this
    exact this
  refine ⟨hroot, ?_⟩
  by_contra hl
  exact Nat.not_lt_zero _ (ht.innerOk_of_not_leaf (i := 0) (by omega) (by simpa using hl)).left_lt

section Derive

variable {a : Arch} {rs : List (Sym × Bits)} (h : Inv a) (ht : TreeOk a) (hno : NoCodes a)
  (hrs : visit a.node Config.codeLenMax a.root [] = some rs)
include h ht hrs

/-- The recorded code of a counted symbol is a path from ROOT to its leaf: there is one, and only such paths are recorded. -/
theorem recorded_of_counted {x : Sym} (hx : a.freqAt x ≠ 0#32) :
    ∃ p, (rs.foldl recordCode a).codeAt x = CodeEntry.ofPath p ∧
      ∃ i, walk a.node a.root p = some i ∧ (a.nodeAt i).leaf = true ∧ (a.nodeAt i).sym = x := by
  obtain ⟨n, hn, hleaf⟩ := ht.exists_leaf hx
  obtain ⟨p, j, hw, rfl⟩ := ht.exists_walk hn
  have hmem : (x, p) ∈ rs := (visit_mem hrs x p).2 ⟨p, j, rfl, hw, by rw [hleaf]; rfl, by rw [hleaf]; rfl⟩
  rcases codeAt_foldl_recordCode rs h.memories.code x with ⟨q, hq, hcode⟩ | ⟨hnone, -⟩
  · obtain ⟨r, i, rfl, hi⟩ := (visit_mem hrs x q).1 hq
    exact ⟨_, hcode, i, hi⟩
  · exact absurd hmem (hnone p)

include hno

/-- Nothing is recorded for a symbol that was not counted. -/
theorem not_recorded_of_uncounted {x : Sym} (hx : a.freqAt x = 0#32) : (rs.foldl recordCode a).codeAt x = codeDefault := by
  rcases codeAt_foldl_recordCode rs h.memories.code x with ⟨q, hq, -⟩ | ⟨-, hcode⟩
  · obtain ⟨r, i, -, hw, hl, rfl⟩ := (visit_mem hrs x q).1 hq
    exact absurd hx (ht.freqAt_leaf (ht.walk_le (Nat.le_refl _) hw) hl)
  · exact hcode.trans (hno x)

/-- The single leaf's override, in its arena (43_code_table.md R108). -/
theorem codeAt_derived_of_single (hn : a.nnodes = 1#10) (x : Sym) :
    (a.freqAt x = 0#32 → (overrideSingle (rs.foldl recordCode a)).codeAt x = codeDefault) ∧
    (a.freqAt x ≠ 0#32 → (nodeAt a.node 0).sym = x ∧
      (overrideSingle (rs.foldl recordCode a)).codeAt x = CodeEntry.ofPath [true]) := by
  obtain ⟨hroot, hleaf⟩ := ht.leaf_of_single hn
  have hover : overrideSingle (rs.foldl recordCode a) =
      (rs.foldl recordCode a).setCode (nodeAt a.node 0).sym (CodeEntry.ofPath [true]) := by
    obtain ⟨c, hc⟩ := foldl_recordCode_arch rs a
    rw [hc, overrideSingle, if_pos hn]
    rfl
  rw [hover, Arch.codeAt_setCode (wf_foldl_recordCode rs h.memories.code)]
  refine ⟨fun hx => ?_, fun hx => ?_⟩
  · have hne : x ≠ (nodeAt a.node 0).sym := fun he => ht.freqAt_leaf (n := 0) (by omega) hleaf (he ▸ hx)
    rw [if_neg hne]
    exact not_recorded_of_uncounted h ht hno hrs hx
  · obtain ⟨n, hle, hnode⟩ := ht.exists_leaf hx
    obtain rfl : n = 0 := by omega
    have hsym : (nodeAt a.node 0).sym = x := by rw [hnode]; rfl
    exact ⟨hsym, if_pos hsym.symm⟩

/-- The code table DERIVE leaves is the one of 43_code_table.md R107. -/
theorem codesOk_derived : CodesOk { a with code := derivedCode a rs, phase := .ready } := by
  intro x
  have hcode : ({ a with code := derivedCode a rs, phase := .ready } : Arch).codeAt x =
      (overrideSingle (rs.foldl recordCode a)).codeAt x := rfl
  rw [hcode]
  by_cases hn : a.nnodes = 1#10
  · obtain ⟨hzero, hpos⟩ := codeAt_derived_of_single h ht hno hrs hn x
    split
    · next hx => exact hzero hx
    · next hx =>
      obtain ⟨hsym, hc⟩ := hpos hx
      exact ⟨[true], by rw [IsCode, if_pos hn]; exact ⟨hsym, rfl⟩, hc⟩
  · have hover : overrideSingle (rs.foldl recordCode a) = rs.foldl recordCode a := by
      obtain ⟨c, hc⟩ := foldl_recordCode_arch rs a
      rw [hc, overrideSingle, if_neg hn]
    rw [hover]
    split
    · next hx => exact not_recorded_of_uncounted h ht hno hrs hx
    · next hx =>
      obtain ⟨p, hc, hp⟩ := recorded_of_counted h ht hrs hx
      exact ⟨p, by rw [IsCode, if_neg hn]; exact hp, hc⟩

end Derive

theorem inv_deriveRule {a : Arch} {e : Effect} (h : Inv a) (hp : a.phase = .tree) (he : deriveRule a = .next e) : Inv e.arch := by
  obtain ⟨rs, hrs, h'⟩ := deriveRule_arch he
  have hn : a.nnodes ≠ 0#10 := h.treePhases (.inl hp)
  rw [h']
  exact
    { memories := ⟨h.memories.freq, wf_derivedCode rs h.memories.code, h.memories.node⟩
      total := h.total
      errPhase := iff_of_false (fun hc => by cases hp.symm.trans (h.errPhase.1 hc)) (by simp)
      errRaised := h.errRaised
      noTree := fun hc => absurd hc hn
      countPhase := fun hc => by cases hc
      treePhases := fun _ => hn
      tree := fun _ => (h.tree hn).of_eq rfl rfl rfl rfl rfl rfl
      codes := fun _ => codesOk_derived h (h.tree hn) (h.noCodes hp) hrs
      noCodes := fun hc => by cases hc
      codesInErr := fun hc => by cases hc
      writer := h.writer
      writerIdle := fun _ _ => h.writerIdle (by simp [hp]) (by simp [hp])
      emitted := h.emitted
      cursor := fun hc => by cases hc }

end Sys2Proof.Machine
end

section
/-! SUPPORT. BUILD keeps the invariants: what every merge of 42_tree_build.md R97 part 3 keeps of the forest, from the leaves to the
tree; and the invariants over a step. -/

namespace Sys2Proof.Machine

/-! ### The forest between merges (42_tree_build.md R95, R97, R100, R101) -/

/-- A node's weight as a natural number. -/
def weightAt (ns : List Node) (i : Nat) : Nat := (nodeAt ns i).weight.toNat

theorem weightAt_append_left {ns : List Node} {i : Nat} (h : i < ns.length) (l : List Node) :
    weightAt (ns ++ l) i = weightAt ns i := by
  rw [weightAt, nodeAt_append_left h, weightAt]

/-- What holds of the arena and the roots left between two merges over `k` leaves of total weight `total`. -/
structure ForestOk (k total : Nat) (ns : List Node) (forest : List Nat) : Prop where
  nodup : forest.Nodup
  bound : ∀ i ∈ forest, i < ns.length
  /-- the newest node is a root. -/
  newest : ns.length - 1 ∈ forest
  leafCount : k ≤ ns.length
  /-- each merge writes one node and takes one root away. -/
  size : ns.length + forest.length = 2 * k
  sum : (forest.map (weightAt ns)).sum = total
  inner : ∀ i, k ≤ i → i < ns.length → InnerOk ns i
  orphan : ∀ j ∈ forest, ∀ i, k ≤ i → i < ns.length → ¬ ChildOf ns j i
  oneParent : ∀ j < ns.length, j ∉ forest → ∃! i, k ≤ i ∧ i < ns.length ∧ ChildOf ns j i
  /-- 42_tree_build.md R100. -/
  monotone : ∀ i, k ≤ i → i + 1 < ns.length → weightAt ns i ≤ weightAt ns (i + 1)
  /-- why the weights are monotone: whatever is merged next is as heavy as every merge before. -/
  heavy : ∀ n, k ≤ n → n < ns.length → ∀ i ∈ forest, ∀ j ∈ forest, i ≠ j → weightAt ns n ≤ weightAt ns i + weightAt ns j

/-- The two roots a merge takes: two lightest ones. -/
structure TwoLightest (ns : List Node) (forest : List Nat) (first second : Nat) : Prop where
  first_mem : first ∈ forest
  second_mem : second ∈ forest
  differ : first ≠ second
  first_le : weightAt ns first ≤ weightAt ns second
  second_le : ∀ i ∈ forest, i ≠ first → i ≠ second → weightAt ns second ≤ weightAt ns i

theorem PriorTo.weightAt_le {ns : List Node} {i j : Nat} (h : PriorTo ns i j) : weightAt ns i ≤ weightAt ns j := by
  rcases h with h | ⟨h, -⟩
  · exact Nat.le_of_lt h
  · exact Nat.le_of_eq (congrArg BitVec.toNat h)

theorem twoLightest_of_leastRoot {ns : List Node} {forest : List Nat} {first second : Nat} (hd : forest.Nodup)
    (h1 : leastRoot ns forest = some first) (h2 : leastRoot ns (forest.erase first) = some second) :
    TwoLightest ns forest first second := by
  obtain ⟨hm1, hmin1⟩ := leastRoot_spec h1
  obtain ⟨hm2, hmin2⟩ := leastRoot_spec h2
  obtain ⟨hne, hm2⟩ := hd.mem_erase_iff.1 hm2
  exact
    { first_mem := hm1
      second_mem := hm2
      differ := hne.symm
      first_le := (hmin1 second hm2 hne).weightAt_le
      second_le := fun i hi hi1 hi2 => (hmin2 i (hd.mem_erase_iff.2 ⟨hi1, hi⟩) hi2).weightAt_le }

/-! ### One merge -/

/-- The arena after a merge. -/
def mergedArena (ns : List Node) (first second : Nat) : List Node := ns ++ [joinNode ns first second]

/-- The roots left after a merge that writes the node `n`. -/
def mergedForest (n : Nat) (forest : List Nat) (first second : Nat) : List Nat := (forest.erase first).erase second ++ [n]

section Merge

variable {k total : Nat} {ns : List Node} {forest : List Nat} {first second : Nat} (h : ForestOk k total ns forest)
  (hm : TwoLightest ns forest first second) (hk : k ≤ 256) (ht : total < 2 ^ 32)

theorem mergedArena_length : (mergedArena ns first second).length = ns.length + 1 := by simp [mergedArena]

theorem nodeAt_merged_old {i : Nat} (hi : i < ns.length) : nodeAt (mergedArena ns first second) i = nodeAt ns i :=
  nodeAt_append_left hi _

theorem nodeAt_merged_new : nodeAt (mergedArena ns first second) ns.length = joinNode ns first second :=
  nodeAt_append_length _ _

theorem weightAt_merged_old {i : Nat} (hi : i < ns.length) : weightAt (mergedArena ns first second) i = weightAt ns i :=
  weightAt_append_left hi _

theorem childOf_merged_old {i j : Nat} (hi : i < ns.length) : ChildOf (mergedArena ns first second) j i ↔ ChildOf ns j i := by
  rw [ChildOf, nodeAt_merged_old hi, ChildOf]

include h

theorem mem_mergedForest {i : Nat} :
    i ∈ mergedForest ns.length forest first second ↔ i = ns.length ∨ (i ∈ forest ∧ i ≠ first ∧ i ≠ second) := by
  rw [mergedForest, List.mem_append, List.mem_singleton, (h.nodup.erase _).mem_erase_iff, h.nodup.mem_erase_iff]
  tauto

include hm

theorem mergedForest_length : (mergedForest ns.length forest first second).length + 1 = forest.length := by
  have hm2 : second ∈ forest.erase first := h.nodup.mem_erase_iff.2 ⟨hm.differ.symm, hm.second_mem⟩
  have hpos := List.length_pos_of_mem hm.first_mem
  have hpos2 := List.length_pos_of_mem hm2
  have hl := List.length_erase_of_mem hm.first_mem
  have hl2 := List.length_erase_of_mem hm2
  rw [mergedForest, List.length_append, List.length_singleton]
  omega

/-- The weights of the two roots and of the others. -/
theorem sum_split :
    weightAt ns first + weightAt ns second + (((forest.erase first).erase second).map (weightAt ns)).sum = total := by
  have hm2 : second ∈ forest.erase first := h.nodup.mem_erase_iff.2 ⟨hm.differ.symm, hm.second_mem⟩
  rw [Nat.add_assoc, List.sum_map_erase (weightAt ns) hm2, List.sum_map_erase (weightAt ns) hm.first_mem, h.sum]

include ht in
/-- The sum of two roots' weights does not wrap (42_tree_build.md R101). -/
theorem weightAt_merged_new :
    weightAt (mergedArena ns first second) ns.length = weightAt ns first + weightAt ns second := by
  have hsum := sum_split h hm
  rw [weightAt, nodeAt_merged_new, joinNode]
  exact BitVec.toNat_add_of_lt (by simp only [weightAt] at hsum; omega)

include hk in
/-- The new node's children are the two roots. -/
theorem joinNode_children : (joinNode ns first second).left.toNat = first ∧ (joinNode ns first second).right.toNat = second := by
  have hlen := mergedForest_length h hm
  have hsize := h.size
  have h1 := h.bound first hm.first_mem
  have h2 := h.bound second hm.second_mem
  simp only [joinNode, BitVec.toNat_ofNat]
  omega

include hk in
theorem childOf_merged_new {j : Nat} : ChildOf (mergedArena ns first second) j ns.length ↔ first = j ∨ second = j := by
  obtain ⟨hl, hr⟩ := joinNode_children h hm hk
  rw [ChildOf, nodeAt_merged_new, hl, hr]

include hk ht in
theorem innerOk_merged {i : Nat} (hi : k ≤ i) (hlt : i < ns.length + 1) : InnerOk (mergedArena ns first second) i := by
  rcases Nat.lt_succ_iff_lt_or_eq.1 hlt with hold | rfl
  · obtain ⟨inner, noSym, left_lt, right_lt, differ, weight⟩ := h.inner i hi hold
    have hn : nodeAt (mergedArena ns first second) i = nodeAt ns i := nodeAt_merged_old hold
    constructor <;> rw [hn]
    case weight => rw [nodeAt_merged_old (by omega), nodeAt_merged_old (by omega), weight]
    all_goals assumption
  · obtain ⟨hl, hr⟩ := joinNode_children h hm hk
    have h1 := h.bound first hm.first_mem
    have h2 := h.bound second hm.second_mem
    constructor <;> rw [nodeAt_merged_new]
    case inner => rfl
    case noSym => rfl
    case left_lt => rwa [hl]
    case right_lt => rwa [hr]
    case differ =>
      intro he
      have he' := congrArg BitVec.toNat he
      rw [hl, hr] at he'
      exact hm.differ he'
    case weight =>
      rw [hl, hr, nodeAt_merged_old h1, nodeAt_merged_old h2, ← nodeAt_merged_new]
      exact weightAt_merged_new h hm ht

include hk in
theorem orphan_merged {i j : Nat} (hj : j ∈ mergedForest ns.length forest first second) (hi : k ≤ i) (hlt : i < ns.length + 1) :
    ¬ ChildOf (mergedArena ns first second) j i := by
  have hj' := (mem_mergedForest h).1 hj
  rcases Nat.lt_succ_iff_lt_or_eq.1 hlt with hold | rfl
  · rw [childOf_merged_old hold]
    rcases hj' with rfl | ⟨hj', -, -⟩
    · have hin := h.inner i hi hold
      have hl := hin.left_lt
      have hr := hin.right_lt
      rintro (hc | hc) <;> omega
    · exact h.orphan j hj' i hi hold
  · rw [childOf_merged_new h hm hk]
    have h1 := h.bound first hm.first_mem
    have h2 := h.bound second hm.second_mem
    rcases hj' with rfl | ⟨-, hne1, hne2⟩
    · rintro (hc | hc) <;> omega
    · rintro (hc | hc)
      · exact hne1 hc.symm
      · exact hne2 hc.symm

include hk in
theorem oneParent_merged {j : Nat} (hj : j < ns.length + 1) (hnot : j ∉ mergedForest ns.length forest first second) :
    ∃! i, k ≤ i ∧ i < ns.length + 1 ∧ ChildOf (mergedArena ns first second) j i := by
  rw [mem_mergedForest h] at hnot
  push Not at hnot
  obtain ⟨hne, hpicked⟩ := hnot
  by_cases hroot : j ∈ forest
  · refine ⟨ns.length, ⟨h.leafCount, by omega, (childOf_merged_new h hm hk).2 ?_⟩, fun i ⟨hi, hlt, hc⟩ => ?_⟩
    · by_cases h1 : j = first
      · exact .inl h1.symm
      · exact .inr (hpicked hroot h1).symm
    · by_contra hi'
      have hold : i < ns.length := by omega
      exact h.orphan j hroot i hi hold ((childOf_merged_old hold).1 hc)
  · obtain ⟨i, ⟨hi, hlt, hc⟩, huniq⟩ := h.oneParent j (by omega) hroot
    refine ⟨i, ⟨hi, by omega, (childOf_merged_old hlt).2 hc⟩, fun i' ⟨hi', hlt', hc'⟩ => ?_⟩
    rcases Nat.lt_succ_iff_lt_or_eq.1 hlt' with hold | rfl
    · exact huniq i' ⟨hi', hold, (childOf_merged_old hold).1 hc'⟩
    · rcases (childOf_merged_new h hm hk).1 hc' with rfl | rfl
      · exact absurd hm.first_mem hroot
      · exact absurd hm.second_mem hroot

include ht in
theorem monotone_merged {i : Nat} (hi : k ≤ i) (hlt : i + 1 < ns.length + 1) :
    weightAt (mergedArena ns first second) i ≤ weightAt (mergedArena ns first second) (i + 1) := by
  rw [weightAt_merged_old (by omega)]
  by_cases hold : i + 1 < ns.length
  · rw [weightAt_merged_old hold]
    exact h.monotone i hi hold
  · have hnew : i + 1 = ns.length := by omega
    rw [hnew, weightAt_merged_new h hm ht]
    exact h.heavy i hi (by omega) first hm.first_mem second hm.second_mem hm.differ

include ht in
/-- Any two roots left are together as heavy as the two merged: neither of two old ones is lighter than the second merged, and the
new one alone is as heavy. -/
theorem pair_heavy {i j : Nat} (hi : i ∈ mergedForest ns.length forest first second)
    (hj : j ∈ mergedForest ns.length forest first second) (hne : i ≠ j) :
    weightAt ns first + weightAt ns second ≤
      weightAt (mergedArena ns first second) i + weightAt (mergedArena ns first second) j := by
  have hnew := weightAt_merged_new h hm ht
  have hold {n : Nat} (hn : n ∈ forest) (h1 : n ≠ first) (h2 : n ≠ second) :
      weightAt ns second ≤ weightAt (mergedArena ns first second) n := by
    rw [weightAt_merged_old (h.bound n hn)]
    exact hm.second_le n hn h1 h2
  have hfirst := hm.first_le
  rcases (mem_mergedForest h).1 hi with rfl | ⟨hi, hi1, hi2⟩
  · omega
  · rcases (mem_mergedForest h).1 hj with rfl | ⟨hj, hj1, hj2⟩
    · omega
    · have := hold hi hi1 hi2
      have := hold hj hj1 hj2
      omega

include ht in
theorem heavy_merged {n i j : Nat} (hn : k ≤ n) (hlt : n < ns.length + 1) (hi : i ∈ mergedForest ns.length forest first second)
    (hj : j ∈ mergedForest ns.length forest first second) (hne : i ≠ j) :
    weightAt (mergedArena ns first second) n ≤
      weightAt (mergedArena ns first second) i + weightAt (mergedArena ns first second) j := by
  refine le_trans ?_ (pair_heavy h hm ht hi hj hne)
  rcases Nat.lt_succ_iff_lt_or_eq.1 hlt with hold | rfl
  · rw [weightAt_merged_old hold]
    exact h.heavy n hn hold first hm.first_mem second hm.second_mem hm.differ
  · exact Nat.le_of_eq (weightAt_merged_new h hm ht)

include ht in
theorem sum_merged : ((mergedForest ns.length forest first second).map (weightAt (mergedArena ns first second))).sum = total := by
  have hrest : ((forest.erase first).erase second).map (weightAt (mergedArena ns first second)) =
      ((forest.erase first).erase second).map (weightAt ns) :=
    List.map_congr_left fun i hi => weightAt_merged_old (h.bound i (List.mem_of_mem_erase (List.mem_of_mem_erase hi)))
  have hsum := sum_split h hm
  rw [mergedForest, List.map_append, List.sum_append, hrest, List.map_singleton, List.sum_singleton, weightAt_merged_new h hm ht]
  omega

include hk ht in
/-- A merge keeps what holds of the forest. -/
theorem forestOk_merged : ForestOk k total (mergedArena ns first second) (mergedForest ns.length forest first second) := by
  have hlen : (mergedArena ns first second).length = ns.length + 1 := mergedArena_length
  constructor
  case nodup =>
    refine List.nodup_append.2 ⟨(h.nodup.erase _).erase _, List.nodup_singleton _, fun i hi j hj he => ?_⟩
    have hb := h.bound i (List.mem_of_mem_erase (List.mem_of_mem_erase hi))
    rw [he, List.mem_singleton.1 hj] at hb
    exact Nat.lt_irrefl _ hb
  case bound =>
    intro i hi
    rw [hlen]
    rcases (mem_mergedForest h).1 hi with rfl | ⟨hi, -, -⟩
    · exact Nat.lt_succ_self _
    · exact (h.bound i hi).trans (Nat.lt_succ_self _)
  case newest => exact (mem_mergedForest h).2 (.inl (by rw [hlen, Nat.add_sub_cancel]))
  case leafCount => exact hlen ▸ h.leafCount.trans (Nat.le_succ _)
  case size =>
    have hl := mergedForest_length h hm
    have hs := h.size
    omega
  case sum => exact sum_merged h hm ht
  case inner => exact fun i hi hlt => innerOk_merged h hm hk ht hi (hlen ▸ hlt)
  case orphan => exact fun j hj i hi hlt => orphan_merged h hm hk hj hi (hlen ▸ hlt)
  case oneParent =>
    intro j hj hnot
    rw [hlen] at hj ⊢
    exact oneParent_merged h hm hk hj hnot
  case monotone => exact fun i hi hlt => monotone_merged h hm ht hi (hlen ▸ hlt)
  case heavy => exact fun n hn hlt i hi j hj hne => heavy_merged h hm ht hn (hlen ▸ hlt) hi hj hne

end Merge

/-! ### The whole reduction -/

/-- The reduction ends with one root, the newest node. -/
theorem mergeRoots_forestOk {k total fuel : Nat} {ns : List Node} {forest : List Nat} (h : ForestOk k total ns forest)
    (hk : k ≤ 256) (ht : total < 2 ^ 32) (hf : forest.length ≤ fuel) :
    ∃ root, ForestOk k total (mergeRoots fuel ns forest) [root] := by
  induction fuel generalizing ns forest with
  | zero => exact absurd (List.length_pos_of_mem h.newest) (by omega)
  | succ fuel ih =>
    rw [mergeRoots]
    split
    · next h1 => exact absurd h.newest (by simp [leastRoot_eq_none.1 h1])
    · next first h1 =>
      split
      · next h2 =>
        have hone : forest = [first] := by
          have hp := List.perm_cons_erase (leastRoot_spec h1).1
          rw [leastRoot_eq_none.1 h2] at hp
          exact List.perm_singleton.1 hp
        exact ⟨first, hone ▸ h⟩
      · next second h2 =>
        have hm := twoLightest_of_leastRoot h.nodup h1 h2
        have hl := mergedForest_length h hm
        have hle : (mergedForest ns.length forest first second).length ≤ fuel := by omega
        exact ih (forestOk_merged h hm hk ht) hle

theorem map_weightAt_range (ls : List Node) : (List.range ls.length).map (weightAt ls) = ls.map fun n => n.weight.toNat := by
  refine List.ext_getElem (by simp) fun i h1 h2 => ?_
  have hi : i < ls.length := by simpa using h1
  simp [weightAt, nodeAt_of_getElem? (List.getElem?_eq_getElem hi)]

/-- Before the first merge every leaf is a root. -/
theorem forestOk_leaves {ls : List Node} (hne : ls ≠ []) :
    ForestOk ls.length (ls.map fun n => n.weight.toNat).sum ls (List.range ls.length) where
  nodup := List.nodup_range
  bound _ hi := List.mem_range.1 hi
  newest := List.mem_range.2 (by have := List.length_pos_iff.2 hne; omega)
  leafCount := Nat.le_refl _
  size := by rw [List.length_range]; omega
  sum := by rw [map_weightAt_range]
  inner _ hi hlt := by omega
  orphan _ _ _ hi hlt := by omega
  oneParent _ hj hnot := absurd (List.mem_range.2 hj) hnot
  monotone _ hi hlt := by omega
  heavy _ hn hlt := by omega

/-! ### BUILD -/

/-- The leaves of BUILD are those of the distinct symbols, in their order (42_tree_build.md R97, part 1). -/
theorem leaves_eq (a : Arch) : leaves a = (distinctSyms a).map (leafOf a) := by
  rw [leaves, distinctSyms, allSyms, Config.nsym]
  induction List.range 256 with
  | nil => rfl
  | cons n l ih =>
    by_cases hx : a.freqAt (BitVec.ofNat 8 n) = 0#32
    · simpa [hx] using ih
    · simpa [hx, leafOf, leafNode] using ih

/-- The symbols that were not counted add nothing to the sum. -/
theorem leaves_sum (a : Arch) : ((leaves a).map fun n => n.weight.toNat).sum = freqSum a := by
  rw [leaves_eq, List.map_map, distinctSyms, freqSum]
  induction allSyms with
  | nil => rfl
  | cons x l ih =>
    by_cases hx : a.freqAt x = 0#32
    · simpa [hx] using ih
    · simpa [hx, leafOf] using ih

/-- The arena of a block with something counted. -/
theorem forestOk_buildArena {a : Arch} (htotal : a.total.toNat = freqSum a) (hne : distinctSyms a ≠ []) :
    ∃ root, ForestOk (distinctSyms a).length a.total.toNat (buildArena (leaves a)) [root] := by
  have hlen : (leaves a).length = (distinctSyms a).length := by rw [leaves_eq, List.length_map]
  have hleaves : leaves a ≠ [] := by
    rw [leaves_eq]
    exact fun hc => hne (List.map_eq_nil_iff.1 hc)
  have hstart := forestOk_leaves hleaves
  rw [leaves_sum, ← htotal, hlen] at hstart
  rw [buildArena, hlen]
  exact mergeRoots_forestOk hstart (distinctSyms_length_le a) a.total.isLt (by rw [List.length_range])

/-- With something counted, some symbol was. -/
theorem distinctSyms_ne_nil {a : Arch} (htotal : a.total.toNat = freqSum a) (h0 : a.total ≠ 0#32) : distinctSyms a ≠ [] := by
  intro hc
  refine h0 (BitVec.eq_of_toNat_eq ?_)
  rw [htotal, ← leaves_sum, leaves_eq, hc]
  rfl

/-- The registers of an arena of `2k - 1` nodes hold NLEAF, NNODES and ROOT without loss. -/
theorem withArena_registers {a : Arch} {k : Nat} {ns : List Node} (hk : k ≤ 256) (hsize : ns.length + 1 = 2 * k) :
    (withArena a k ns).nleaf.toNat = k ∧ (withArena a k ns).nnodes.toNat = ns.length ∧
    (withArena a k ns).root.toNat = ns.length - 1 := by
  simp only [withArena, BitVec.toNat_ofNat]
  omega

/-- BUILD makes the tree of items 4 to 7 of 10_state.md R23. -/
theorem treeOk_build {a : Arch} (htotal : a.total.toNat = freqSum a) (h0 : a.total ≠ 0#32) :
    TreeOk (withArena a (leaves a).length (buildArena (leaves a))) := by
  have hne := distinctSyms_ne_nil htotal h0
  obtain ⟨root, hf⟩ := forestOk_buildArena htotal hne
  have hlen : (leaves a).length = (distinctSyms a).length := by rw [leaves_eq, List.length_map]
  have hsize : (buildArena (leaves a)).length + 1 = 2 * (distinctSyms a).length := hf.size
  have hroot : (buildArena (leaves a)).length - 1 = root := List.mem_singleton.1 hf.newest
  have hdist : distinctSyms (withArena a (leaves a).length (buildArena (leaves a))) = distinctSyms a := rfl
  obtain ⟨hnleaf, hnnodes, hrootReg⟩ := withArena_registers (a := a) (leaves_length_le a) (hlen ▸ hsize)
  rw [hroot] at hrootReg
  constructor
  case someSym => exact hne
  case nleaf => rw [hnleaf, hdist, hlen]
  case nnodes => rw [hdist]; omega
  case root => rw [hdist]; omega
  case leaf =>
    intro i x hx
    have hget : (leaves a)[i]? = some (leafOf a x) := by rw [leaves_eq, List.getElem?_map, ← hdist, hx]; rfl
    obtain ⟨rest, hrest⟩ := mergeRoots_prefix (leaves a).length (leaves a) (List.range (leaves a).length)
    refine nodeAt_of_getElem? ?_
    rw [withArena, buildArena, ← hrest, List.getElem?_append_left (List.getElem?_eq_some_iff.1 hget).1]
    exact hget
  case inner =>
    intro i hi hlt
    obtain ⟨inner, noSym, left_lt, right_lt, differ, weight⟩ := hf.inner i hi (by omega)
    exact ⟨inner, noSym, left_lt, right_lt, differ, weight⟩
  case oneParent =>
    intro j hj
    rw [hnnodes]
    exact hf.oneParent j (by omega) (by rw [List.mem_singleton]; omega)
  case rootWeight =>
    refine BitVec.eq_of_toNat_eq ?_
    rw [Arch.nodeAt, hrootReg]
    have hsum := hf.sum
    rwa [List.map_singleton, List.sum_singleton] at hsum
  case weights => exact fun i hi hlt => hf.monotone i hi (by omega)

theorem inv_buildRule {a : Arch} {e : Effect} (h : Inv a) (hp : a.phase = .count) (he : buildRule a = .next e) : Inv e.arch := by
  have hmem := memoriesOk_rule (i := .build) h.memories he
  rcases buildRule_arch he with ⟨-, h'⟩ | ⟨h0, h'⟩ <;> rw [h'] at hmem ⊢
  · exact h.withError (by simp [hp]) (by simp [Raised])
  · have htree := treeOk_build h.total h0
    have hn : (withArena a (leaves a).length (buildArena (leaves a))).nnodes ≠ 0#10 := fun hc => by
      have hpos := htree.nnodes_eq_root_succ
      rw [hc] at hpos
      cases hpos
    exact
      { memories := hmem
        total := h.total
        errPhase := iff_of_false (fun hc => by cases hp.symm.trans (h.errPhase.1 hc)) (by simp [withArena])
        errRaised := h.errRaised
        noTree := fun hc => absurd hc hn
        countPhase := fun hc => by cases hc
        treePhases := fun _ => hn
        tree := fun _ => htree
        codes := fun hc => by rcases hc with hc | hc | hc <;> cases hc
        noCodes := fun _ => (h.noTree (h.countPhase hp)).2.2
        codesInErr := fun hc => by cases hc
        writer := h.writer
        writerIdle := fun _ _ => h.writerIdle (by simp [hp]) (by simp [hp])
        emitted := h.emitted
        cursor := fun hc => by cases hc }

/-! ### Every step -/

theorem inv_rule {i : Instr} {a : Arch} {e : Effect} (h : Inv a) (hl : legalIn i a.phase = true) (he : ruleOf i a = .next e) :
    Inv e.arch := by
  by_cases hr : readsOnly i = true
  · rcases readsOnly_rule_arch hr he with h' | rfl
    · rwa [h']
    · rcases illegal_arch_cases a with h' | ⟨hp, h'⟩ <;> rw [h']
      · exact h
      · exact h.withError hp (by simp [Raised])
  cases i
  case clr => cases he; exact inv_reset
  case cnt x => exact inv_countRule h (by simpa [legalIn, legalPhases] using hl) he
  case build => exact inv_buildRule h (by simpa [legalIn, legalPhases] using hl) he
  case derive => exact inv_deriveRule h (by simpa [legalIn, legalPhases] using hl) he
  case enc x => exact inv_encodeRule h (by simpa [legalIn, legalPhases] using hl) he
  case encend => exact inv_encodeEndRule h (by simpa [legalIn, legalPhases] using hl) he
  case dec b => exact inv_decodeRule h (by simpa [legalIn, legalPhases] using hl) he
  case decend => exact inv_decodeEndRule h (by simpa [legalIn, legalPhases] using hl) he
  all_goals exact absurd rfl hr

/-- Settles O55: the reset state, error entry and every command's rule where it is legal meet the invariants. -/
theorem stepKeepsInvariants : Obligations.StepKeepsInvariants := by
  unfold Obligations.StepKeepsInvariants
  intro s t
  refine step_keeps inv_reset (fun a r h hp hr => h.withError hp ?_) fun i a e => inv_rule
  rcases hr with rfl | rfl <;> simp [Raised]

end Sys2Proof.Machine
end

section
/-! SUPPORT. What no command word but CLR changes once the codes are derived (20_memory.md R52): the only commands that write the
tree, the code table or the counts are not legal there (30_encoding.md R70). -/

namespace Sys2Proof.Machine

/-- Only CLR's own word decodes to CLR: its opcode is 1 and its format has no operand (30_encoding.md R61, R65). -/
theorem eq_of_decode_clr {w : CmdWord} (h : decode w = .ok .clr) : w = 0x1000#16 := by
  unfold decode at h
  split at h
  case h_2 hop =>
    rw [opcodeField_toNat] at hop
    unfold decodeZ at h
    split at h
    · next hz =>
      have harg := (extractLsb'_eq_zero_iff w 0 12).1 hz
      apply BitVec.eq_of_toNat_eq
      simp only [BitVec.toNat_ofNat]
      omega
    · cases h
  case h_15 => cases h
  all_goals
    simp only [decodeZ, decodeS, decodeR, decodeC, decodeN] at h
    (repeat' split at h) <;> cases h

/-- The tree, its registers, the code table and the counts are the same in `b` as in `a`. -/
def SameTables (a b : Arch) : Prop :=
  b.node = a.node ∧ b.nleaf = a.nleaf ∧ b.nnodes = a.nnodes ∧ b.root = a.root ∧ b.code = a.code ∧ b.freq = a.freq ∧
    b.total = a.total

theorem SameTables.refl (a : Arch) : SameTables a a := ⟨rfl, rfl, rfl, rfl, rfl, rfl, rfl⟩

theorem SameTables.withError (a : Arch) (r : ErrorCode) : SameTables a (withError a r) := SameTables.refl a

theorem SameTables.illegal (a : Arch) : SameTables a (illegal a).arch := by
  rcases illegal_arch_cases a with h | ⟨-, h⟩ <;> rw [h]
  · exact .refl a
  · exact .withError a _

/-- The three rows of 10_state.md R25 that let a command write the tables, CNT, BUILD and DERIVE, have no legal phase from READY on
(30_encoding.md R70). -/
theorem not_table_writer_of_legal {i : Instr} {p : Phase} (hp : Derived p) (hl : legalIn i p = true) :
    (∀ x, i ≠ .cnt x) ∧ i ≠ .build ∧ i ≠ .derive := by
  refine ⟨fun x => ?_, ?_, ?_⟩ <;> rintro rfl <;> rcases hp with rfl | rfl | rfl <;> cases hl

/-- A command but CLR, once the codes are derived: where it is legal its row does not write the tables, and the checks' own answers
write only PHASE and ERR. -/
theorem checked_sameTables {i : Instr} {a : Arch} {e : Effect} (hp : Derived a.phase) (h : checked i (ruleOf i) a = .next e)
    (hi : i ≠ .clr) : SameTables a e.arch := by
  rcases checked_next_cases h with ⟨hl, h'⟩ | ⟨-, h'⟩ | ⟨-, -, h'⟩
  · obtain ⟨hcnt, hbuild, hderive⟩ := not_table_writer_of_legal hp hl
    have hw := ruleOf_writesOnly h' hi
    obtain ⟨htotal, hfreq⟩ := hw.counts hcnt
    obtain ⟨hnode, hnleaf, hnnodes, hroot⟩ := hw.tree hbuild
    exact ⟨hnode, hnleaf, hnnodes, hroot, hw.code hderive, hfreq, htotal⟩
  · rw [h']; exact .refl a
  · rw [h']; exact .withError a _

/-- Settles O52: a word is a command other than CLR, behind its checks, or illegal. -/
theorem tablesAreImmutableUnderStreams : Obligations.TablesAreImmutableUnderStreams := by
  unfold Obligations.TablesAreImmutableUnderStreams
  intro w s t h hw hp
  rcases execWord_cases w s with ⟨i, hd, hx⟩ | ⟨r, -, hx⟩ <;> rw [hx] at h
  · obtain ⟨e, he, rfl⟩ := exec_next h
    refine checked_sameTables hp he ?_
    rintro rfl
    exact hw (eq_of_decode_clr hd)
  · cases h
    exact SameTables.illegal s.arch

end Sys2Proof.Machine
end

section
/-! SUPPORT. The formats of 30_encoding.md R61 in numbers: which word holds given fields, and so which command a word is. -/

namespace Sys2Proof

/-! ### The fields of a word (R61) -/

theorem append_toNat {m n : Nat} (x : BitVec m) (y : BitVec n) : (x ++ y).toNat = x.toNat * 2 ^ n + y.toNat := by
  rw [BitVec.toNat_append, ← Nat.shiftLeft_add_eq_or_of_lt y.isLt, Nat.shiftLeft_eq]

theorem symField_toNat (w : CmdWord) : (symField w).toNat = w.toNat % 256 := by
  rw [symField, extractLsb'_toNat_eq_mod_div]
  omega

theorem wordField_toNat (w : CmdWord) : (wordField w).toNat = w.toNat % 2048 / 256 := by
  rw [wordField, extractLsb'_toNat_eq_mod_div]
  rfl

theorem idxField_toNat (w : CmdWord) : (idxField w).toNat = w.toNat % 512 := by
  rw [idxField, extractLsb'_toNat_eq_mod_div]
  omega

/-- A word is in format Z with the opcode `n` exactly when its fields say so; likewise for the other formats below. -/
theorem formatZ_eq_iff {w : CmdWord} {n : Nat} (hop : (opcodeField w).toNat = n) :
    BitVec.ofNat 4 n ++ 0#12 = w ↔ w.extractLsb' 0 12 = 0#12 := by
  have hlt := (opcodeField w).isLt
  rw [opcodeField_toNat] at hop hlt
  simp only [← BitVec.toNat_inj, append_toNat, extractLsb'_toNat_eq_mod_div, BitVec.toNat_ofNat]
  omega

theorem formatS_eq_iff {w : CmdWord} {n : Nat} (hop : (opcodeField w).toNat = n) (x : Sym) :
    BitVec.ofNat 4 n ++ 0#4 ++ x = w ↔ w.extractLsb' 8 4 = 0#4 ∧ symField w = x := by
  have hlt := (opcodeField w).isLt
  rw [opcodeField_toNat] at hop hlt
  simp only [← BitVec.toNat_inj, append_toNat, symField_toNat, extractLsb'_toNat_eq_mod_div, BitVec.toNat_ofNat]
  omega

theorem formatR_eq_iff {w : CmdWord} {n : Nat} (hop : (opcodeField w).toNat = n) (reg : BitVec 4) :
    BitVec.ofNat 4 n ++ 0#8 ++ reg = w ↔ w.extractLsb' 4 8 = 0#8 ∧ regField w = reg := by
  have hlt := (opcodeField w).isLt
  rw [opcodeField_toNat] at hop hlt
  simp only [← BitVec.toNat_inj, append_toNat, regField_toNat, extractLsb'_toNat_eq_mod_div, BitVec.toNat_ofNat]
  omega

theorem formatC_eq_iff {w : CmdWord} {n : Nat} (hop : (opcodeField w).toNat = n) (x : Sym) (word : BitVec 3) :
    BitVec.ofNat 4 n ++ 0#1 ++ word ++ x = w ↔ w.extractLsb' 11 1 = 0#1 ∧ symField w = x ∧ wordField w = word := by
  have hlt := (opcodeField w).isLt
  rw [opcodeField_toNat] at hop hlt
  simp only [← BitVec.toNat_inj, append_toNat, symField_toNat, wordField_toNat, extractLsb'_toNat_eq_mod_div,
    BitVec.toNat_ofNat]
  omega

theorem formatN_eq_iff {w : CmdWord} {n : Nat} (hop : (opcodeField w).toNat = n) (idx : NodeIdx) (field : BitVec 2) :
    BitVec.ofNat 4 n ++ 0#1 ++ field ++ idx = w ↔ w.extractLsb' 11 1 = 0#1 ∧ idxField w = idx ∧ partField w = field := by
  have hlt := (opcodeField w).isLt
  rw [opcodeField_toNat] at hop hlt
  simp only [← BitVec.toNat_inj, append_toNat, idxField_toNat, partField_toNat, extractLsb'_toNat_eq_mod_div,
    BitVec.toNat_ofNat]
  omega

/-! ### What each format accepts (R61, R67) -/

/-- A check before `d`: what is accepted passes the check and is accepted by `d`. -/
theorem ite_ok_iff (c : Prop) [Decidable c] (d : Decoded) (e : IllegalReason) (i : Instr) :
    (if c then d else .error e) = .ok i ↔ c ∧ d = .ok i := by
  by_cases h : c <;> simp [h]

section Accepts

variable {w : CmdWord} {n : Nat} (hop : (opcodeField w).toNat = n) (i : Instr)
include hop

theorem decodeZ_eq_ok_iff (c : Instr) : decodeZ w c = .ok i ↔ c = i ∧ BitVec.ofNat 4 n ++ 0#12 = w := by
  simp [decodeZ, ite_ok_iff, formatZ_eq_iff hop, and_comm]

theorem decodeS_eq_ok_iff (c : Sym → Instr) :
    decodeS w c = .ok i ↔ ∃ x, c x = i ∧ BitVec.ofNat 4 n ++ 0#4 ++ x = w := by
  simp [decodeS, ite_ok_iff, formatS_eq_iff hop, and_comm]

theorem decodeR_eq_ok_iff (c : BitVec 4 → Instr) :
    decodeR w c = .ok i ↔ ∃ reg, reg ≤ 6#4 ∧ c reg = i ∧ BitVec.ofNat 4 n ++ 0#8 ++ reg = w := by
  simp [decodeR, ite_ok_iff, formatR_eq_iff hop, and_comm, and_assoc]

theorem decodeC_eq_ok_iff (c : Sym → BitVec 3 → Instr) :
    decodeC w c = .ok i ↔ ∃ x word, c x word = i ∧ BitVec.ofNat 4 n ++ 0#1 ++ word ++ x = w := by
  simp [decodeC, ite_ok_iff, formatC_eq_iff hop, and_comm, and_assoc]

theorem decodeN_eq_ok_iff (c : NodeIdx → BitVec 2 → Instr) :
    decodeN w c = .ok i ↔ ∃ idx field, field ≠ 3#2 ∧ c idx field = i ∧ BitVec.ofNat 4 n ++ 0#1 ++ field ++ idx = w := by
  rw [decodeN, ite_ok_iff, ← ite_not, ite_ok_iff]
  simp [formatN_eq_iff hop, and_comm, and_assoc]

end Accepts

/-! ### Words and commands (R60, R65) -/

/-- The opcode of a command (R65). -/
def Instr.opcode : Instr → Nat
  | .nop => 0x0
  | .clr => 0x1
  | .cnt _ => 0x2
  | .build => 0x3
  | .derive => 0x4
  | .enc _ => 0x5
  | .encend => 0x6
  | .dec _ => 0x7
  | .decend => 0x8
  | .rdr _ => 0x9
  | .rdf _ => 0xA
  | .rdl _ => 0xB
  | .rdc _ _ => 0xC
  | .rdn _ _ => 0xD

theorem opcodeField_encode (i : Instr) : (opcodeField (encode i)).toNat = i.opcode := by
  rw [opcodeField_toNat]
  cases i <;> simp only [encode, append_toNat, BitVec.toNat_ofNat, Instr.opcode] <;> omega

/-- Settles O2: the word's opcode selects the command's own format, which accepts the word it was built by. -/
theorem decodeOfEncodeIsSameCommand : Obligations.DecodeOfEncodeIsSameCommand := by
  unfold Obligations.DecodeOfEncodeIsSameCommand
  intro i hi
  have hop := opcodeField_encode i
  rw [decode, hop]
  cases i
  case nop | clr | build | derive | encend | decend => exact (decodeZ_eq_ok_iff hop _ _).2 ⟨rfl, rfl⟩
  case cnt x | enc x | dec x | rdf x | rdl x => exact (decodeS_eq_ok_iff hop _ _).2 ⟨x, rfl, rfl⟩
  case rdr reg => exact (decodeR_eq_ok_iff hop _ _).2 ⟨reg, of_decide_eq_true hi, rfl, rfl⟩
  case rdc x word => exact (decodeC_eq_ok_iff hop _ _).2 ⟨x, word, rfl, rfl⟩
  case rdn idx field => exact (decodeN_eq_ok_iff hop _ _).2 ⟨idx, field, of_decide_eq_true hi, rfl, rfl⟩

/-- Settles O3: the format that the word's opcode selects accepts only the words it builds. -/
theorem encodeOfDecodeIsSameWord : Obligations.EncodeOfDecodeIsSameWord := by
  unfold Obligations.EncodeOfDecodeIsSameWord
  intro w i h
  unfold decode at h
  split at h
  case h_1 hop | h_2 hop | h_4 hop | h_5 hop | h_7 hop | h_9 hop =>
    obtain ⟨rfl, hw⟩ := (decodeZ_eq_ok_iff hop _ _).1 h
    exact ⟨hw, rfl⟩
  case h_3 hop | h_6 hop | h_8 hop | h_11 hop | h_12 hop =>
    obtain ⟨x, rfl, hw⟩ := (decodeS_eq_ok_iff hop _ _).1 h
    exact ⟨hw, rfl⟩
  case h_10 hop =>
    obtain ⟨reg, hreg, rfl, hw⟩ := (decodeR_eq_ok_iff hop _ _).1 h
    exact ⟨hw, decide_eq_true hreg⟩
  case h_13 hop =>
    obtain ⟨x, word, rfl, hw⟩ := (decodeC_eq_ok_iff hop _ _).1 h
    exact ⟨hw, rfl⟩
  case h_14 hop =>
    obtain ⟨idx, field, hfield, rfl, hw⟩ := (decodeN_eq_ok_iff hop _ _).1 h
    exact ⟨hw, decide_eq_true hfield⟩
  case h_15 => cases h

/-- Settles O1, by evaluation. -/
theorem specWordsDecode : Obligations.SpecWordsDecode := by
  unfold Obligations.SpecWordsDecode
  decide

end Sys2Proof

end

section
/-! SUPPORT. Illegal words (30_encoding.md R67) and the rows of R66: a word agrees with the row of the command it is, and with no
other; and a word that agrees with a row and passes the value checks is not illegal. -/

namespace Sys2Proof.Machine

/-! ### Illegal words (R67) -/

theorem exists_decode_ok_iff (w : CmdWord) : (∃ i, decode w = .ok i) ↔ ¬ IllegalWord w := by
  rw [← decode_error_iff]
  cases decode w <;> simp

/-- Settles O4: what `decode` refuses is R67's list, and what it accepts is well-formed. -/
theorem illegalWordsAreExactlyR67 : Obligations.IllegalWordsAreExactlyR67 := by
  unfold Obligations.IllegalWordsAreExactlyR67
  refine fun w => ⟨fun hw => ⟨(decode_error_iff w).2 hw, fun s => ?_⟩, fun hw => ?_⟩
  · exact ⟨execWord_illegalWord_raises hw s, execWord_illegalWord_refused hw s⟩
  · obtain ⟨i, hi⟩ := (exists_decode_ok_iff w).2 hw
    exact ⟨i, hi, (encodeOfDecodeIsSameWord w i hi).2⟩

/-! ### Rows (R66) -/

/-- The word agrees with the row's pattern under its mask. -/
def Agrees (w : CmdWord) (row : OpcodeRow) : Prop := w &&& row.mask = row.pattern

/-- Each command's word agrees with the row of its mnemonic. -/
theorem exists_agrees_encode : ∀ i : Instr, ∃ row ∈ opcodeRows, row.mnemonic = i.mnemonic ∧ Agrees (encode i) row
  | .nop => Laws.RowMatch.nop
  | .clr => Laws.RowMatch.clr
  | .cnt x => Laws.RowMatch.cnt x
  | .build => Laws.RowMatch.build
  | .derive => Laws.RowMatch.derive
  | .enc x => Laws.RowMatch.enc x
  | .encend => Laws.RowMatch.encend
  | .dec b => Laws.RowMatch.dec b
  | .decend => Laws.RowMatch.decend
  | .rdr reg => Laws.RowMatch.rdr reg
  | .rdf x => Laws.RowMatch.rdf x
  | .rdl x => Laws.RowMatch.rdl x
  | .rdc x word => Laws.RowMatch.rdc x word
  | .rdn idx field => Laws.RowMatch.rdn idx field

theorem exists_agrees_of_decode {w : CmdWord} {i : Instr} (h : decode w = .ok i) :
    ∃ row ∈ opcodeRows, row.mnemonic = i.mnemonic ∧ Agrees w row := by
  rw [← (encodeOfDecodeIsSameWord w i h).1]
  exact exists_agrees_encode i

theorem row_eq_of_mnemonic_eq : ∀ row ∈ opcodeRows, ∀ row' ∈ opcodeRows, row.mnemonic = row'.mnemonic → row = row' := by
  decide

theorem row_eq_of_opcode_eq : ∀ row ∈ opcodeRows, ∀ row' ∈ opcodeRows,
    row.pattern &&& 0xF000#16 = row'.pattern &&& 0xF000#16 → row = row' := by
  decide

/-- Every mask holds the whole opcode. -/
theorem mask_opcode : ∀ row ∈ opcodeRows, row.mask &&& 0xF000#16 = 0xF000#16 := by
  decide

theorem Agrees.opcode {w : CmdWord} {row : OpcodeRow} (hrow : row ∈ opcodeRows) (h : Agrees w row) :
    row.pattern &&& 0xF000#16 = w &&& 0xF000#16 := by
  rw [← h, BitVec.and_assoc, mask_opcode row hrow]

/-- No word agrees with two rows: their opcodes differ. -/
theorem Agrees.unique {w : CmdWord} {row row' : OpcodeRow} (hrow : row ∈ opcodeRows) (hrow' : row' ∈ opcodeRows)
    (h : Agrees w row) (h' : Agrees w row') : row = row' :=
  row_eq_of_opcode_eq row hrow row' hrow' ((h.opcode hrow).trans (h'.opcode hrow').symm)

/-! ### What a row accepts (R66, R67) -/

/-- A mask that leaves out the low `n` bits fixes the others. -/
theorem toNat_div_of_and_eq (n : Nat) {w p : CmdWord} (h : w &&& BitVec.allOnes 16 <<< n = p) :
    w.toNat / 2 ^ n = p.toNat / 2 ^ n := by
  have hle : w.toNat / 2 ^ n * 2 ^ n < 2 ^ 16 := (Nat.div_mul_le_self _ _).trans_lt w.isLt
  rw [← h, ← BitVec.shiftLeft_ushiftRight, BitVec.toNat_shiftLeft, BitVec.toNat_ushiftRight, Nat.shiftRight_eq_div_pow,
    Nat.shiftLeft_eq, Nat.mod_eq_of_lt hle, Nat.mul_div_cancel _ (Nat.two_pow_pos n)]

/-- The value checks of RDR and RDN that masks cannot express (R67 (c), (d)). -/
def ValueChecks (w : CmdWord) (row : OpcodeRow) : Prop :=
  (row.mnemonic = "RDR" → w.toNat % 16 ≤ 6) ∧ (row.mnemonic = "RDN" → w.toNat / 512 % 4 ≠ 3)

/-- Each row fixes an opcode and, by its mask, the bits that the opcode's format marks must-be-zero (R61). -/
theorem row_formats : ∀ row ∈ opcodeRows,
    row.pattern.toNat % 4096 = 0 ∧
    ((row.pattern.toNat / 4096 ∈ [0, 1, 3, 4, 6, 8] ∧ row.mask = BitVec.allOnes 16 <<< 0) ∨
     (row.pattern.toNat / 4096 ∈ [2, 5, 7, 10, 11] ∧ row.mask = BitVec.allOnes 16 <<< 8) ∨
     (row.pattern.toNat / 4096 = 9 ∧ row.mnemonic = "RDR" ∧ row.mask = BitVec.allOnes 16 <<< 4) ∨
     (row.pattern.toNat / 4096 = 12 ∧ row.mask = BitVec.allOnes 16 <<< 11) ∨
     (row.pattern.toNat / 4096 = 13 ∧ row.mnemonic = "RDN" ∧ row.mask = BitVec.allOnes 16 <<< 11)) := by
  decide

theorem Agrees.not_illegalWord {w : CmdWord} {row : OpcodeRow} (hrow : row ∈ opcodeRows) (h : Agrees w row)
    (hv : ValueChecks w row) : ¬ IllegalWord w := by
  obtain ⟨hlow, hf⟩ := row_formats row hrow
  obtain ⟨hreg, hfield⟩ := hv
  unfold Agrees at h
  unfold IllegalWord
  rcases hf with ⟨hop, hm⟩ | ⟨hop, hm⟩ | ⟨hop, hn, hm⟩ | ⟨hop, hm⟩ | ⟨hop, hn, hm⟩ <;> rw [hm] at h <;>
    replace h := toNat_div_of_and_eq _ h <;> simp only [List.mem_cons, List.not_mem_nil, or_false] at hop ⊢
  · omega
  · omega
  · specialize hreg hn
    omega
  · omega
  · specialize hfield hn
    omega

theorem eq_rdr_of_mnemonic {i : Instr} (h : i.mnemonic = "RDR") : ∃ reg, i = .rdr reg := by
  cases i <;> simp_all [Instr.mnemonic]

theorem eq_rdn_of_mnemonic {i : Instr} (h : i.mnemonic = "RDN") : ∃ idx field, i = .rdn idx field := by
  cases i <;> simp_all [Instr.mnemonic]

theorem valueChecks_of_decode {w : CmdWord} {i : Instr} {row : OpcodeRow} (h : decode w = .ok i)
    (hi : i.mnemonic = row.mnemonic) : ValueChecks w row := by
  obtain ⟨rfl, hw⟩ := encodeOfDecodeIsSameWord w i h
  refine ⟨fun hn => ?_, fun hn => ?_⟩
  · obtain ⟨reg, rfl⟩ := eq_rdr_of_mnemonic (hi.trans hn)
    have hreg : reg.toNat ≤ 6 := of_decide_eq_true hw
    simp only [encode, append_toNat, BitVec.toNat_ofNat]
    omega
  · obtain ⟨idx, field, rfl⟩ := eq_rdn_of_mnemonic (hi.trans hn)
    have hfield : field.toNat ≠ 3 := fun hc => of_decide_eq_true hw (BitVec.eq_of_toNat_eq hc)
    simp only [encode, append_toNat, BitVec.toNat_ofNat]
    omega

/-- A word is the command of a row exactly when it agrees with the row and passes the value checks. -/
theorem decode_mnemonic_iff_agrees {w : CmdWord} {row : OpcodeRow} (hrow : row ∈ opcodeRows) :
    (∃ i, decode w = .ok i ∧ i.mnemonic = row.mnemonic) ↔ Agrees w row ∧ ValueChecks w row := by
  constructor
  · rintro ⟨i, hi, hn⟩
    obtain ⟨row', hrow', hn', ha⟩ := exists_agrees_of_decode hi
    exact ⟨row_eq_of_mnemonic_eq row' hrow' row hrow (hn'.trans hn) ▸ ha, valueChecks_of_decode hi hn⟩
  · rintro ⟨ha, hv⟩
    obtain ⟨i, hi⟩ := (exists_decode_ok_iff w).2 (ha.not_illegalWord hrow hv)
    obtain ⟨row', hrow', hn', ha'⟩ := exists_agrees_of_decode hi
    exact ⟨i, hi, ha.unique hrow hrow' ha' ▸ hn'.symm⟩

/-- Settles O5. -/
theorem rowsOfR66SelectCommands : Obligations.RowsOfR66SelectCommands := by
  unfold Obligations.RowsOfR66SelectCommands
  refine fun w => ⟨fun row => decode_mnemonic_iff_agrees, fun row hrow row' hrow' => Agrees.unique hrow hrow', fun hno => ?_⟩
  refine (decode_error_iff w).2 (not_not.1 fun hw => ?_)
  obtain ⟨i, hi⟩ := (exists_decode_ok_iff w).2 hw
  obtain ⟨row, hrow, -, ha⟩ := exists_agrees_of_decode hi
  exact hno row hrow ha

end Sys2Proof.Machine

end

section
/-! SUPPORT. What each command's rule comes to, said once: the whole effect, with the condition that selects it; the records of a
command (30_encoding.md R63). -/

namespace Sys2Proof.Machine

/-! ### Effects of the rules -/

/-- What the command `i` reads (45_system.md R132 to R136); 0 where it reads nothing (30_encoding.md R64). -/
def readView (i : Instr) (a : Arch) : Option (BitVec 32) :=
  match i with
  | .rdr reg => registerView a reg
  | .rdf x => some (a.freqAt x)
  | .rdl x => some (lengthView (a.codeAt x))
  | .rdc x word => some (vectorView (a.codeAt x) word)
  | .rdn idx field => nodeView a idx field
  | .nop | .clr | .cnt _ | .build | .derive | .enc _ | .encend | .dec _ | .decend => some 0#32

theorem ruleOf_eq_readout {i : Instr} (hr : readsOnly i = true) : ruleOf i = readout (readView i) := by
  cases i
  case nop | rdr | rdf | rdl | rdc | rdn => rfl
  all_goals cases hr

/-- A well-formed command selects something that exists. -/
theorem readView_isSome {i : Instr} (hw : i.wellFormed = true) (a : Arch) : ∃ v, readView i a = some v := by
  cases i
  case rdr reg => exact registerView_isSome (of_decide_eq_true hw) a
  case rdn idx field => exact nodeView_isSome (of_decide_eq_true hw) a idx
  all_goals exact ⟨_, rfl⟩

/-- A read that a word can name answers what it reads. -/
theorem readsOnly_effect {i : Instr} {a : Arch} {e : Effect} (hr : readsOnly i = true) (hw : i.wellFormed = true)
    (h : ruleOf i a = .next e) : ∃ v, readView i a = some v ∧ e = respond v (start a) := by
  obtain ⟨v, hv⟩ := readView_isSome hw a
  rw [ruleOf_eq_readout hr, readout, hv] at h
  cases h
  exact ⟨v, hv, rfl⟩

theorem countRule_effect {x : Sym} {a : Arch} {e : Effect} (h : countRule x a = .next e) :
    (a.total = Config.cntMax ∧ e = raise .countOverflow (start a)) ∨
    (a.total ≠ Config.cntMax ∧
      e = respond 0#32 (start { a.setFreq x (a.freqAt x + 1#32) with total := a.total + 1#32 })) := by
  by_cases hf : a.total = Config.cntMax <;> simp only [countRule, countFull, hf, decide_true, decide_false, if_true,
    Bool.false_eq_true, if_false] at h <;> cases h
  · exact .inl ⟨hf, rfl⟩
  · exact .inr ⟨hf, rfl⟩

theorem buildRule_effect {a : Arch} {e : Effect} (h : buildRule a = .next e) :
    (a.total = 0#32 ∧ e = raise .emptyInput (start a)) ∨
    (a.total ≠ 0#32 ∧ e = respond 0#32 (start (withArena a (leaves a).length (buildArena (leaves a))))) := by
  by_cases ht : a.total = 0#32 <;> simp only [buildRule, nothingCounted, ht, decide_true, decide_false, if_true,
    Bool.false_eq_true, if_false] at h <;> cases h
  · exact .inl ⟨ht, rfl⟩
  · exact .inr ⟨ht, rfl⟩

theorem deriveRule_effect {a : Arch} {e : Effect} (h : deriveRule a = .next e) :
    ∃ rs, e = respond 0#32 (start { a with code := derivedCode a rs, phase := .ready }) := by
  unfold deriveRule at h
  split at h <;> cases h
  exact ⟨_, by rw [derived_eq]⟩

theorem startEncode_codeAt (a : Arch) (x : Sym) : (startEncode a).codeAt x = a.codeAt x := by
  obtain ⟨w, n, p, h⟩ := startEncode_arch a
  rw [h]
  rfl

theorem encodeRule_effect {x : Sym} {a : Arch} {e : Effect} (h : encodeRule x a = .next e) :
    ((a.codeAt x).valid = true ∧ e = respond 0#32 ((a.codeAt x).path.foldl writeBit (start (startEncode a)))) ∨
    ((a.codeAt x).valid = false ∧ e = raise .unknownSymbol (closeWriter (start (startEncode a)))) := by
  rw [← startEncode_codeAt]
  unfold encodeRule at h
  dsimp only at h
  split at h
  · next hc => cases h; exact .inl ⟨hc, rfl⟩
  · next hc => cases h; exact .inr ⟨Bool.eq_false_iff.2 hc, rfl⟩

theorem encodeEndRule_effect {a : Arch} {e : Effect} (h : encodeEndRule a = .next e) :
    e = respond 0#32
      { closeWriter (start a) with arch := { (closeWriter (start a)).arch with phase := .ready } } := by
  cases h
  rfl

theorem decodeRule_effect {b : BitVec 8} {a : Arch} {e : Effect} (h : decodeRule b a = .next e) :
    e = respond 0#32 ((bitsOfByte b).foldl decodeBit (start { startDecode a with phase := .dec })) := by
  rw [decodeRule, Host.Outcome.next.injEq] at h
  exact h.symm

theorem decodeEndRule_effect {a : Arch} {e : Effect} (h : decodeEndRule a = .next e) :
    ((startDecode a).emitted = (startDecode a).total ∧ e = respond 0#32 (start { startDecode a with phase := .ready })) ∨
    ((startDecode a).emitted ≠ (startDecode a).total ∧ (startDecode a).cur = (startDecode a).root ∧
      e = raise .endOfStream (start (startDecode a))) ∨
    ((startDecode a).emitted ≠ (startDecode a).total ∧ (startDecode a).cur ≠ (startDecode a).root ∧
      e = raise .corruptStream (start (startDecode a))) := by
  unfold decodeEndRule at h
  dsimp only at h
  split at h
  · next he => cases h; exact .inl ⟨of_decide_eq_true he, rfl⟩
  · next he =>
    have hne : (startDecode a).emitted ≠ (startDecode a).total := fun hc => he (decide_eq_true hc)
    split at h
    · next hc => cases h; exact .inr (.inl ⟨hne, of_decide_eq_true hc, rfl⟩)
    · next hc => cases h; exact .inr (.inr ⟨hne, fun h => hc (decide_eq_true h), rfl⟩)

/-! ### Records (R63) -/

/-- Every record is of the stream `st`. -/
def AllOn (st : Stream) (outs : List OutRecord) : Prop := ∀ r ∈ outs, r.stream = st

theorem AllOn.nil (st : Stream) : AllOn st [] := by simp [AllOn]

theorem AllOn.append_singleton {st : Stream} {outs : List OutRecord} (h : AllOn st outs) (b : BitVec 8) :
    AllOn st (outs ++ [⟨st, b⟩]) := by
  simpa [AllOn, or_imp, forall_and] using h

/-- A written bit is held, or with the seven held before it leaves as a byte (40_bitstream.md R82). -/
theorem writeBit_outs (c : Busy) (b : Bool) :
    (c.arch.wcnt = 7#3 ∧ (writeBit c b).arch.wcnt = 0#3 ∧ ∃ v, (writeBit c b).outs = c.outs ++ [⟨.cbyte, v⟩]) ∨
    (c.arch.wcnt ≠ 7#3 ∧ (writeBit c b).arch.wcnt = c.arch.wcnt + 1#3 ∧ (writeBit c b).outs = c.outs) := by
  unfold writeBit
  dsimp only
  split
  · next h => exact .inl ⟨h, rfl, _, rfl⟩
  · next h => exact .inr ⟨h, rfl, rfl⟩

/-- Eight bits for each byte that has left, and the bits held: as many as were written. -/
theorem foldl_writeBit_outs (q : Bits) (c : Busy) (h : AllOn .cbyte c.outs) :
    AllOn .cbyte (q.foldl writeBit c).outs ∧
    8 * (q.foldl writeBit c).outs.length + (q.foldl writeBit c).arch.wcnt.toNat =
      8 * c.outs.length + c.arch.wcnt.toNat + q.length := by
  induction q generalizing c with
  | nil => exact ⟨h, rfl⟩
  | cons b q ih =>
    rw [List.foldl_cons, List.length_cons]
    rcases writeBit_outs c b with ⟨h7, hn, v, ho⟩ | ⟨h7, hn, ho⟩
    · obtain ⟨hall, hlen⟩ := ih (writeBit c b) (ho ▸ h.append_singleton v)
      refine ⟨hall, hlen.trans ?_⟩
      rw [ho, hn, h7, List.length_append]
      simp
      omega
    · obtain ⟨hall, hlen⟩ := ih (writeBit c b) (ho ▸ h)
      refine ⟨hall, hlen.trans ?_⟩
      have hne : c.arch.wcnt.toNat ≠ 7 := fun hc => h7 (BitVec.eq_of_toNat_eq hc)
      rw [ho, hn]
      bv_omega

theorem closeWriter_outs (a : Arch) : (closeWriter (start a)).outs.length ≤ 1 ∧ AllOn .cbyte (closeWriter (start a)).outs := by
  rw [closeWriter_eq]
  by_cases hn : a.wcnt = 0#3 <;> simp [hn, AllOn]

/-- One decoder step emits at most one symbol (44_codec.md R121). -/
theorem decodeBit_outs (c : Busy) (b : Bool) :
    (decodeBit c b).outs = c.outs ∨ ∃ x, (decodeBit c b).outs = c.outs ++ [⟨.dsym, x⟩] := by
  rcases decodeBit_cases c b with ⟨-, h⟩ | ⟨-, -, h⟩ | ⟨-, -, n, -, ⟨-, h⟩ | ⟨-, h⟩⟩ <;> rw [h]
  · exact .inl rfl
  · exact .inr ⟨_, rfl⟩
  · exact .inr ⟨_, rfl⟩
  · exact .inl rfl

theorem foldl_decodeBit_outs (q : Bits) (c : Busy) (h : AllOn .dsym c.outs) :
    AllOn .dsym (q.foldl decodeBit c).outs ∧ (q.foldl decodeBit c).outs.length ≤ c.outs.length + q.length := by
  induction q generalizing c with
  | nil => exact ⟨h, Nat.le_refl _⟩
  | cons b q ih =>
    rw [List.foldl_cons, List.length_cons]
    rcases decodeBit_outs c b with ho | ⟨x, ho⟩
    · obtain ⟨hall, hlen⟩ := ih (decodeBit c b) (ho ▸ h)
      rw [ho] at hlen
      exact ⟨hall, by omega⟩
    · obtain ⟨hall, hlen⟩ := ih (decodeBit c b) (ho ▸ h.append_singleton x)
      rw [ho, List.length_append, List.length_singleton] at hlen
      exact ⟨hall, by omega⟩

/-- The records R63 lets the command `i` emit. -/
def RecordsOk (i : Instr) (outs : List OutRecord) : Prop :=
  match i with
  | .enc _ => outs.length ≤ 32 ∧ AllOn .cbyte outs
  | .encend => outs.length ≤ 1 ∧ AllOn .cbyte outs
  | .dec _ => outs.length ≤ 8 ∧ AllOn .dsym outs
  | .nop | .clr | .cnt _ | .build | .derive | .decend | .rdr _ | .rdf _ | .rdl _ | .rdc _ _ | .rdn _ _ => outs = []

theorem RecordsOk.nil (i : Instr) : RecordsOk i [] := by
  cases i <;> simp [RecordsOk, AllOn]

/-- A code has at most 255 bits and the writer held at most 7: no more than 32 bytes. -/
theorem encodeRule_records {x : Sym} {a : Arch} {e : Effect} (h : encodeRule x a = .next e) : RecordsOk (.enc x) e.outs := by
  rcases encodeRule_effect h with ⟨-, rfl⟩ | ⟨-, rfl⟩
  · obtain ⟨hall, hlen⟩ := foldl_writeBit_outs (a.codeAt x).path (start (startEncode a)) (.nil .cbyte)
    have hcode : (a.codeAt x).path.length < 256 := by
      rw [CodeEntry.path, List.length_map, List.length_range]
      exact (a.codeAt x).len.isLt
    have hheld : (startEncode a).wcnt.toNat < 8 := (startEncode a).wcnt.isLt
    refine ⟨?_, hall⟩
    rw [start_outs, start_arch, List.length_nil] at hlen
    rw [respond_outs]
    omega
  · obtain ⟨hlen, hall⟩ := closeWriter_outs (startEncode a)
    exact ⟨hlen.trans (by decide), hall⟩

theorem decodeRule_records {b : BitVec 8} {a : Arch} {e : Effect} (h : decodeRule b a = .next e) : RecordsOk (.dec b) e.outs := by
  obtain ⟨hall, hlen⟩ := foldl_decodeBit_outs (bitsOfByte b) (start { startDecode a with phase := .dec }) (.nil .dsym)
  rw [decodeRule_effect h, respond_outs]
  exact ⟨hlen.trans (by simp [bitsOfByte]), hall⟩

theorem readout_outs {view : Arch → Option (BitVec 32)} {a : Arch} {e : Effect} (h : readout view a = .next e) : e.outs = [] := by
  rcases readout_next view a with ⟨v, -, h'⟩ | ⟨-, h'⟩ <;> rw [h'] at h <;> cases h
  · rfl
  · unfold illegal
    split <;> rfl

theorem ruleOf_records {i : Instr} {a : Arch} {e : Effect} (h : ruleOf i a = .next e) : RecordsOk i e.outs := by
  cases i
  case clr => cases h; rfl
  case cnt x => rcases countRule_effect h with ⟨-, rfl⟩ | ⟨-, rfl⟩ <;> rfl
  case build => rcases buildRule_effect h with ⟨-, rfl⟩ | ⟨-, rfl⟩ <;> rfl
  case derive => obtain ⟨rs, rfl⟩ := deriveRule_effect h; rfl
  case enc x => exact encodeRule_records h
  case encend => rw [encodeEndRule_effect h]; exact closeWriter_outs a
  case dec b => exact decodeRule_records h
  case decend => rcases decodeEndRule_effect h with ⟨-, rfl⟩ | ⟨-, -, rfl⟩ | ⟨-, -, rfl⟩ <;> rfl
  case nop | rdr | rdf | rdl | rdc | rdn => rw [ruleOf_eq_readout rfl] at h; exact readout_outs h

theorem checked_records {i : Instr} {a : Arch} {e : Effect} (h : checked i (ruleOf i) a = .next e) : RecordsOk i e.outs := by
  rcases checked_cases i (ruleOf i) a with ⟨-, hc⟩ | ⟨-, -, hc⟩ | ⟨-, -, hc⟩ <;> rw [hc] at h
  · exact ruleOf_records h
  · cases h; exact .nil i
  · cases h; exact .nil i

/-- A delivered effect is what the host sees of it. -/
theorem gives_deliver (s : State) (e : Effect) : Gives (.next (s.deliver e)) s (s.deliver e).arch e.outs e.ok e.data := rfl

theorem record_bits (b : BitVec 8) :
    (OutRecord.mk .cbyte b).bits.toNat = b.toNat ∧ (OutRecord.mk .dsym b).bits.toNat = 256 + b.toNat := by
  constructor <;> rw [OutRecord.bits, append_toNat] <;> simp

/-- Settles O10. -/
theorem outputRecordsOfEachCommand : Obligations.OutputRecordsOfEachCommand := by
  unfold Obligations.OutputRecordsOfEachCommand
  refine ⟨record_bits, fun i s t h => ?_⟩
  obtain ⟨e, he, rfl⟩ := exec_next h
  exact ⟨e.outs, e.ok, e.data, gives_deliver s e, checked_records he⟩

end Sys2Proof.Machine

end

section
/-! SUPPORT. The response of each command (30_encoding.md R64): its `ok`, its data, and where its fields stand. -/

namespace Sys2Proof.Machine

/-- How a command that is no read ends: it responds without data and
is not in phase ERR then, or it raises an error. -/
def RespondsOrRaises (e : Effect) : Prop :=
  (∃ c, e = respond 0#32 c ∧ c.arch.phase ≠ .err) ∨ ∃ r c, e = raise r c

theorem RespondsOrRaises.respond {c : Busy} (h : c.arch.phase ≠ .err) : RespondsOrRaises (respond 0#32 c) := .inl ⟨c, rfl, h⟩

theorem RespondsOrRaises.raise (r : ErrorCode) (c : Busy) : RespondsOrRaises (raise r c) := .inr ⟨r, c, rfl⟩

theorem foldl_writeBit_phase (q : Bits) (c : Busy) : (q.foldl writeBit c).arch.phase = c.arch.phase := by
  obtain ⟨w, n, h⟩ := foldl_writeBit_arch q c
  rw [h]

theorem foldl_writeBit_err (q : Bits) (c : Busy) : (q.foldl writeBit c).arch.err = c.arch.err := by
  obtain ⟨w, n, h⟩ := foldl_writeBit_arch q c
  rw [h]

theorem legalIn_enc_iff {x : Sym} {p : Phase} : legalIn (.enc x) p = true ↔ p = .ready ∨ p = .enc := by
  simp [legalIn, legalPhases]

theorem startEncode_phase {a : Arch} (hp : a.phase = .ready ∨ a.phase = .enc) : (startEncode a).phase = .enc := by
  rcases startEncode_eq hp with ⟨-, hs⟩ | ⟨hp, hs⟩ <;> rw [hs]
  exact hp

theorem startEncode_err (a : Arch) : (startEncode a).err = a.err := by
  obtain ⟨w, n, p, h⟩ := startEncode_arch a
  rw [h]

theorem ruleOf_respondsOrRaises {i : Instr} {a : Arch} {e : Effect} (hr : readsOnly i = false) (hl : legalIn i a.phase = true)
    (h : ruleOf i a = .next e) : RespondsOrRaises e := by
  cases i
  case clr => cases h; exact .respond (by simp [Arch.reset])
  case cnt x =>
    have hp : a.phase = .count := by simpa [legalIn, legalPhases] using hl
    rcases countRule_effect h with ⟨-, rfl⟩ | ⟨-, rfl⟩
    · exact .raise _ _
    · exact .respond (by simp [hp])
  case build =>
    rcases buildRule_effect h with ⟨-, rfl⟩ | ⟨-, rfl⟩
    · exact .raise _ _
    · exact .respond (by simp [withArena])
  case derive => obtain ⟨rs, rfl⟩ := deriveRule_effect h; exact .respond (by simp)
  case enc x =>
    rcases encodeRule_effect h with ⟨-, rfl⟩ | ⟨-, rfl⟩
    · refine .respond ?_
      rw [foldl_writeBit_phase, start_arch, startEncode_phase (legalIn_enc_iff.1 hl)]
      decide
    · exact .raise _ _
  case encend => rw [encodeEndRule_effect h]; exact .respond (by simp)
  case dec b =>
    obtain ⟨i, n, hq⟩ := foldl_decodeBit_arch (bitsOfByte b) (start { startDecode a with phase := .dec })
    rw [decodeRule_effect h]
    exact .respond (by simp [hq])
  case decend =>
    rcases decodeEndRule_effect h with ⟨-, rfl⟩ | ⟨-, -, rfl⟩ | ⟨-, -, rfl⟩
    · exact .respond (by simp)
    · exact .raise _ _
    · exact .raise _ _
  all_goals cases hr

/-- What R64 says of the effect `e` of the command `i` at `a`. -/
structure ResponseOk (i : Instr) (a : Arch) (e : Effect) : Prop where
  ok : e.ok = false ↔ e.arch.phase = .err ∧ ¬ (a.phase = .err ∧ readsOnly i = true)
  noData : e.ok = false → e.data = 0#32
  data : e.ok = true → readView i a = some e.data

theorem readView_of_not_readsOnly {i : Instr} (hr : readsOnly i = false) (a : Arch) : readView i a = some 0#32 := by
  cases i
  case nop | rdr | rdf | rdl | rdc | rdn => cases hr
  all_goals rfl

theorem responseOk_of_fails {i : Instr} {e : Effect} (a : Arch) (hr : readsOnly i = false) (hok : e.ok = false)
    (hdata : e.data = 0#32) (hp : e.arch.phase = .err) : ResponseOk i a e where
  ok := iff_of_true hok ⟨hp, fun h => by simp [hr] at h⟩
  noData _ := hdata
  data h := by simp [hok] at h

theorem ruleOf_responseOk {i : Instr} {a : Arch} {e : Effect} (hw : i.wellFormed = true) (hl : legalIn i a.phase = true)
    (h : ruleOf i a = .next e) : ResponseOk i a e := by
  cases hr : readsOnly i
  · rcases ruleOf_respondsOrRaises hr hl h with ⟨c, rfl, hp⟩ | ⟨r, c, rfl⟩
    · exact ⟨iff_of_false (by simp) fun hc => hp hc.1, fun _ => rfl, fun _ => readView_of_not_readsOnly hr a⟩
    · exact responseOk_of_fails a hr rfl rfl rfl
  · obtain ⟨v, hv, rfl⟩ := readsOnly_effect hr hw h
    exact ⟨iff_of_false (by simp) fun hc => hc.2 ⟨hc.1, hr⟩, fun hc => by simp at hc, fun _ => hv⟩

theorem readsOnly_of_not_legal {i : Instr} {p : Phase} (h : legalIn i p = false) : readsOnly i = false := by
  cases hr : readsOnly i
  · rfl
  · rw [legalIn_of_readsOnly hr p] at h
    cases h

theorem checked_responseOk {i : Instr} {a : Arch} {e : Effect} (hw : i.wellFormed = true)
    (h : checked i (ruleOf i) a = .next e) : ResponseOk i a e := by
  rcases checked_cases i (ruleOf i) a with ⟨hl, hc⟩ | ⟨hl, hp, hc⟩ | ⟨hl, -, hc⟩ <;> rw [hc] at h
  · exact ruleOf_responseOk hw hl h
  · cases h; exact responseOk_of_fails a (readsOnly_of_not_legal hl) rfl rfl hp
  · cases h; exact responseOk_of_fails a (readsOnly_of_not_legal hl) rfl rfl rfl

theorem response_fields (r : Response) : r.bits.getLsbD 39 = r.ok ∧ r.bits.extractLsb' 36 3 = r.phase.bits ∧
    r.bits.extractLsb' 32 4 = r.err.bits ∧ r.bits.extractLsb' 0 32 = r.data := by
  obtain ⟨ok, phase, err, data⟩ := r
  refine ⟨?_, ?_, ?_, ?_⟩
  · simp only [Response.bits, BitVec.getLsbD_append]
    simp
  all_goals
    rw [← BitVec.toNat_inj, BitVec.extractLsb'_toNat, Nat.shiftRight_eq_div_pow]
    simp only [Response.bits, append_toNat]
    omega

/-- Settles O11. -/
theorem responseWordHoldsR64 : Obligations.ResponseWordHoldsR64 := by
  unfold Obligations.ResponseWordHoldsR64
  refine ⟨response_fields, fun i s t hw h => ?_⟩
  obtain ⟨e, he, rfl⟩ := exec_next h
  obtain ⟨hok, hnoData, hdata⟩ := checked_responseOk hw he
  refine ⟨e.outs, e.ok, e.data, gives_deliver s e, hok, hnoData, fun h => ?_⟩
  specialize hdata h
  cases i
  case rdr | rdn => exact hdata
  all_goals exact (Option.some.inj hdata).symm

end Sys2Proof.Machine
end

section
/-! SUPPORT. The transitions of PHASE and ERR (30_encoding.md R71). -/

namespace Sys2Proof.Machine

/-- The columns of R71: PHASE and ERR. -/
def phaseErr (a : Arch) : Phase × ErrorCode := (a.phase, a.err)

/-- Once there is a tree, something has been counted (10_state.md R23, items 1 and 4). -/
theorem Inv.total_ne_zero {a : Arch} (h : Inv a) (hn : a.nnodes ≠ 0#10) : a.total ≠ 0#32 := by
  obtain ⟨x, hx⟩ := List.exists_mem_of_ne_nil _ (h.tree hn).someSym
  have hle := freqAt_le_freqSum a x
  have hf := mem_distinctSyms.1 hx
  rw [← h.total] at hle
  intro h0
  rw [h0] at hle
  exact hf (BitVec.eq_of_toNat_eq (Nat.le_zero.1 hle))

/-! ### The rows of R71 -/

theorem transition_of_readsOnly {i : Instr} (hr : readsOnly i = true) (a : Arch) : transition i a = phaseErr a := by
  cases i
  case nop | rdr | rdf | rdl | rdc | rdn => rfl
  all_goals cases hr

section Rows

variable {a : Arch}

theorem transition_cnt (x : Sym) (hp : a.phase = .count) :
    transition (.cnt x) a = if a.total = Config.cntMax then (.err, .countOverflow) else (.count, a.err) := by
  unfold transition
  rw [hp]

theorem transition_build (hp : a.phase = .count) :
    transition .build a = if a.total = 0#32 then (.err, .emptyInput) else (.tree, a.err) := by
  unfold transition
  rw [hp]

theorem transition_derive (hp : a.phase = .tree) : transition .derive a = (.ready, a.err) := by
  unfold transition
  rw [hp]

theorem transition_enc (x : Sym) (hp : a.phase = .ready ∨ a.phase = .enc) :
    transition (.enc x) a = if (a.codeAt x).valid then (.enc, a.err) else (.err, .unknownSymbol) := by
  unfold transition
  rcases hp with hp | hp <;> rw [hp]

theorem transition_encend (hp : a.phase = .ready ∨ a.phase = .enc) : transition .encend a = (.ready, a.err) := by
  unfold transition
  rcases hp with hp | hp <;> rw [hp]

theorem transition_dec (b : BitVec 8) (hp : a.phase = .ready ∨ a.phase = .dec) : transition (.dec b) a = (.dec, a.err) := by
  unfold transition
  rcases hp with hp | hp <;> rw [hp]

theorem transition_decend_ready (hp : a.phase = .ready) : transition .decend a = (.err, .endOfStream) := by
  unfold transition
  rw [hp]

theorem transition_decend_dec (hp : a.phase = .dec) :
    transition .decend a = if a.emitted = a.total then (.ready, a.err)
      else if a.cur = a.root then (.err, .endOfStream) else (.err, .corruptStream) := by
  unfold transition
  rw [hp]

/-- Where a command is not legal it is refused in phase ERR and raises ProtocolError elsewhere: R71 has no other entry where R70 has
a blank. -/
theorem transition_of_not_legal {i : Instr} (hl : legalIn i a.phase = false) :
    transition i a = if a.phase = .err then phaseErr a else (.err, .protocolError) := by
  unfold transition phaseErr
  cases i <;> cases hp : a.phase <;> rw [hp] at hl <;> cases hl <;> rfl

end Rows

/-! ### The rules follow the rows -/

theorem encodeRule_transition {x : Sym} {a : Arch} {e : Effect} (hp : a.phase = .ready ∨ a.phase = .enc)
    (h : encodeRule x a = .next e) : phaseErr e.arch = transition (.enc x) a := by
  rw [transition_enc x hp]
  rcases encodeRule_effect h with ⟨hc, rfl⟩ | ⟨hc, rfl⟩
  · simp [hc, phaseErr, foldl_writeBit_phase, foldl_writeBit_err, startEncode_phase hp, startEncode_err]
  · simp [hc, phaseErr]

theorem decodeRule_transition {b : BitVec 8} {a : Arch} {e : Effect} (hp : a.phase = .ready ∨ a.phase = .dec)
    (h : decodeRule b a = .next e) : phaseErr e.arch = transition (.dec b) a := by
  obtain ⟨i, n, hs⟩ := startDecode_arch a
  obtain ⟨i', n', hq⟩ := foldl_decodeBit_arch (bitsOfByte b) (start { startDecode a with phase := .dec })
  rw [transition_dec b hp, decodeRule_arch h, hq, start_arch, hs]
  rfl

/-- In READY the stream starts at the root with nothing emitted, and something was counted: DECEND comes too early (44_codec.md
R123, R124). -/
theorem decodeEndRule_transition {a : Arch} {e : Effect} (hinv : Inv a) (hp : a.phase = .ready ∨ a.phase = .dec)
    (h : decodeEndRule a = .next e) : phaseErr e.arch = transition .decend a := by
  have hends := decodeEndRule_effect h
  rcases startDecode_eq hp with ⟨hp, hs⟩ | ⟨hp, hs⟩ <;> rw [hs] at hends
  · have htotal : 0#32 ≠ a.total := (hinv.total_ne_zero (hinv.treePhases (by simp [hp]))).symm
    rw [transition_decend_ready hp]
    rcases hends with ⟨he, -⟩ | ⟨-, -, rfl⟩ | ⟨-, hc, -⟩
    · exact absurd he htotal
    · rfl
    · exact absurd rfl hc
  · rw [transition_decend_dec hp]
    rcases hends with ⟨he, rfl⟩ | ⟨he, hc, rfl⟩ | ⟨he, hc, rfl⟩
    · rw [if_pos he]; rfl
    · rw [if_neg he, if_pos hc]; rfl
    · rw [if_neg he, if_neg hc]; rfl

theorem ruleOf_transition {i : Instr} {a : Arch} {e : Effect} (hinv : Inv a) (hw : i.wellFormed = true)
    (hl : legalIn i a.phase = true) (h : ruleOf i a = .next e) : phaseErr e.arch = transition i a := by
  cases hr : readsOnly i
  case true => rw [wellFormed_read_arch hr hw h, transition_of_readsOnly hr]
  cases i <;> simp only [legalIn, legalPhases, List.contains_iff_mem, List.mem_cons, List.not_mem_nil, or_false] at hl
  case clr => cases h; rfl
  case cnt x =>
    rw [transition_cnt x hl]
    rcases countRule_effect h with ⟨ht, rfl⟩ | ⟨ht, rfl⟩
    · rw [if_pos ht]; rfl
    · rw [if_neg ht, ← hl]; rfl
  case build =>
    rw [transition_build hl]
    rcases buildRule_effect h with ⟨ht, rfl⟩ | ⟨ht, rfl⟩
    · rw [if_pos ht]; rfl
    · rw [if_neg ht]; rfl
  case derive =>
    obtain ⟨rs, rfl⟩ := deriveRule_effect h
    exact (transition_derive hl).symm
  case enc x => exact encodeRule_transition hl h
  case encend => rw [encodeEndRule_arch h, transition_encend hl]; rfl
  case dec b => exact decodeRule_transition hl h
  case decend => exact decodeEndRule_transition hinv hl h
  all_goals cases hr

theorem checked_transition {i : Instr} {a : Arch} {e : Effect} (hinv : Inv a) (hw : i.wellFormed = true)
    (h : checked i (ruleOf i) a = .next e) : phaseErr e.arch = transition i a := by
  rcases checked_cases i (ruleOf i) a with ⟨hl, hc⟩ | ⟨hl, hp, hc⟩ | ⟨hl, hp, hc⟩ <;> rw [hc] at h
  · exact ruleOf_transition hinv hw hl h
  · cases h; rw [transition_of_not_legal hl, if_pos hp, refuse_arch]
  · cases h; rw [transition_of_not_legal hl, if_neg hp]; rfl

theorem illegalWord_transition {w : CmdWord} {s t : State} (hw : IllegalWord w) (h : execWord w s = .next t) :
    t.arch.phase = .err ∧ t.arch.err = if s.arch.phase = .err then s.arch.err else .illegalCommand := by
  rw [execWord_of_illegalWord hw] at h
  cases h
  rw [State.deliver_arch, illegal]
  split
  · next hp => exact ⟨hp, rfl⟩
  · exact ⟨rfl, rfl⟩

theorem step_reset_arch {s t : State} {e : HostEvent} {rest : List HostEvent} (hin : s.input = e :: rest)
    (he : e = .reset ∨ ∃ w, e = .wordThenReset w) (h : step s = .next t) : t.arch = Arch.reset := by
  unfold step takeNext at h
  rw [hin] at h
  rcases he with rfl | ⟨w, rfl⟩ <;> cases h <;> rfl

/-- Settles O51. -/
theorem phaseTransitionsAreThoseOfR71 : Obligations.PhaseTransitionsAreThoseOfR71 := by
  unfold Obligations.PhaseTransitionsAreThoseOfR71
  refine ⟨fun i s t hinv hw h => ?_, fun w s t => illegalWord_transition, fun s t e rest hin he h => ?_⟩
  · obtain ⟨e, he, rfl⟩ := exec_next h
    exact checked_transition hinv hw he
  · rw [step_reset_arch hin he h]
    exact ⟨rfl, rfl⟩

end Sys2Proof.Machine
end

section
/-! SUPPORT. The bit stream (40_bitstream.md): bytes as groups of eight bits, where the writer places a bit, what a writer that began
empty has sent and holds, and what closing adds. -/

namespace Sys2Proof.Machine

/-! ### Bytes and bits (R81) -/

@[simp] theorem bitsOfByte_length (b : BitVec 8) : (bitsOfByte b).length = 8 := by simp [bitsOfByte]

theorem bitsOfByte_getElem? (b : BitVec 8) {n : Nat} (hn : n < 8) : (bitsOfByte b)[n]? = some (b.getMsbD n) := by
  simp [bitsOfByte, hn]

theorem bitsOfByte_injective {b b' : BitVec 8} (h : bitsOfByte b = bitsOfByte b') : b = b' := by
  refine BitVec.eq_of_getMsbD_eq fun n hn => ?_
  rw [← Option.some_inj, ← bitsOfByte_getElem? b hn, ← bitsOfByte_getElem? b' hn, h]

@[simp] theorem unpack_length (bs : List (BitVec 8)) : (unpack bs).length = 8 * bs.length := by
  simp [unpack, Nat.mul_comm]

/-- Bits `8j` to `8j + 7` of an unpacked list are byte `j`, its most significant bit first. -/
theorem unpack_getElem? {bs : List (BitVec 8)} {j n : Nat} (hn : n < 8) (hj : j < bs.length) :
    (unpack bs)[8 * j + n]? = some ((bs.getD j 0#8).getMsbD n) := by
  induction bs generalizing j with
  | nil => cases hj
  | cons b bs ih =>
    rw [unpack, List.flatMap_cons]
    cases j with
    | zero => rw [List.getElem?_append_left (by simp; omega), Nat.mul_zero, Nat.zero_add, bitsOfByte_getElem? b hn]; rfl
    | succ j =>
      rw [List.getElem?_append_right (by simp; omega), bitsOfByte_length, show 8 * (j + 1) + n - 8 = 8 * j + n by omega]
      exact ih (Nat.lt_of_succ_lt_succ hj)

/-- A byte's value is the sum of its bits' weights. -/
theorem byte_toNat_eq_weights (b : BitVec 8) :
    b.toNat = 128 * (b.getLsbD 7).toNat + 64 * (b.getLsbD 6).toNat + 32 * (b.getLsbD 5).toNat + 16 * (b.getLsbD 4).toNat +
      8 * (b.getLsbD 3).toNat + 4 * (b.getLsbD 2).toNat + 2 * (b.getLsbD 1).toNat + (b.getLsbD 0).toNat := by
  have hb := b.isLt
  simp only [BitVec.getLsbD, Nat.toNat_testBit]
  omega

/-! ### The bits held (10_state.md R19) -/

@[simp] theorem heldBits_length (a : Arch) : (heldBits a).length = a.wcnt.toNat := by simp [heldBits]

theorem writerClean_of_wacc_zero {a : Arch} (hw : a.wacc = 0#8) : WriterClean a := by simp [WriterClean, hw]

theorem heldBits_of_wcnt_zero {a : Arch} (hn : a.wcnt = 0#3) : heldBits a = [] := by simp [heldBits, hn]

/-- A clean writer that holds no bit has an empty accumulator. -/
theorem WriterClean.wacc_eq_zero {a : Arch} (h : WriterClean a) (hn : a.wcnt = 0#3) : a.wacc = 0#8 :=
  BitVec.eq_of_getMsbD_eq fun i _ => by rw [h i (by simp [hn])]; simp

/-- The accumulator as a byte: the bits held, then zeros. -/
theorem WriterClean.bitsOfByte_wacc {a : Arch} (h : WriterClean a) :
    bitsOfByte a.wacc = heldBits a ++ List.replicate (8 - a.wcnt.toNat) false := by
  have hlt : a.wcnt.toNat < 8 := a.wcnt.isLt
  refine List.ext_getElem (by simp; omega) fun i hi _ => ?_
  by_cases hheld : i < a.wcnt.toNat
  · simp [bitsOfByte, heldBits, List.getElem_append_left, hheld]
  · rw [List.getElem_append_right (by simpa using hheld), List.getElem_replicate]
    simpa [bitsOfByte] using h i (by omega)

/-! ### Where a bit lands (R82) -/

theorem placedBit_eq (b : Bool) (k : Nat) :
    (BitVec.ofBool b).zeroExtend 8 <<< k = if b then BitVec.twoPow 8 k else 0#8 := by
  cases b <;> simp [BitVec.twoPow]

theorem placedBit_toNat (b : Bool) (n : Nat) :
    ((BitVec.ofBool b).zeroExtend 8 <<< (7 - n)).toNat = if b then 2 ^ (7 - n) else 0 := by
  rw [placedBit_eq]
  split
  · rw [BitVec.toNat_twoPow, Nat.mod_eq_of_lt (Nat.pow_lt_pow_right (by decide) (by omega))]
  · rfl

/-- The place of the next bit is free. -/
theorem WriterClean.and_placedBit {a : Arch} (h : WriterClean a) (b : Bool) :
    a.wacc &&& ((BitVec.ofBool b).zeroExtend 8 <<< (7 - a.wcnt.toNat)) = 0#8 := by
  have hlt : a.wcnt.toNat < 8 := a.wcnt.isLt
  have hfree : a.wacc.getLsbD (7 - a.wcnt.toNat) = false := by
    have hmsb := h a.wcnt.toNat le_rfl
    rw [BitVec.getMsbD_eq_getLsbD] at hmsb
    simpa [hlt] using hmsb
  rw [placedBit_eq]
  split
  · rw [BitVec.and_twoPow, hfree]; rfl
  · exact BitVec.and_zero

/-- Placing a bit in its free place adds its weight: the sum is exact. -/
theorem WriterClean.or_placedBit_toNat {a : Arch} (h : WriterClean a) (b : Bool) :
    (a.wacc ||| ((BitVec.ofBool b).zeroExtend 8 <<< (7 - a.wcnt.toNat))).toNat =
      a.wacc.toNat + if b then 2 ^ (7 - a.wcnt.toNat) else 0 := by
  rw [← BitVec.add_eq_or_of_and_eq_zero _ _ (h.and_placedBit b), BitVec.toNat_add_of_and_eq_zero (h.and_placedBit b),
    placedBit_toNat]

/-- Settles O31: the place of the new bit is free, so the accumulator is an exact sum. -/
theorem writeBitPlacesTheBit : Obligations.WriteBitPlacesTheBit := by
  unfold Obligations.WriteBitPlacesTheBit
  intro c bit h
  dsimp only
  rw [← h.or_placedBit_toNat bit, BitVec.ofNat_toNat, BitVec.setWidth_eq]
  refine ⟨fun h7 => ?_, fun h7 => ?_, BitVec.isLt _⟩
  · simp [writeBit, h7, emit]
  · simp [writeBit, h7]

/-! ### A writer that began empty (R84) -/

section Empty

variable {c : Busy} (hw : c.arch.wacc = 0#8) (hn : c.arch.wcnt = 0#3) (q : Bits)
include hw hn

/-- The bytes sent and the bits held are the bits written; eight bits left for each byte. -/
theorem foldl_writeBit_of_empty :
    ∃ bs : List (BitVec 8), (q.foldl writeBit c).outs = c.outs ++ bs.map (OutRecord.mk .cbyte) ∧
      unpack bs ++ heldBits (q.foldl writeBit c).arch = q ∧ bs.length = q.length / 8 ∧
      (q.foldl writeBit c).arch.wcnt.toNat = q.length % 8 ∧ WriterClean (q.foldl writeBit c).arch := by
  obtain ⟨hclean, -, bs, houts, hbits⟩ := writeBits_bits q c (writerClean_of_wacc_zero hw)
  rw [heldBits_of_wcnt_zero hn, List.nil_append] at hbits
  have hlen : 8 * bs.length + (q.foldl writeBit c).arch.wcnt.toNat = q.length := by
    simpa using congrArg List.length hbits
  have hlt : (q.foldl writeBit c).arch.wcnt.toNat < 8 := BitVec.isLt _
  exact ⟨bs, houts, hbits, by omega, by omega, hclean⟩

/-- A byte's eight bits leave as that byte, and the writer is empty again. -/
theorem foldl_writeBit_bitsOfByte (b : BitVec 8) :
    (bitsOfByte b).foldl writeBit c = { arch := c.arch, outs := c.outs ++ [⟨.cbyte, b⟩] } := by
  obtain ⟨bs, houts, hbits, hlen, hcnt, hclean⟩ := foldl_writeBit_of_empty hw hn (bitsOfByte b)
  obtain ⟨w, n, harch⟩ := foldl_writeBit_arch (bitsOfByte b) c
  generalize (bitsOfByte b).foldl writeBit c = d at *
  have hn' : d.arch.wcnt = 0#3 := BitVec.eq_of_toNat_eq (by simpa using hcnt)
  have hw' := hclean.wacc_eq_zero hn'
  obtain ⟨b', rfl⟩ := List.length_eq_one_iff.1 (by simpa using hlen)
  have hb : b' = b := bitsOfByte_injective (by simpa [unpack, heldBits_of_wcnt_zero hn'] using hbits)
  have hsame : d.arch = c.arch := by
    rw [harch] at hn' hw' ⊢
    dsimp only at hn' hw'
    rw [hn', hw', ← hw, ← hn]
  rw [← hsame, ← hb]
  exact congrArg (Busy.mk _) houts

end Empty

/-- Settles O35. -/
theorem bytesPackMostSignificantFirst : Obligations.BytesPackMostSignificantFirst := by
  unfold Obligations.BytesPackMostSignificantFirst
  intro b
  refine ⟨rfl, ?_⟩
  rintro _ rfl
  exact ⟨byte_toNat_eq_weights b, fun c hw hn => foldl_writeBit_bitsOfByte hw hn b⟩

/-! ### Closing (R83) -/

/-- Settles O32. -/
theorem closeWriterPadsWithZeros : Obligations.CloseWriterPadsWithZeros := by
  unfold Obligations.CloseWriterPadsWithZeros
  intro c h
  rw [closeWriter_eq]
  exact ⟨fun hn => by simp [hn], fun hn => ⟨by simp [hn], h.bitsOfByte_wacc⟩⟩

/-- What closing sends: at most one byte, the bits held and zeros up to a whole byte. -/
theorem closeWriter_bits (c : Busy) (h : WriterClean c.arch) :
    ∃ bs : List (BitVec 8), (closeWriter c).outs = c.outs ++ bs.map (OutRecord.mk .cbyte) ∧
      bs.length = (c.arch.wcnt.toNat + 7) / 8 ∧
      unpack bs = heldBits c.arch ++ List.replicate ((8 - c.arch.wcnt.toNat) % 8) false := by
  rw [closeWriter_eq]
  by_cases hn : c.arch.wcnt = 0#3
  · exact ⟨[], by simp [hn], by simp [hn], by simp [hn, unpack, heldBits_of_wcnt_zero hn]⟩
  · have hlt : c.arch.wcnt.toNat < 8 := c.arch.wcnt.isLt
    have hpos : c.arch.wcnt.toNat ≠ 0 := fun h0 => hn (BitVec.eq_of_toNat_eq h0)
    refine ⟨[c.arch.wacc], by simp [hn], by simp; omega, ?_⟩
    rw [Nat.mod_eq_of_lt (by omega), ← h.bitsOfByte_wacc]
    simp [unpack]

/-- Settles O33: the bytes sent and the bits held are a cut of `q` at the last multiple of eight. -/
theorem writerPacksTheBits : Obligations.WriterPacksTheBits := by
  unfold Obligations.WriterPacksTheBits
  intro c q hw hn ho
  obtain ⟨bs, houts, hbits, hlen, hcnt, hclean⟩ := foldl_writeBit_of_empty hw hn q
  rw [ho, List.nil_append] at houts
  obtain ⟨last, hclose, hlast, -⟩ := closeWriter_bits _ hclean
  refine ⟨bs, houts, hlen, hcnt, fun j n hlt hj => ?_, ?_, hclean, ?_⟩
  · have hq : q[8 * j + n]? = some ((bs.getD j 0#8).getMsbD n) := by
      rw [← hbits, List.getElem?_append_left (by simp; omega), unpack_getElem? hlt hj]
    rw [List.getD_eq_getElem?_getD (l := q), hq, Option.getD_some, BitVec.getMsbD_eq_getLsbD]
    simp [hlt]
  · conv_rhs => rw [← hbits]
    exact (List.drop_left' (unpack_length bs)).symm
  · rw [hclose, houts]
    simp
    omega

/-- Settles O34: the padding that closing adds completes the bits held to a byte. -/
theorem writtenBitsReadBack : Obligations.WrittenBitsReadBack := by
  unfold Obligations.WrittenBitsReadBack
  intro c q hw hn ho
  obtain ⟨bs, houts, hbits, -, hcnt, hclean⟩ := foldl_writeBit_of_empty hw hn q
  obtain ⟨last, hclose, -, hlast⟩ := closeWriter_bits _ hclean
  refine ⟨bs ++ last, by rw [hclose, houts, ho, List.nil_append, List.map_append], ?_⟩
  calc unpack (bs ++ last) = unpack bs ++ unpack last := List.flatMap_append
    _ = q ++ List.replicate ((8 - q.length % 8) % 8) false := by rw [hlast, ← List.append_assoc, hbits, hcnt]

end Sys2Proof.Machine
end

section
/-! SUPPORT. What a command answers, by its checks and its rule; a run of command words, one word at a time; CNT
(41_frequency.md R91, R92) and sequences of it (R90). -/

namespace Sys2Proof.Machine

/-! ### Answers and runs of commands -/

/-- A command that takes effect answers that effect (30_encoding.md R64). -/
theorem answers_of_checked {i : Instr} {s : State} {e : Effect} (h : checked i (ruleOf i) s.arch = .next e) :
    Answers i s e.arch e.outs e.ok e.data := by
  rw [Answers, exec_eq_command, command_of_next h]
  exact gives_deliver s e

/-- A command that phase ERR refuses is turned away outside its phases in the table of 30_encoding.md R70. -/
theorem turnedAway_legalPhases {i : Instr} (herr : Phase.err ∉ legalPhases i) (s : State) : TurnedAway i (legalPhases i) s := by
  have hlegal : legalIn i s.arch.phase = true ↔ s.arch.phase ∈ legalPhases i := List.contains_iff_mem
  rcases checked_cases i (ruleOf i) s.arch with ⟨hl, -⟩ | ⟨-, hp, h⟩ | ⟨-, hp, h⟩
  · have hmem := hlegal.mp hl
    exact ⟨fun hp => absurd (hp ▸ hmem) herr, fun _ hn => absurd hmem hn⟩
  · exact ⟨fun _ => answers_of_checked h, fun hn => absurd hp hn⟩
  · exact ⟨fun he => absurd he hp, fun _ _ => answers_of_checked h⟩

/-- The machine with the words of the commands `is` to take, one after another: where `feed` starts. -/
def withCommands (s : State) (is : List Instr) : State := { s with input := is.map fun i => .word (encode i) }

theorem feed_nil (s : State) : feed s [] = .next (withCommands s []) := rfl

/-- A step takes the first command and delivers its effect. -/
theorem step_withCommands_cons {i : Instr} {s : State} {e : Effect} (hw : i.wellFormed = true)
    (h : checked i (ruleOf i) s.arch = .next e) (is : List Instr) :
    step (withCommands s (i :: is)) = .next (withCommands (s.deliver e) is) := by
  rw [step_word rfl, execWord_of_decode (decodeOfEncodeIsSameCommand i hw), exec_eq_command]
  exact command_of_next h

theorem run_succ_of_step {M : Host.Core} {s t : M.State} (h : M.step s = .next t) (k : Nat) : M.run (k + 1) s = M.run k t := by
  rw [Host.Core.run, h]

/-- A run of commands runs the first one, and then the rest from the state it delivers. -/
theorem feed_cons {i : Instr} {s : State} {e : Effect} (hw : i.wellFormed = true) (h : checked i (ruleOf i) s.arch = .next e)
    (is : List Instr) : feed s (i :: is) = feed (s.deliver e) is :=
  run_succ_of_step (M := Sys2Proof.core) (s := withCommands s (i :: is)) (step_withCommands_cons hw h is) is.length

/-! ### CNT (R91, R92) -/

/-- The block after CNT counts one `x`. -/
def counted (x : Sym) (a : Arch) : Arch := { a.setFreq x (a.freqAt x + 1#32) with total := a.total + 1#32 }

theorem counted_freqAt {a : Arch} (h : Memory.wf freqDefault Config.nsym a.freq = true) (x y : Sym) :
    (counted x a).freqAt y = if y = x then a.freqAt x + 1#32 else a.freqAt y :=
  Arch.freqAt_setFreq h x y _

theorem wf_counted {a : Arch} (h : Memory.wf freqDefault Config.nsym a.freq = true) (x : Sym) :
    Memory.wf freqDefault Config.nsym (counted x a).freq = true :=
  Arch.wf_setFreq h x _

theorem checked_cnt_of_room {a : Arch} (hp : a.phase = .count) (hroom : a.total ≠ Config.cntMax) (x : Sym) :
    checked (.cnt x) (ruleOf (.cnt x)) a = .next (respond 0#32 (start (counted x a))) := by
  rw [checked_of_legal (by rw [hp]; rfl)]
  simp [ruleOf, countRule, countFull, hroom, counted]

theorem checked_cnt_of_full {a : Arch} (hp : a.phase = .count) (hfull : a.total = Config.cntMax) (x : Sym) :
    checked (.cnt x) (ruleOf (.cnt x)) a = .next (raise .countOverflow (start a)) := by
  rw [checked_of_legal (by rw [hp]; rfl)]
  simp [ruleOf, countRule, countFull, hfull]

/-- At CNTMAX CNT writes only PHASE and ERR. -/
theorem answers_cnt_of_full {s : State} (hp : s.arch.phase = .count) (hfull : s.arch.total = Config.cntMax) (x : Sym) :
    Answers (.cnt x) s (withError s.arch .countOverflow) [] false 0#32 :=
  answers_of_checked (checked_cnt_of_full hp hfull x)

/-- Settles O20: the two answers of the rule of CNT in phase COUNT, and the checks in every other phase. -/
theorem cntCountsOneSymbol : Obligations.CntCountsOneSymbol := by
  unfold Obligations.CntCountsOneSymbol
  intro s x
  refine ⟨fun hp hroom hwf => ?_, fun hp hfull => answers_cnt_of_full hp hfull x,
    turnedAway_legalPhases (i := .cnt x) (by simp [legalPhases]) s⟩
  exact ⟨(counted x s.arch).freq, answers_of_checked (checked_cnt_of_room hp hroom x), wf_counted hwf x, counted_freqAt hwf x⟩

/-- Below CNTMAX there is room for one more. -/
theorem toNat_lt_of_ne_cntMax {n : Count} (h : n ≠ Config.cntMax) : n.toNat < 4294967295 := by
  have hne : n.toNat ≠ 4294967295 := fun hc => h (BitVec.eq_of_toNat_eq hc)
  have := n.isLt
  omega

/-- One more does not wrap below CNTMAX. -/
theorem toNat_succ_of_lt_cntMax {n : Count} (h : n.toNat < 4294967295) : (n + 1#32).toNat = n.toNat + 1 :=
  BitVec.toNat_add_of_lt (by simp only [BitVec.toNat_ofNat]; omega)

/-- Settles O21: TOTAL is the sum of the counts, before CNT and after it, so a count has room where TOTAL has. -/
theorem cntNeverWraps : Obligations.CntNeverWraps := by
  unfold Obligations.CntNeverWraps
  intro s x hinv
  have hle : (s.arch.freqAt x).toNat ≤ s.arch.total.toNat := hinv.total ▸ freqAt_le_freqSum s.arch x
  refine ⟨hle, Nat.le_of_lt_succ s.arch.total.isLt, fun hp hroom => ?_, fun hp hfull => answers_cnt_of_full hp hfull x⟩
  have hlt := toNat_lt_of_ne_cntMax hroom
  refine ⟨_, answers_of_checked (checked_cnt_of_room hp hroom x), ?_, toNat_succ_of_lt_cntMax hlt, (hinv.count hp x hroom).total⟩
  calc ((counted x s.arch).freqAt x).toNat = (s.arch.freqAt x + 1#32).toNat := by
        rw [counted_freqAt hinv.memories.freq, if_pos rfl]
    _ = (s.arch.freqAt x).toNat + 1 := toNat_succ_of_lt_cntMax (Nat.lt_of_le_of_lt hle hlt)

/-! ### Sequences of CNT (R90) -/

/-- `b` is `a` after counting the symbols `xs`: FREQ and TOTAL have grown by them, and nothing else differs. -/
structure CountedAll (a : Arch) (xs : List Sym) (b : Arch) : Prop where
  frame : b = { a with freq := b.freq, total := b.total }
  wf : Memory.wf freqDefault Config.nsym b.freq = true
  freqAt : ∀ y, b.freqAt y = a.freqAt y + BitVec.ofNat 32 (xs.count y)
  total : b.total = a.total + BitVec.ofNat 32 xs.length

theorem CountedAll.nil {a : Arch} (h : Memory.wf freqDefault Config.nsym a.freq = true) : CountedAll a [] a where
  frame := rfl
  wf := h
  freqAt y := by simp
  total := by simp

theorem add_ofNat_succ (n : Count) (k : Nat) : n + 1#32 + BitVec.ofNat 32 k = n + BitVec.ofNat 32 (k + 1) := by
  rw [BitVec.ofNat_add, BitVec.add_assoc, BitVec.add_comm 1#32]

theorem CountedAll.cons {a b : Arch} {x : Sym} {xs : List Sym} (hwf : Memory.wf freqDefault Config.nsym a.freq = true)
    (h : CountedAll (counted x a) xs b) : CountedAll a (x :: xs) b where
  frame := h.frame
  wf := h.wf
  freqAt y := by
    rw [h.freqAt, counted_freqAt hwf]
    by_cases hy : y = x
    · rw [hy, if_pos rfl, add_ofNat_succ, List.count_cons_self]
    · rw [if_neg hy, List.count_cons_of_ne (Ne.symm hy)]
  total := by rw [h.total, List.length_cons]; exact add_ofNat_succ _ _

/-- Two FREQ memories in canonical form with the same counts are the same data. -/
theorem freq_eq_of_freqAt_eq {a b : Arch} (ha : Memory.wf freqDefault Config.nsym a.freq = true)
    (hb : Memory.wf freqDefault Config.nsym b.freq = true) (h : ∀ y, a.freqAt y = b.freqAt y) : a.freq = b.freq := by
  refine Memory.ext_of_wf ha hb fun i => ?_
  by_cases hi : i < Config.nsym
  · have hy : (BitVec.ofNat 8 i).toNat = i := Nat.mod_eq_of_lt hi
    have hread := h (BitVec.ofNat 8 i)
    rwa [Arch.freqAt, Arch.freqAt, hy] at hread
  · rw [Memory.read_outside ha (by omega), Memory.read_outside hb (by omega)]

/-- The order in which symbols are counted leaves no trace: they are counted by occurrences and by length. -/
theorem CountedAll.eq_of_perm {a b c : Arch} {xs ys : List Sym} (hb : CountedAll a xs b) (hc : CountedAll a ys c)
    (h : ys.Perm xs) : c = b := by
  have hfreq : c.freq = b.freq := freq_eq_of_freqAt_eq hc.wf hb.wf fun y => by rw [hc.freqAt, hb.freqAt, h.count_eq]
  have htotal : c.total = b.total := by rw [hc.total, hb.total, h.length_eq]
  rw [hc.frame, hb.frame, hfreq, htotal]

/-- Where there is room for all of `xs`, their CNTs run to the end and count them. -/
theorem feed_cnts (xs : List Sym) {s : State} (hp : s.arch.phase = .count)
    (hwf : Memory.wf freqDefault Config.nsym s.arch.freq = true) (hroom : s.arch.total.toNat + xs.length ≤ 4294967295) :
    ∃ t, feed s (xs.map .cnt) = .next t ∧ CountedAll s.arch xs t.arch := by
  induction xs generalizing s with
  | nil => exact ⟨_, feed_nil s, .nil hwf⟩
  | cons x xs ih =>
    rw [List.length_cons] at hroom
    have hlt : s.arch.total.toNat < 4294967295 := by omega
    have hne : s.arch.total ≠ Config.cntMax := fun hc => by rw [hc] at hlt; exact absurd hlt (by decide)
    have htotal : (counted x s.arch).total.toNat = s.arch.total.toNat + 1 := toNat_succ_of_lt_cntMax hlt
    obtain ⟨t, ht, hall⟩ := ih (s := s.deliver (respond 0#32 (start (counted x s.arch)))) hp (wf_counted hwf x)
      (by rw [State.deliver_arch, respond_arch, start_arch, htotal]; omega)
    exact ⟨t, (feed_cons rfl (checked_cnt_of_room hp hne x) _).trans ht, hall.cons hwf⟩

/-- Settles O22: counting is by occurrences and length, which a permutation keeps. -/
theorem countingIgnoresOrder : Obligations.CountingIgnoresOrder := by
  unfold Obligations.CountingIgnoresOrder
  intro s xs hp hwf hroom
  obtain ⟨t, ht, hall⟩ := feed_cnts xs hp hwf hroom
  refine ⟨t, ht, by rw [hall.frame]; exact hp, hall.freqAt, ?_, fun ys hperm => ?_⟩
  · rw [hall.total, BitVec.toNat_add, BitVec.toNat_ofNat, Nat.add_mod_mod, Nat.mod_eq_of_lt (by omega)]
  · obtain ⟨u, hu, hall'⟩ := feed_cnts ys hp hwf (hperm.length_eq ▸ hroom)
    exact ⟨u, hu, hall.eq_of_perm hall' hperm⟩

end Sys2Proof.Machine
end

section
/-! SUPPORT. What BUILD makes (42_tree_build.md R96 to R99), whatever FREQ holds, with sums of weights that may wrap; the tree of one
symbol (R102); and the weights of the tree under the invariants (R101). -/

namespace Sys2Proof.Machine

/-! ### The roots between merges (42_tree_build.md R95, R97) -/

/-- The two roots a merge takes: the first by the order of 42_tree_build.md R98, and the first of the others. -/
structure FirstTwo (ns : List Node) (forest : List Nat) (first second : Nat) : Prop where
  first_mem : first ∈ forest
  second_mem : second ∈ forest
  differ : first ≠ second
  first_prior : ∀ i ∈ forest, i ≠ first → PriorTo ns first i
  second_prior : ∀ i ∈ forest, i ≠ first → i ≠ second → PriorTo ns second i

theorem firstTwo_of_leastRoot {ns : List Node} {forest : List Nat} {first second : Nat} (hd : forest.Nodup)
    (h1 : leastRoot ns forest = some first) (h2 : leastRoot ns (forest.erase first) = some second) :
    FirstTwo ns forest first second := by
  obtain ⟨hm1, hmin1⟩ := leastRoot_spec h1
  obtain ⟨hm2, hmin2⟩ := leastRoot_spec h2
  obtain ⟨hne, hm2⟩ := hd.mem_erase_iff.1 hm2
  exact
    { first_mem := hm1
      second_mem := hm2
      differ := hne.symm
      first_prior := hmin1
      second_prior := fun i hi hi1 hi2 => hmin2 i (hd.mem_erase_iff.2 ⟨hi1, hi⟩) hi2 }

/-- Between two merges over `k` leaves `forest` lists the roots, and every node written so far is a merge. Unlike `ForestOk` it says
nothing of sums of weights, so it needs no bound on them. -/
structure RootsOk (k : Nat) (ns : List Node) (forest : List Nat) : Prop where
  nodup : forest.Nodup
  leafCount : k ≤ ns.length
  /-- each merge writes one node and takes one root away. -/
  size : ns.length + forest.length = 2 * k
  mem_iff : ∀ i, i ∈ forest ↔ IsRootBefore ns k ns.length i
  merges : ∀ n, k ≤ n → n < ns.length → IsMerge ns k n

theorem IsMerge.child_lt {ns : List Node} {k n j : Nat} (h : IsMerge ns k n) (hc : ChildOf ns j n) : j < n := by
  rcases hc with rfl | rfl
  · exact h.leftRoot.1
  · exact h.rightRoot.1

theorem isRootBefore_succ {ns : List Node} {k n i : Nat} (hk : k ≤ n) :
    IsRootBefore ns k (n + 1) i ↔ i < n + 1 ∧ (∀ m, k ≤ m → m < n → ¬ ChildOf ns i m) ∧ ¬ ChildOf ns i n := by
  refine and_congr_right fun _ => ⟨fun h => ⟨fun m hkm hlt => h m hkm (by omega), h n hk (by omega)⟩, fun ⟨hold, hn⟩ m hm hlt => ?_⟩
  rcases Nat.lt_succ_iff_lt_or_eq.1 hlt with hlt | rfl
  · exact hold m hm hlt
  · exact hn

/-! ### What a merge leaves of the nodes before it -/

section Frame

variable {k n : Nat} {ns : List Node} {first second : Nat}

theorem isRootBefore_merged_old {i : Nat} (hn : n ≤ ns.length) :
    IsRootBefore (mergedArena ns first second) k n i ↔ IsRootBefore ns k n i :=
  and_congr_right fun _ => forall₃_congr fun _ _ hlt => not_congr (childOf_merged_old (Nat.lt_of_lt_of_le hlt hn))

theorem priorTo_merged_old {i j : Nat} (hi : i < ns.length) (hj : j < ns.length) :
    PriorTo (mergedArena ns first second) i j ↔ PriorTo ns i j := by
  rw [PriorTo, nodeAt_merged_old hi, nodeAt_merged_old hj, PriorTo]

/-- A merge stays one when a later node is written: its children and its rivals come before it. -/
theorem isMerge_merged_old (hn : n < ns.length) (h : IsMerge ns k n) : IsMerge (mergedArena ns first second) k n := by
  have hleft := h.leftRoot.1.trans hn
  have hright := h.rightRoot.1.trans hn
  constructor <;> simp only [nodeAt_merged_old hn, isRootBefore_merged_old hn.le]
  case inner => exact h.inner
  case leftRoot => exact h.leftRoot
  case rightRoot => exact h.rightRoot
  case differ => exact h.differ
  case leftFirst => exact fun i hi hne => (priorTo_merged_old hleft (hi.1.trans hn)).2 (h.leftFirst i hi hne)
  case rightSecond => exact fun i hi h1 h2 => (priorTo_merged_old hright (hi.1.trans hn)).2 (h.rightSecond i hi h1 h2)
  case weight => rw [nodeAt_merged_old hleft, nodeAt_merged_old hright, h.weight]

end Frame

/-! ### One merge -/

section MergeRoots

variable {k : Nat} {ns : List Node} {forest : List Nat} {first second : Nat} (h : RootsOk k ns forest)
  (hm : FirstTwo ns forest first second) (hk : k ≤ 256)
include h

theorem RootsOk.mem_rest {i : Nat} : i ∈ (forest.erase first).erase second ↔ i ∈ forest ∧ i ≠ first ∧ i ≠ second := by
  rw [(h.nodup.erase _).mem_erase_iff, h.nodup.mem_erase_iff]
  tauto

include hm

theorem RootsOk.rest_length : ((forest.erase first).erase second).length + 2 = forest.length := by
  have hm2 : second ∈ forest.erase first := h.nodup.mem_erase_iff.2 ⟨hm.differ.symm, hm.second_mem⟩
  rw [← List.length_erase_add_one hm.first_mem, ← List.length_erase_add_one hm2]

include hk in
/-- With two roots left, the indices of roots fit the 9 bits of a child field. -/
theorem RootsOk.toNat_ofNat {i : Nat} (hi : i ∈ forest) : (BitVec.ofNat 9 i).toNat = i := by
  have hrest := h.rest_length hm
  have hsize := h.size
  have hlt := ((h.mem_iff i).1 hi).1
  rw [BitVec.toNat_ofNat]
  omega

include hk in
theorem RootsOk.childOf_new {j : Nat} : ChildOf (mergedArena ns first second) j ns.length ↔ first = j ∨ second = j := by
  rw [ChildOf, nodeAt_merged_new, joinNode, h.toNat_ofNat hm hk hm.first_mem, h.toNat_ofNat hm hk hm.second_mem]

include hk in
/-- The node written is the merge of the two roots that come first (42_tree_build.md R97 part 3, R98, R99). -/
theorem RootsOk.isMerge_new : IsMerge (mergedArena ns first second) k ns.length := by
  have hleft : (joinNode ns first second).left.toNat = first := h.toNat_ofNat hm hk hm.first_mem
  have hright : (joinNode ns first second).right.toNat = second := h.toNat_ofNat hm hk hm.second_mem
  have hroot (i : Nat) : IsRootBefore (mergedArena ns first second) k ns.length i ↔ i ∈ forest := by
    rw [isRootBefore_merged_old le_rfl, h.mem_iff]
  have hlt {i : Nat} (hi : i ∈ forest) : i < ns.length := ((h.mem_iff i).1 hi).1
  constructor <;> simp only [nodeAt_merged_new, hleft, hright, hroot]
  case inner => exact ⟨rfl, rfl⟩
  case leftRoot => exact hm.first_mem
  case rightRoot => exact hm.second_mem
  case differ => exact fun hc => hm.differ (hleft ▸ hright ▸ congrArg BitVec.toNat hc)
  case leftFirst => exact fun i hi hne => (priorTo_merged_old (hlt hm.first_mem) (hlt hi)).2 (hm.first_prior i hi hne)
  case rightSecond =>
    exact fun i hi h1 h2 => (priorTo_merged_old (hlt hm.second_mem) (hlt hi)).2 (hm.second_prior i hi h1 h2)
  case weight => rw [nodeAt_merged_old (hlt hm.first_mem), nodeAt_merged_old (hlt hm.second_mem), joinNode]

include hk in
theorem RootsOk.mem_mergedForest_iff (i : Nat) :
    i ∈ mergedForest ns.length forest first second ↔ IsRootBefore (mergedArena ns first second) k (ns.length + 1) i := by
  rw [isRootBefore_succ h.leafCount, h.childOf_new hm hk, mergedForest, List.mem_append, h.mem_rest, h.mem_iff, List.mem_singleton,
    ← isRootBefore_merged_old (first := first) (second := second) le_rfl]
  constructor
  · rintro (⟨⟨hlt, hold⟩, hne1, hne2⟩ | rfl)
    · exact ⟨hlt.trans (Nat.lt_succ_self _), hold, fun hc => hc.elim (hne1 ·.symm) (hne2 ·.symm)⟩
    · have hfirst := ((h.mem_iff first).1 hm.first_mem).1
      have hsecond := ((h.mem_iff second).1 hm.second_mem).1
      refine ⟨Nat.lt_succ_self _, fun m hkm hlt hc => ?_, by omega⟩
      have := (isMerge_merged_old hlt (h.merges m hkm hlt)).child_lt hc
      omega
  · rintro ⟨hlt, hold, hnew⟩
    rcases Nat.lt_succ_iff_lt_or_eq.1 hlt with hlt | rfl
    · exact .inl ⟨⟨hlt, hold⟩, fun hc => hnew (.inl hc.symm), fun hc => hnew (.inr hc.symm)⟩
    · exact .inr rfl

include hk in
theorem RootsOk.merged : RootsOk k (mergedArena ns first second) (mergedForest ns.length forest first second) := by
  have hlen : (mergedArena ns first second).length = ns.length + 1 := mergedArena_length
  constructor
  case nodup =>
    refine List.nodup_append.2 ⟨(h.nodup.erase _).erase _, List.nodup_singleton _, fun i hi j hj => ?_⟩
    have hlt := ((h.mem_iff i).1 ((h.mem_rest).1 hi).1).1
    exact List.mem_singleton.1 hj ▸ hlt.ne
  case leafCount => exact hlen ▸ h.leafCount.trans (Nat.le_succ _)
  case size =>
    have hrest := h.rest_length hm
    have hsize := h.size
    rw [hlen, mergedForest, List.length_append, List.length_singleton]
    omega
  case mem_iff => exact hlen ▸ h.mem_mergedForest_iff hm hk
  case merges =>
    intro n hn hlt
    rcases Nat.lt_succ_iff_lt_or_eq.1 (hlen ▸ hlt) with hold | rfl
    · exact isMerge_merged_old hold (h.merges n hn hold)
    · exact h.isMerge_new hm hk

end MergeRoots

/-! ### The whole reduction -/

theorem mergeRoots_rootsOk {k : Nat} (hk : k ≤ 256) (fuel : Nat) {ns : List Node} {forest : List Nat} (h : RootsOk k ns forest) :
    ∃ left, RootsOk k (mergeRoots fuel ns forest) left := by
  induction fuel generalizing ns forest with
  | zero => exact ⟨forest, h⟩
  | succ fuel ih =>
    rw [mergeRoots]
    split
    · exact ⟨forest, h⟩
    · next first h1 =>
      split
      · exact ⟨forest, h⟩
      · next second h2 => exact ih (h.merged (firstTwo_of_leastRoot h.nodup h1 h2) hk)

/-- Before the first merge the leaves are the roots. -/
theorem rootsOk_leaves (ls : List Node) : RootsOk ls.length ls (List.range ls.length) where
  nodup := List.nodup_range
  leafCount := le_rfl
  size := by rw [List.length_range]; omega
  mem_iff i := by
    rw [List.mem_range]
    exact ⟨fun hi => ⟨hi, fun m hm hlt => by omega⟩, fun hi => hi.1⟩
  merges n hn hlt := by omega

/-! ### The arena of BUILD -/

section Arena

variable (a : Arch)

theorem leaves_length : (leaves a).length = (distinctSyms a).length := by rw [leaves_eq, List.length_map]

theorem buildArena_leaves_length : (buildArena (leaves a)).length = 2 * (distinctSyms a).length - 1 := by
  rw [buildArena_length, leaves_length]
  omega

theorem nodeAt_buildArena_leaf {i : Nat} {x : Sym} (hx : (distinctSyms a)[i]? = some x) :
    nodeAt (buildArena (leaves a)) i = leafOf a x := by
  have hget : (leaves a)[i]? = some (leafOf a x) := by rw [leaves_eq, List.getElem?_map, hx]; rfl
  obtain ⟨rest, hrest⟩ := mergeRoots_prefix (leaves a).length (leaves a) (List.range (leaves a).length)
  rw [buildArena, ← hrest, nodeAt_append_left (List.getElem?_eq_some_iff.1 hget).1, nodeAt_of_getElem? hget]

theorem isMerge_buildArena {n : Nat} (hn : (distinctSyms a).length ≤ n) (hlt : n < 2 * (distinctSyms a).length - 1) :
    IsMerge (buildArena (leaves a)) (distinctSyms a).length n := by
  obtain ⟨left, h⟩ := mergeRoots_rootsOk (leaves_length_le a) (leaves a).length (rootsOk_leaves (leaves a))
  rw [← buildArena, leaves_length] at h
  exact h.merges n hn (by rwa [buildArena_leaves_length])

end Arena

/-! ### What BUILD answers (42_tree_build.md R96, R97) -/

section Build

variable {a : Arch} (hp : a.phase = .count)
include hp

theorem checked_build_of_empty (h0 : a.total = 0#32) : checked .build (ruleOf .build) a = .next (raise .emptyInput (start a)) := by
  rw [checked_of_legal (by rw [hp]; rfl)]
  simp [ruleOf, buildRule, nothingCounted, h0]

theorem checked_build_of_counted (h0 : a.total ≠ 0#32) : checked .build (ruleOf .build) a =
    .next (respond 0#32 (start (withArena a (distinctSyms a).length (buildArena (leaves a))))) := by
  rw [checked_of_legal (by rw [hp]; rfl), ← leaves_length]
  simp [ruleOf, buildRule, nothingCounted, h0, withArena]

end Build

/-- The registers of an arena of `2k - 1` nodes as functions of `k`. -/
theorem withArena_eq (a : Arch) {k : Nat} {ns : List Node} (hlen : ns.length = 2 * k - 1) :
    withArena a k ns =
      { a with
        node := ns
        nleaf := BitVec.ofNat 9 k
        nnodes := BitVec.ofNat 10 (2 * k - 1)
        root := BitVec.ofNat 9 (2 * k - 2)
        phase := .tree } := by
  rw [withArena, hlen, Nat.sub_sub]

/-- Settles O23: every node the reduction writes is a merge in the arena it ends with, since no later node changes the roots, the
children and the weights it was chosen by. -/
theorem buildMergesTheFirstTwoRoots : Obligations.BuildMergesTheFirstTwoRoots := by
  unfold Obligations.BuildMergesTheFirstTwoRoots
  intro s
  refine ⟨fun hp h0 => answers_of_checked (checked_build_of_empty hp h0), fun hp h0 _ => ?_,
    turnedAway_legalPhases (i := .build) (by simp [legalPhases]) s⟩
  refine ⟨buildArena (leaves s.arch), ?_, buildArena_leaves_length s.arch, fun _ _ => nodeAt_buildArena_leaf s.arch,
    fun _ => isMerge_buildArena s.arch⟩
  rw [← withArena_eq s.arch (buildArena_leaves_length s.arch)]
  exact answers_of_checked (checked_build_of_counted hp h0)

/-! ### The tree of one symbol (42_tree_build.md R102) -/

theorem buildArena_singleton (n : Node) : buildArena [n] = [n] := rfl

theorem freqAt_eq_total_of_single {a : Arch} {x : Sym} (htotal : a.total.toNat = freqSum a) (hone : distinctSyms a = [x]) :
    a.freqAt x = a.total := by
  refine BitVec.eq_of_toNat_eq ?_
  rw [htotal, ← leaves_sum, leaves_eq, hone]
  rfl

/-- Settles O24: without a second root there is no merge, and the only count is the sum of FREQ. -/
theorem buildOfOneSymbolIsItsLeaf : Obligations.BuildOfOneSymbolIsItsLeaf := by
  unfold Obligations.BuildOfOneSymbolIsItsLeaf
  intro s x hinv hp hone
  have hfreq := freqAt_eq_total_of_single hinv.total hone
  have h0 : s.arch.total ≠ 0#32 := hfreq ▸ mem_distinctSyms.1 (hone ▸ List.mem_singleton_self x)
  have hbuilt := answers_of_checked (checked_build_of_counted hp h0)
  rw [leaves_eq, hone, List.map_singleton, buildArena_singleton, leafOf, hfreq] at hbuilt
  exact hbuilt

/-! ### The weights of the tree (42_tree_build.md R100, R101) -/

/-- Weights rise along the internal nodes. -/
theorem TreeOk.weightAt_le {a : Arch} (ht : TreeOk a) {i j : Nat} (hi : (distinctSyms a).length ≤ i) (hij : i ≤ j)
    (hj : j < a.nnodes.toNat) : weightAt a.node i ≤ weightAt a.node j := by
  induction j, hij using Nat.le_induction with
  | base => exact le_rfl
  | succ j hij ih => exact (ih (by omega)).trans (ht.weights j (by omega) hj)

/-- A leaf weighs its symbol's count, one among those that sum up to TOTAL; an internal node at most what ROOT, the last, weighs. -/
theorem TreeOk.weightAt_le_total {a : Arch} (ht : TreeOk a) (htotal : a.total.toNat = freqSum a) {i : Nat}
    (hi : i < a.nnodes.toNat) : weightAt a.node i ≤ a.total.toNat := by
  by_cases hleaf : i < (distinctSyms a).length
  · rw [weightAt, ht.leaf i _ (List.getElem?_eq_getElem hleaf), htotal]
    exact freqAt_le_freqSum a _
  · have hroot := ht.nnodes_eq_root_succ
    rw [← ht.rootWeight]
    exact ht.weightAt_le (Nat.le_of_not_lt hleaf) (by omega) (by omega)

/-- Settles O25: by the tree's items of 10_state.md R23. -/
theorem nodeWeightsNeverWrap : Obligations.NodeWeightsNeverWrap := by
  unfold Obligations.NodeWeightsNeverWrap
  intro a hinv hn
  have ht := hinv.tree hn
  have hroot := ht.nnodes_eq_root_succ
  exact ⟨fun _ => ht.weightAt_le_total hinv.total, fun _ hi hl => (ht.innerOk_of_not_leaf (by omega) hl).weight, ht.rootWeight⟩

end Sys2Proof.Machine
end

section
/-! SUPPORT. Walks bit by bit (43_code_table.md R105), and where the walk of DERIVE stops (R106, log entry 6). -/

namespace Sys2Proof.Machine

/-! ### One bit of a walk (43_code_table.md R105) -/

theorem walk_cons_of_leaf {ns : List Node} {i : NodeIdx} (hl : (nodeAt ns i.toNat).leaf = true) (b : Bool) (p : Bits) :
    walk ns i (b :: p) = none := by
  simp [walk, hl]

theorem walk_cons_of_inner {ns : List Node} {i : NodeIdx} (hl : (nodeAt ns i.toNat).leaf = false) (b : Bool) (p : Bits) :
    walk ns i (b :: p) = walk ns (if b then (nodeAt ns i.toNat).right else (nodeAt ns i.toNat).left) p := by
  simp [walk, hl]

/-- The last step of a walk leaves a node that is no leaf. -/
theorem walk_snoc_eq_some {ns : List Node} {r j : NodeIdx} {p : Bits} {b : Bool} (hw : walk ns r (p ++ [b]) = some j) :
    ∃ i, walk ns r p = some i ∧ (nodeAt ns i.toNat).leaf = false ∧
      (if b then (nodeAt ns i.toNat).right else (nodeAt ns i.toNat).left) = j := by
  rw [walk_append, Option.bind_eq_some_iff] at hw
  obtain ⟨i, hi, hstep⟩ := hw
  cases hl : (nodeAt ns i.toNat).leaf
  · rw [walk_cons_of_inner hl] at hstep
    exact ⟨i, hi, hl, Option.some.inj hstep⟩
  · rw [walk_cons_of_leaf hl] at hstep
    cases hstep

theorem childOf_bit (ns : List Node) (i : Nat) (b : Bool) :
    ChildOf ns (if b then (nodeAt ns i).right else (nodeAt ns i).left).toNat i := by
  cases b
  · exact .inl rfl
  · exact .inr rfl

/-! ### Where the walk of DERIVE stops (43_code_table.md R106, log entry 6) -/

/-- Some path from `i` has `n` bits. -/
def HasPath (ns : List Node) (i : NodeIdx) (n : Nat) : Prop := ∃ p j, p.length = n ∧ walk ns i p = some j

theorem hasPath_zero (ns : List Node) (i : NodeIdx) : HasPath ns i 0 := ⟨[], i, rfl, rfl⟩

theorem not_hasPath_succ_of_leaf {ns : List Node} {i : NodeIdx} (hl : (nodeAt ns i.toNat).leaf = true) (n : Nat) :
    ¬ HasPath ns i (n + 1) := by
  rintro ⟨_ | ⟨b, p⟩, j, hlen, hw⟩
  · cases hlen
  · rw [walk_cons_of_leaf hl] at hw
    cases hw

theorem hasPath_succ_of_inner {ns : List Node} {i : NodeIdx} (hl : (nodeAt ns i.toNat).leaf = false) (n : Nat) :
    HasPath ns i (n + 1) ↔ HasPath ns (nodeAt ns i.toNat).left n ∨ HasPath ns (nodeAt ns i.toNat).right n := by
  constructor
  · rintro ⟨_ | ⟨b, p⟩, j, hlen, hw⟩
    · cases hlen
    · rw [walk_cons_of_inner hl] at hw
      cases b
      · exact .inl ⟨p, j, Nat.succ.inj hlen, hw⟩
      · exact .inr ⟨p, j, Nat.succ.inj hlen, hw⟩
  · rintro (⟨p, j, rfl, hw⟩ | ⟨p, j, rfl, hw⟩)
    · exact ⟨false :: p, j, rfl, by rwa [walk_cons_of_inner hl]⟩
    · exact ⟨true :: p, j, rfl, by rwa [walk_cons_of_inner hl]⟩

theorem visit_of_leaf {ns : List Node} {i : NodeIdx} (hl : (nodeAt ns i.toNat).leaf = true) (depth : Nat) (p : Bits) :
    visit ns depth i p = some [((nodeAt ns i.toNat).sym, p)] := by
  cases depth <;> simp [visit, hl]

theorem visit_succ_of_inner_eq_none_iff {ns : List Node} {i : NodeIdx} (hl : (nodeAt ns i.toNat).leaf = false) (depth : Nat)
    (p : Bits) :
    visit ns (depth + 1) i p = none ↔
      visit ns depth (nodeAt ns i.toNat).left (p ++ [false]) = none ∨
      visit ns depth (nodeAt ns i.toNat).right (p ++ [true]) = none := by
  rw [visit]
  cases visit ns depth (nodeAt ns i.toNat).left (p ++ [false]) <;>
    cases visit ns depth (nodeAt ns i.toNat).right (p ++ [true]) <;> simp [hl]

/-- The walk of DERIVE gives nothing exactly when a path is longer than the depth left to it. -/
theorem visit_eq_none_iff {ns : List Node} {depth : Nat} {i : NodeIdx} {p : Bits} :
    visit ns depth i p = none ↔ HasPath ns i (depth + 1) := by
  induction depth generalizing i p with
  | zero =>
    cases hl : (nodeAt ns i.toNat).leaf
    · simp [visit, hl, hasPath_succ_of_inner hl, hasPath_zero]
    · simp [visit_of_leaf hl, not_hasPath_succ_of_leaf hl]
  | succ depth ih =>
    cases hl : (nodeAt ns i.toNat).leaf
    · rw [visit_succ_of_inner_eq_none_iff hl, hasPath_succ_of_inner hl, ih, ih]
    · simp [visit_of_leaf hl, not_hasPath_succ_of_leaf hl]

theorem exec_derive_of_too_deep {s : State} (hp : s.arch.phase = .tree)
    (hv : visit s.arch.node Config.codeLenMax s.arch.root [] = none) : exec .derive s = .fault .codeDepthExceeded := by
  rw [exec_eq_command, command, checked_of_legal (by rw [hp]; rfl)]
  simp [ruleOf, deriveRule, hv, finish]

/-- Settles O27: by what the walk of DERIVE gives, by induction on the depth. -/
theorem deriveStopsOnlyOnTooDeepArenas : Obligations.DeriveStopsOnlyOnTooDeepArenas := by
  unfold Obligations.DeriveStopsOnlyOnTooDeepArenas
  intro s
  refine ⟨⟨fun ⟨f, hf⟩ => ?_, fun ⟨hp, hpath⟩ => ⟨_, exec_derive_of_too_deep hp (visit_eq_none_iff.2 hpath)⟩⟩, ?_,
    turnedAway_legalPhases (i := .derive) (by simp [legalPhases]) s⟩
  · rcases exec_answers .derive s with ⟨e, he⟩ | ⟨-, hp, hv, -⟩
    · rw [he] at hf
      cases hf
    · exact ⟨hp, visit_eq_none_iff.1 hv⟩
  · rcases exec_answers .derive s with ⟨e, he⟩ | ⟨-, -, -, hf⟩
    · exact .inr ⟨_, he⟩
    · exact .inl ⟨_, hf⟩

end Sys2Proof.Machine
end

section
/-! SUPPORT. The codes of 43_code_table.md R107 to R110: which entries of the tree of 10_state.md R23 are leaves, which paths lead from
ROOT to them and how long these are, and so what the code table holds after DERIVE and in every state that meets the invariants. -/

namespace Sys2Proof.Machine

/-! ### Leaves and paths of the tree (10_state.md R23, items 4 to 6) -/

namespace TreeOk

variable {a : Arch} (h : TreeOk a)
include h

/-- The leaves are the entries below NLEAF. -/
theorem leaf_iff {i : Nat} (hi : i ≤ a.root.toNat) : (nodeAt a.node i).leaf = true ↔ i < (distinctSyms a).length := by
  refine ⟨fun hl => Nat.lt_of_not_le fun hk => ?_, fun hk => ?_⟩
  · rw [(h.innerOk hk (by rw [h.nnodes_eq_root_succ]; omega)).inner] at hl
    cases hl
  · rw [h.leaf i _ (List.getElem?_eq_getElem hk), leafOf]

theorem leafCount_le_of_inner {i : Nat} (hi : i ≤ a.root.toNat) (hl : (nodeAt a.node i).leaf = false) :
    (distinctSyms a).length ≤ i :=
  Nat.le_of_not_lt fun hk => by simp [(h.leaf_iff hi).2 hk] at hl

/-- A symbol has one leaf. -/
theorem leaf_unique {i j : NodeIdx} (hi : i.toNat ≤ a.root.toNat) (hj : j.toNat ≤ a.root.toNat) (hli : (a.nodeAt i).leaf = true)
    (hlj : (a.nodeAt j).leaf = true) (hsym : (a.nodeAt i).sym = (a.nodeAt j).sym) : i = j := by
  have hik := (h.leaf_iff hi).1 hli
  have hjk := (h.leaf_iff hj).1 hlj
  rw [Arch.nodeAt, Arch.nodeAt, h.leaf _ _ (List.getElem?_eq_getElem hik), h.leaf _ _ (List.getElem?_eq_getElem hjk)] at hsym
  exact BitVec.eq_of_toNat_eq ((allSyms_nodup.filter _).getElem_inj_iff.1 hsym)

/-- ROOT is no leaf where there are two symbols. -/
theorem root_inner (hn : a.nnodes ≠ 1#10) : (nodeAt a.node a.root.toNat).leaf = false := by
  have hk := h.leafCount_pos
  have hroot := h.root
  have hn' : a.nnodes.toNat ≠ 1 := fun hc => hn (BitVec.eq_of_toNat_eq hc)
  have hnn := h.nnodes
  rw [Bool.eq_false_iff]
  intro hl
  have := (h.leaf_iff le_rfl).1 hl
  omega

/-- The nodes that a walk leaves fall from its start towards the leaves, so it has no more bits than there are such nodes. -/
theorem walk_length_le {i j : NodeIdx} {p : Bits} (hi : i.toNat ≤ a.root.toNat) (hw : walk a.node i p = some j) :
    p.length ≤ i.toNat + 1 - (distinctSyms a).length := by
  induction p generalizing i with
  | nil => exact Nat.zero_le _
  | cons b p ih =>
    cases hl : (nodeAt a.node i.toNat).leaf
    · rw [walk_cons_of_inner hl] at hw
      have hk := h.leafCount_le_of_inner hi hl
      have hlt := (h.innerOk_of_not_leaf hi hl).child_lt b
      have := ih (by omega) hw
      rw [List.length_cons]
      omega
    · rw [walk_cons_of_leaf hl] at hw
      cases hw

/-- A path from ROOT has fewer bits than there are symbols (43_code_table.md R110). -/
theorem walk_root_length_le {i : NodeIdx} {p : Bits} (hw : walk a.node a.root p = some i) :
    p.length ≤ (distinctSyms a).length - 1 := by
  have hlen := h.walk_length_le le_rfl hw
  have hk := h.leafCount_pos
  have hroot := h.root
  omega

/-- The walk of DERIVE ends. -/
theorem exists_visit : ∃ rs, visit a.node Config.codeLenMax a.root [] = some rs := by
  refine Option.ne_none_iff_exists'.1 fun hv => ?_
  obtain ⟨p, i, hlen, hw⟩ := visit_eq_none_iff.1 hv
  have hle := h.walk_root_length_le hw
  have hk := distinctSyms_length_le a
  rw [Config.codeLenMax] at hlen
  omega

/-- A node is the child of one node, and on one side of it. -/
theorem parent_unique {i i' : NodeIdx} {b b' : Bool} (hi : i.toNat ≤ a.root.toNat) (hi' : i'.toNat ≤ a.root.toNat)
    (hl : (nodeAt a.node i.toNat).leaf = false) (hl' : (nodeAt a.node i'.toNat).leaf = false)
    (hc : (if b then (nodeAt a.node i.toNat).right else (nodeAt a.node i.toNat).left) =
      if b' then (nodeAt a.node i'.toNat).right else (nodeAt a.node i'.toNat).left) : i = i' ∧ b = b' := by
  have hin := h.innerOk_of_not_leaf hi hl
  have hlt := hin.child_lt b
  have hroot := h.nnodes_eq_root_succ
  obtain rfl : i = i' := BitVec.eq_of_toNat_eq <| (h.oneParent _ (Nat.lt_of_lt_of_le hlt hi)).unique
    ⟨h.leafCount_le_of_inner hi hl, by omega, childOf_bit a.node i.toNat b⟩
    ⟨h.leafCount_le_of_inner hi' hl', by omega, hc ▸ childOf_bit a.node i'.toNat b'⟩
  refine ⟨rfl, ?_⟩
  cases b <;> cases b'
  · rfl
  · exact absurd hc hin.differ
  · exact absurd hc.symm hin.differ
  · rfl

/-- One path leads from ROOT to a node: going up from it, each step is that of its only parent. -/
theorem walk_root_unique {i : NodeIdx} {p q : Bits} (hp : walk a.node a.root p = some i) (hq : walk a.node a.root q = some i) :
    p = q := by
  have hne {q : Bits} {b : Bool} : walk a.node a.root (q ++ [b]) ≠ some a.root := fun hw => by
    obtain ⟨j, hj, hl, hc⟩ := walk_snoc_eq_some hw
    have hle := h.walk_le le_rfl hj
    have hlt := (h.innerOk_of_not_leaf hle hl).child_lt b
    rw [hc] at hlt
    omega
  induction p using List.reverseRecOn generalizing q i with
  | nil =>
    cases hp
    rcases List.eq_nil_or_concat' q with rfl | ⟨q, b, rfl⟩
    · rfl
    · exact absurd hq hne
  | append_singleton p b ih =>
    rcases List.eq_nil_or_concat' q with rfl | ⟨q, b', rfl⟩
    · cases hq
      exact absurd hp hne
    · obtain ⟨j, hj, hl, hc⟩ := walk_snoc_eq_some hp
      obtain ⟨j', hj', hl', hc'⟩ := walk_snoc_eq_some hq
      obtain ⟨rfl, rfl⟩ := h.parent_unique (h.walk_le le_rfl hj) (h.walk_le le_rfl hj') hl hl' (hc.trans hc'.symm)
      rw [ih hj hj']

end TreeOk

/-! ### Codes (43_code_table.md R107, R109, R110) -/

theorem isCode_of_single {a : Arch} (hn : a.nnodes = 1#10) (x : Sym) (p : Bits) :
    IsCode a x p ↔ (nodeAt a.node 0).sym = x ∧ p = [true] := by
  rw [IsCode, if_pos hn]

theorem isCode_of_two {a : Arch} (hn : a.nnodes ≠ 1#10) (x : Sym) (p : Bits) :
    IsCode a x p ↔ ∃ i, walk a.node a.root p = some i ∧ (a.nodeAt i).leaf = true ∧ (a.nodeAt i).sym = x := by
  rw [IsCode, if_neg hn]

namespace IsCode

variable {a : Arch} (ht : TreeOk a) {x y : Sym} {p q : Bits}
include ht

theorem length_pos (hp : IsCode a x p) : 1 ≤ p.length := by
  by_cases hn : a.nnodes = 1#10
  · rw [isCode_of_single hn] at hp
    rw [hp.2, List.length_singleton]
  · obtain ⟨i, hw, hl, -⟩ := (isCode_of_two hn x p).1 hp
    refine List.length_pos_iff.2 fun hnil => ?_
    rw [hnil] at hw
    cases hw
    exact Bool.false_ne_true ((ht.root_inner hn).symm.trans hl)

theorem length_le (hp : IsCode a x p) : p.length ≤ max 1 ((distinctSyms a).length - 1) := by
  by_cases hn : a.nnodes = 1#10
  · rw [isCode_of_single hn] at hp
    rw [hp.2, List.length_singleton]
    exact le_max_left _ _
  · obtain ⟨i, hw, -⟩ := (isCode_of_two hn x p).1 hp
    exact (ht.walk_root_length_le hw).trans (le_max_right _ _)

theorem length_le_codeLenMax (hp : IsCode a x p) : p.length ≤ Config.codeLenMax := by
  have hle := length_le ht hp
  have hk := distinctSyms_length_le a
  rw [Config.codeLenMax]
  omega

omit ht in
/-- A code ends at a leaf, from which no code goes on. -/
theorem eq_of_prefix (hp : IsCode a x p) (hq : IsCode a y q) (hpq : p <+: q) : x = y := by
  by_cases hn : a.nnodes = 1#10
  · rw [isCode_of_single hn] at hp hq
    exact hp.1.symm.trans hq.1
  · obtain ⟨i, hi, hl, hx⟩ := (isCode_of_two hn x p).1 hp
    obtain ⟨j, hj, -, hy⟩ := (isCode_of_two hn y q).1 hq
    obtain ⟨r, rfl⟩ := hpq
    rw [walk_append, hi, Option.bind_some] at hj
    cases r with
    | nil => cases hj; exact hx.symm.trans hy
    | cons b r => rw [walk_cons_of_leaf hl] at hj; cases hj

/-- Over two or more symbols the path to a leaf is the code of its symbol, and its only one. -/
theorem eq_of_walk (hn : a.nnodes ≠ 1#10) (hp : IsCode a x p) {i : NodeIdx} (hw : walk a.node a.root q = some i)
    (hl : (a.nodeAt i).leaf = true) (hx : (a.nodeAt i).sym = x) : p = q := by
  obtain ⟨j, hj, hlj, hxj⟩ := (isCode_of_two hn x p).1 hp
  obtain rfl := ht.leaf_unique (ht.walk_le le_rfl hj) (ht.walk_le le_rfl hw) hlj hl (hxj.trans hx.symm)
  exact ht.walk_root_unique hj hw

end IsCode

/-! ### Entries of the code table (43_code_table.md R107) -/

/-- The entry of `x` holds the code `p`, which is read back whole. -/
structure HoldsCode (a : Arch) (x : Sym) (p : Bits) : Prop where
  isCode : IsCode a x p
  entry : a.codeAt x = CodeEntry.ofPath p
  path : (a.codeAt x).path = p

theorem HoldsCode.valid {a : Arch} {x : Sym} {p : Bits} (h : HoldsCode a x p) : (a.codeAt x).valid = true := by
  rw [h.entry, CodeEntry.ofPath]

theorem CodesOk.holdsCode {a : Arch} (hc : CodesOk a) (ht : TreeOk a) {x : Sym} (hx : a.freqAt x ≠ 0#32) :
    ∃ p, HoldsCode a x p := by
  have hcx := hc x
  rw [if_neg hx] at hcx
  obtain ⟨p, hp, hentry⟩ := hcx
  exact ⟨p, hp, hentry, by rw [hentry, path_ofPath (IsCode.length_le_codeLenMax ht hp)]⟩

theorem CodesOk.codeAt_of_uncounted {a : Arch} (hc : CodesOk a) {x : Sym} (hx : a.freqAt x = 0#32) : a.codeAt x = codeDefault := by
  have hcx := hc x
  rwa [if_pos hx] at hcx

theorem CodesOk.valid_iff {a : Arch} (hc : CodesOk a) (ht : TreeOk a) {x : Sym} :
    (a.codeAt x).valid = true ↔ a.freqAt x ≠ 0#32 := by
  refine ⟨fun hv hx => ?_, fun hx => ?_⟩
  · rw [hc.codeAt_of_uncounted hx] at hv
    cases hv
  · obtain ⟨p, hp⟩ := hc.holdsCode ht hx
    exact hp.valid

/-- Item 8 of 10_state.md R23 in every phase: an entry is valid only beside a tree, and holds a code in it. -/
theorem Inv.holdsCode_of_valid {a : Arch} (h : Inv a) {x : Sym} (hv : (a.codeAt x).valid = true) :
    TreeOk a ∧ ∃ p, HoldsCode a x p := by
  have hcodes : NoCodes a ∨ (a.nnodes ≠ 0#10 ∧ CodesOk a) := by
    by_cases hp : a.phase = .err
    · exact h.codesInErr hp
    · exact h.noCodes_or_codesOk hp
  rcases hcodes with hno | ⟨hn, hc⟩
  · rw [hno x] at hv
    cases hv
  · have ht := h.tree hn
    exact ⟨ht, hc.holdsCode ht ((hc.valid_iff ht).1 hv)⟩

/-- Settles O29: by the paths the two entries hold. -/
theorem codesArePrefixFree : Obligations.CodesArePrefixFree := by
  unfold Obligations.CodesArePrefixFree
  intro a x y hinv hxy hx hy hprefix
  obtain ⟨-, p, hp⟩ := hinv.holdsCode_of_valid hx
  obtain ⟨-, q, hq⟩ := hinv.holdsCode_of_valid hy
  rw [hp.path, hq.path] at hprefix
  exact hxy (hp.isCode.eq_of_prefix hq.isCode hprefix)

/-- Settles O30: a code is a path in the tree of the `k` symbols, or "1". -/
theorem codeLengthsAreBounded : Obligations.CodeLengthsAreBounded := by
  unfold Obligations.CodeLengthsAreBounded
  intro a x hinv hv
  obtain ⟨ht, p, hp⟩ := hinv.holdsCode_of_valid hv
  rw [hp.path]
  exact ⟨hp.isCode.length_pos ht, hp.isCode.length_le ht, hp.isCode.length_le_codeLenMax ht⟩

/-! ### What DERIVE answers (43_code_table.md R106 to R108) -/

/-- The block with the table `code`, derived. -/
def withCodes (a : Arch) (code : Memory CodeEntry) : Arch := { a with code := code, phase := .ready }

/-- DERIVE answers with the codes of the tree, which it leaves as it is. -/
theorem derive_answers {s : State} (hinv : Inv s.arch) (hp : s.arch.phase = .tree) :
    TreeOk s.arch ∧ ∃ code, Answers .derive s (withCodes s.arch code) [] true 0#32 ∧ CodesOk (withCodes s.arch code) := by
  have ht := hinv.tree (hinv.treePhases (.inl hp))
  obtain ⟨rs, hrs⟩ := ht.exists_visit
  refine ⟨ht, derivedCode s.arch rs, ?_, codesOk_derived hinv ht (hinv.noCodes hp) hrs⟩
  have hrule : checked .derive (ruleOf .derive) s.arch =
      .next (respond 0#32 (start (withCodes s.arch (derivedCode s.arch rs)))) := by
    rw [checked_of_legal (by rw [hp]; rfl)]
    simp [ruleOf, deriveRule, hrs, derived_eq, withCodes]
  exact answers_of_checked hrule

theorem TreeOk.withCodes {a : Arch} (ht : TreeOk a) (code : Memory CodeEntry) : TreeOk (withCodes a code) :=
  ht.of_eq rfl rfl rfl rfl rfl rfl

/-- Settles O26: the derived table holds the codes of the tree, and a symbol has one leaf, if any. -/
theorem deriveRecordsPathsOfLeaves : Obligations.DeriveRecordsPathsOfLeaves := by
  unfold Obligations.DeriveRecordsPathsOfLeaves
  intro s hinv hp
  obtain ⟨ht, code, hans, hc⟩ := derive_answers hinv hp
  have ht' := ht.withCodes code
  have hroot := ht.nnodes_eq_root_succ
  refine ⟨code, hans, fun x => ⟨(withCodes s.arch code).codeAt x, rfl, ?_, ?_, ?_, hc.valid_iff ht', ?_⟩⟩
  · intro i hi hl hx hthree
    have hn : s.arch.nnodes ≠ 1#10 := fun hc => by rw [hc] at hthree; exact absurd hthree (by decide)
    obtain ⟨p, hcode⟩ := hc.holdsCode ht' (hx ▸ ht.freqAt_leaf (by omega) hl)
    obtain ⟨j, hw, hlj, hxj⟩ := (isCode_of_two hn x p).1 hcode.isCode
    obtain rfl := ht.leaf_unique (ht.walk_le le_rfl hw) (by omega) hlj hl (hxj.trans hx.symm)
    exact ⟨p, hw, hcode.isCode.length_pos ht', hcode.entry, hcode.path⟩
  · intro hn hx
    have hl := (ht.leaf_of_single hn).2
    obtain ⟨p, hcode⟩ := hc.holdsCode ht' (hx ▸ ht.freqAt_leaf (Nat.zero_le _) hl)
    exact ⟨hcode.valid, hcode.path.trans ((isCode_of_single hn x p).1 hcode.isCode).2⟩
  · intro hnone
    rw [Bool.eq_false_iff]
    intro hv
    obtain ⟨n, hn, hleaf⟩ := ht.exists_leaf ((hc.valid_iff ht').1 hv)
    exact hnone n (by omega) (by rw [hleaf]; rfl) (by rw [hleaf]; rfl)
  · have hk := ht.leafCount_pos
    have hnn := ht.nnodes
    omega

/-- The vector of the code "1". -/
theorem pack_one_getLsbD (n : Nat) : (pack [true]).getLsbD n = decide (n = 255) := by
  simp [pack, eq_comm]

/-- Settles O28: the code of a single leaf is "1", and no code is empty. -/
theorem singleLeafGetsOneBitCode : Obligations.SingleLeafGetsOneBitCode := by
  unfold Obligations.SingleLeafGetsOneBitCode
  refine ⟨fun s hinv hp hn => ?_, fun a x hinv hv hlen => ?_⟩
  · obtain ⟨ht, code, hans, hc⟩ := derive_answers hinv hp
    have hcounted := ht.freqAt_leaf (Nat.zero_le _) (ht.leaf_of_single hn).2
    obtain ⟨p, hcode⟩ := hc.holdsCode (ht.withCodes code) hcounted
    obtain rfl : p = [true] := ((isCode_of_single hn _ p).1 hcode.isCode).2
    exact ⟨code, pack [true], hans, hcode.entry, pack_one_getLsbD⟩
  · obtain ⟨ht, p, hp⟩ := hinv.holdsCode_of_valid hv
    have hpos := hp.isCode.length_pos ht
    rw [← hp.path, CodeEntry.path, hlen] at hpos
    exact absurd hpos (by simp)

end Sys2Proof.Machine
end

section
/-! SUPPORT. The symbols DEC emits are those whose codes its bits complete (44_codec.md R121, 43_code_table.md R107). -/

namespace Sys2Proof.Machine

/-- From `c`, where `before` is the path to CUR, the decoder takes `n` of the bits `q`: they complete the codes of the symbols `xs`,
which leave, and `after` is the path to the new CUR. It leaves bits only where TOTAL symbols have left. -/
structure Decodes (c : Busy) (before q : Bits) (xs : List Sym) (n : Nat) (cur : NodeIdx) (after : Bits) : Prop where
  result : q.foldl decodeBit c =
    { arch := { c.arch with cur := cur, emitted := BitVec.ofNat 32 (c.arch.emitted.toNat + xs.length) }
      outs := c.outs ++ xs.map (OutRecord.mk .dsym) }
  room : c.arch.emitted.toNat + xs.length ≤ c.arch.total.toNat
  coded : ∀ x ∈ xs, (c.arch.codeAt x).valid = true
  stands : walk c.arch.node c.arch.root after = some cur
  taken : n ≤ q.length
  bits : before ++ q.take n = (xs.flatMap fun x => (c.arch.codeAt x).path) ++ after
  rest : n < q.length → c.arch.emitted.toNat + xs.length = c.arch.total.toNat

/-- After the logical end every bit is dropped (44_codec.md R126). -/
theorem foldl_decodeBit_of_allEmitted {c : Busy} (he : c.arch.emitted = c.arch.total) (q : Bits) : q.foldl decodeBit c = c := by
  induction q with
  | nil => rfl
  | cons b q ih =>
    have hstep : decodeBit c b = c := by simp [decodeBit, allEmitted, he]
    rw [List.foldl_cons, hstep, ih]

/-- No bit taken: there is none, or TOTAL symbols have left. -/
theorem decodes_nothing {c : Busy} {before q : Bits} (hle : c.arch.emitted.toNat ≤ c.arch.total.toNat)
    (hw : walk c.arch.node c.arch.root before = some c.arch.cur) (hq : q = [] ∨ c.arch.emitted = c.arch.total) :
    Decodes c before q [] 0 c.arch.cur before where
  result := by
    have hfold : q.foldl decodeBit c = c := by
      rcases hq with rfl | he
      · rfl
      · exact foldl_decodeBit_of_allEmitted he q
    simp [hfold]
  room := hle
  coded := by simp
  stands := hw
  taken := Nat.zero_le _
  bits := by simp
  rest hlt := by
    rcases hq with rfl | he
    · exact absurd hlt (Nat.lt_irrefl 0)
    · rw [he]; rfl

/-- A bit on which the decoder goes down to a node that is no leaf. -/
theorem Decodes.descend {c : Busy} {before q after : Bits} {xs : List Sym} {n : Nat} {cur next : NodeIdx} {b : Bool}
    (hstep : decodeBit c b = { c with arch := { c.arch with cur := next } })
    (h : Decodes (decodeBit c b) (before ++ [b]) q xs n cur after) : Decodes c before (b :: q) xs (n + 1) cur after := by
  rw [hstep] at h
  exact
    { result := by rw [List.foldl_cons, hstep, h.result]
      room := h.room
      coded := h.coded
      stands := h.stands
      taken := Nat.succ_le_succ h.taken
      bits := by rw [List.take_succ_cons, List.append_cons]; exact h.bits
      rest := fun hlt => h.rest (Nat.lt_of_succ_lt_succ hlt) }

/-- A bit that completes the code of `x`. -/
theorem Decodes.emit {c : Busy} {before q after : Bits} {x : Sym} {xs : List Sym} {n : Nat} {cur : NodeIdx} {b : Bool}
    (hlt : c.arch.emitted.toNat < c.arch.total.toNat) (hx : HoldsCode c.arch x (before ++ [b]))
    (hstep : decodeBit c b =
      { arch := { c.arch with cur := c.arch.root, emitted := c.arch.emitted + 1#32 }, outs := c.outs ++ [⟨.dsym, x⟩] })
    (h : Decodes (decodeBit c b) [] q xs n cur after) : Decodes c before (b :: q) (x :: xs) (n + 1) cur after := by
  have hsucc : (c.arch.emitted + 1#32).toNat + xs.length = c.arch.emitted.toNat + (x :: xs).length := by
    have hmax := c.arch.total.isLt
    rw [toNat_succ_of_lt_cntMax (by omega), List.length_cons, Nat.add_right_comm, Nat.add_assoc]
  rw [hstep] at h
  exact
    { result := by
        rw [List.foldl_cons, hstep, h.result]
        simp only [hsucc, List.map_cons, List.append_assoc, List.singleton_append]
      room := hsucc ▸ h.room
      coded := List.forall_mem_cons.2 ⟨hx.valid, h.coded⟩
      stands := h.stands
      taken := Nat.succ_le_succ h.taken
      bits := by
        rw [List.take_succ_cons, List.append_cons, List.flatMap_cons, hx.path, List.append_assoc (before ++ [b])]
        exact congrArg _ h.bits
      rest := fun hn => hsucc ▸ h.rest (Nat.lt_of_succ_lt_succ hn) }

/-- Over two or more symbols the decoder, where a path stands at CUR, takes codes of symbols. -/
theorem exists_decodes (q : Bits) {c : Busy} {before : Bits} (hinv : Inv c.arch) (hp : c.arch.phase = .dec)
    (hn : c.arch.nnodes ≠ 1#10) (hw : walk c.arch.node c.arch.root before = some c.arch.cur) :
    ∃ xs n cur after, Decodes c before q xs n cur after := by
  induction q generalizing c before with
  | nil => exact ⟨_, _, _, _, decodes_nothing hinv.emitted hw (.inl rfl)⟩
  | cons b q ih =>
    have ht := hinv.tree (hinv.treePhases (by simp [hp]))
    obtain ⟨hinv', hp'⟩ := inv_decodeBit hinv hp b
    rcases decodeBit_cases c b with ⟨he, -⟩ | ⟨-, hl, -⟩ | ⟨hne, hroot, next, hnext, hstep⟩
    · exact ⟨_, _, _, _, decodes_nothing hinv.emitted hw (.inr he)⟩
    · exact absurd ((ht.root_inner hn).symm.trans hl) Bool.false_ne_true
    have hcur : (c.arch.nodeAt c.arch.cur).leaf = false := (hinv.cursor hp).2.elim (fun he => he ▸ hroot) id
    have hw' : walk c.arch.node c.arch.root (before ++ [b]) = some next := hnext ▸ walk_snoc hw hcur b
    rcases hstep with ⟨hl, hstep⟩ | ⟨-, hstep⟩
    · have hcounted := ht.freqAt_leaf (ht.walk_le le_rfl hw') hl
      obtain ⟨p, hcode⟩ := (hinv.codes (by simp [hp])).holdsCode ht hcounted
      obtain rfl := hcode.isCode.eq_of_walk ht hn hw' hl rfl
      have hlt := Nat.lt_of_le_of_ne hinv.emitted fun he => hne (BitVec.eq_of_toNat_eq he)
      obtain ⟨xs, n, cur, after, h⟩ := ih (before := []) hinv' hp' (by rw [hstep]; exact hn) (by rw [hstep]; rfl)
      exact ⟨_, _, _, _, h.emit hlt hcode hstep⟩
    · obtain ⟨xs, n, cur, after, h⟩ := ih hinv' hp' (by rw [hstep]; exact hn) (by rw [hstep]; exact hw')
      exact ⟨_, _, _, _, h.descend hstep⟩

/-- Settles O44: by induction on the bits of the byte. -/
theorem decEmitsTheSymbolsOfTheCodes : Obligations.DecEmitsTheSymbolsOfTheCodes := by
  unfold Obligations.DecEmitsTheSymbolsOfTheCodes
  intro s b before hinv hp hn hw
  obtain ⟨xs, n, cur, after, h⟩ := exists_decodes (bitsOfByte b) (c := start s.arch) hinv hp hn hw
  have hstart : { startDecode s.arch with phase := .dec } = s.arch := by
    rw [startDecode, hp, if_neg (by simp), ← hp]
  have hrule : checked (.dec b) (ruleOf (.dec b)) s.arch = .next (respond 0#32 ((bitsOfByte b).foldl decodeBit (start s.arch))) := by
    rw [checked_of_legal (by rw [hp]; rfl), ruleOf, decodeRule, hstart]
  have hans := answers_of_checked hrule
  rw [h.result] at hans
  have hlen := bitsOfByte_length b
  exact ⟨xs, n, cur, after, hans, h.room, h.coded, h.stands, hlen ▸ h.taken, h.bits, fun hlt => h.rest (hlen ▸ hlt)⟩

end Sys2Proof.Machine
end

section
/-! SUPPORT. The encoder (44_codec.md R114, R116, R117): what ENC and ENCEND come to in the phases READY and ENC. -/

namespace Sys2Proof.Machine

/-! ### ENC of a symbol with a code (R114) -/

/-- `held` are the bits behind which ENC writes a code: none where it opens the stream, those the writer holds in an open one. -/
def HeldBefore (a : Arch) (held : Bits) : Prop :=
  (a.phase = .ready ∧ held = []) ∨ (a.phase = .enc ∧ held = heldBits a ∧ WriterClean a)

theorem HeldBefore.phase {a : Arch} {held : Bits} (h : HeldBefore a held) : a.phase = .ready ∨ a.phase = .enc :=
  h.imp And.left And.left

/-- An encode stream is open, and its writer's registers are `w` and `n`. -/
def withWriter (a : Arch) (w : BitVec 8) (n : BitVec 3) : Arch := { a with phase := .enc, wacc := w, wcnt := n }

theorem HeldBefore.startEncode {a : Arch} {held : Bits} (h : HeldBefore a held) :
    (∃ w n, startEncode a = withWriter a w n) ∧ heldBits (startEncode a) = held ∧ WriterClean (startEncode a) := by
  rcases h with ⟨hp, rfl⟩ | ⟨hp, rfl, hclean⟩
  · have hs : Machine.startEncode a = withWriter a 0#8 0#3 := by simp [Machine.startEncode, hp, withWriter]
    rw [hs]
    exact ⟨⟨_, _, rfl⟩, heldBits_of_wcnt_zero rfl, writerClean_of_wacc_zero rfl⟩
  · have hs : Machine.startEncode a = a := by simp [Machine.startEncode, hp]
    rw [hs]
    exact ⟨⟨a.wacc, a.wcnt, by rw [withWriter, ← hp]⟩, rfl, hclean⟩

theorem legalIn_enc {p : Phase} (hp : p = .ready ∨ p = .enc) (x : Sym) : legalIn (.enc x) p = true := by
  rcases hp with rfl | rfl <;> rfl

theorem checked_enc_of_code {a : Arch} {x : Sym} (hp : a.phase = .ready ∨ a.phase = .enc) (hv : (a.codeAt x).valid = true) :
    checked (.enc x) (ruleOf (.enc x)) a =
      .next (respond 0#32 ((a.codeAt x).path.foldl writeBit (start (startEncode a)))) := by
  rw [checked_of_legal (legalIn_enc hp x)]
  simp [ruleOf, encodeRule, hasCode, startEncode_codeAt, hv]

/-- ENC leaves `held` and then the code in the bytes it sends and the bits the writer then holds. -/
theorem checked_enc_writes_code {a : Arch} {x : Sym} {held : Bits} (h : HeldBefore a held) (hv : (a.codeAt x).valid = true) :
    ∃ (bs : List (BitVec 8)) (w : BitVec 8) (n : BitVec 3),
      checked (.enc x) (ruleOf (.enc x)) a = .next (respond 0#32 ⟨withWriter a w n, bs.map (OutRecord.mk .cbyte)⟩) ∧
      unpack bs ++ heldBits (withWriter a w n) = held ++ (a.codeAt x).path ∧ WriterClean (withWriter a w n) := by
  obtain ⟨⟨w₀, n₀, hs⟩, hheld, hclean⟩ := h.startEncode
  obtain ⟨hclean', ⟨w, n, harch⟩, bs, houts, hbits⟩ := writeBits_bits (a.codeAt x).path (start (startEncode a)) hclean
  rw [checked_enc_of_code h.phase hv]
  generalize (a.codeAt x).path.foldl writeBit (start (startEncode a)) = c at *
  have harch' : c.arch = withWriter a w n := by rw [harch, start_arch, hs]; rfl
  rw [harch'] at hclean' hbits
  rw [start_outs, List.nil_append] at houts
  rw [start_arch, hheld] at hbits
  exact ⟨bs, w, n, by rw [← harch', ← houts], hbits, hclean'⟩

/-! ### ENC of a symbol without a code (R116) -/

theorem checked_enc_of_unknown {a : Arch} {x : Sym} (hp : a.phase = .ready ∨ a.phase = .enc)
    (hv : (a.codeAt x).valid = false) :
    checked (.enc x) (ruleOf (.enc x)) a = .next (raise .unknownSymbol (closeWriter (start (startEncode a)))) := by
  rw [checked_of_legal (legalIn_enc hp x)]
  simp [ruleOf, encodeRule, hasCode, startEncode_codeAt, hv]

/-- The writer is closed, and in READY it was emptied before. -/
theorem answers_enc_of_unknown {s : State} {x : Sym} (hp : s.arch.phase = .ready ∨ s.arch.phase = .enc)
    (hv : (s.arch.codeAt x).valid = false) :
    Answers (.enc x) s { withError s.arch .unknownSymbol with wacc := 0#8, wcnt := 0#3 }
      (if s.arch.phase = .enc ∧ s.arch.wcnt ≠ 0#3 then [⟨.cbyte, s.arch.wacc⟩] else []) false 0#32 := by
  have hans := answers_of_checked (checked_enc_of_unknown hp hv)
  rw [closeWriter_eq] at hans
  rcases startEncode_eq hp with ⟨hr, hs⟩ | ⟨he, hs⟩ <;> rw [hs] at hans
  · simpa [hr, withError] using hans
  · by_cases hn : s.arch.wcnt = 0#3 <;> simpa [he, hn, withError] using hans

/-- Settles O36: the writer's law for the code's bits, from the writer that the stream's start or the open stream leaves. -/
theorem encWritesTheCode : Obligations.EncWritesTheCode := by
  unfold Obligations.EncWritesTheCode
  intro s x
  refine ⟨fun held h hv => ?_, answers_enc_of_unknown, turnedAway_legalPhases (i := .enc x) (by simp [legalPhases]) s⟩
  obtain ⟨bs, w, n, hrule, hbits, hclean⟩ := checked_enc_writes_code h hv
  have hlen : 8 * bs.length + n.toNat = held.length + (s.arch.codeAt x).path.length := by
    simpa [withWriter] using congrArg List.length hbits
  have hlt : n.toNat < 8 := n.isLt
  exact ⟨bs, w, n, answers_of_checked hrule, by omega, hbits, hclean⟩

/-- Settles O37: an entry is valid exactly for a counted symbol, and closing pads the bits held; in READY there are none. -/
theorem unknownSymbolClosesTheWriter : Obligations.UnknownSymbolClosesTheWriter := by
  unfold Obligations.UnknownSymbolClosesTheWriter
  intro s x hinv hp
  have ht := hinv.tree (hinv.treePhases (by rcases hp with hp | hp <;> simp [hp]))
  have hvalid := (hinv.codes (by rcases hp with hp | hp <;> simp [hp])).valid_iff ht (x := x)
  have hiff : (s.arch.codeAt x).valid = false ↔ s.arch.freqAt x = 0#32 := by
    rw [← Bool.not_eq_true, hvalid, not_not]
  refine ⟨hiff, fun hx => ?_⟩
  have hidle : s.arch.phase = .ready → s.arch.wcnt = 0#3 := fun hr => (hinv.writerIdle (by simp [hr]) (by simp [hr])).1
  obtain ⟨bs, houts, hlen, hbits⟩ := closeWriter_bits (start s.arch) hinv.writer
  have hsent : (if s.arch.phase = .enc ∧ s.arch.wcnt ≠ 0#3 then [(⟨.cbyte, s.arch.wacc⟩ : OutRecord)] else []) =
      bs.map (OutRecord.mk .cbyte) := by
    rw [closeWriter_eq, start_outs, List.nil_append, List.nil_append] at houts
    rw [← houts, start_arch]
    rcases hp with hr | he
    · simp [hr, hidle hr]
    · simp [he, ite_not]
  refine ⟨bs, hsent ▸ answers_enc_of_unknown hp (hiff.2 hx), hbits, fun hr => List.length_eq_zero_iff.1 ?_⟩
  rw [hlen, start_arch, hidle hr]
  rfl

/-! ### ENCEND (R117) -/

/-- The block with no stream open and an empty writer. -/
def withWriterClosed (a : Arch) : Arch := { a with phase := .ready, wacc := 0#8, wcnt := 0#3 }

theorem checked_encend {a : Arch} (hp : a.phase = .ready ∨ a.phase = .enc) :
    checked .encend (ruleOf .encend) a = .next (respond 0#32 ⟨withWriterClosed a, (closeWriter (start a)).outs⟩) := by
  rw [checked_of_legal (by rcases hp with hp | hp <;> rw [hp] <;> rfl), ruleOf, encodeEndRule, closeWriter_eq]
  rfl

theorem withWriterClosed_of_idle {a : Arch} (hp : a.phase = .ready) (hn : a.wcnt = 0#3) (hw : a.wacc = 0#8) :
    withWriterClosed a = a := by
  rw [withWriterClosed, ← hp, ← hn, ← hw]

/-- Settles O38: ENCEND closes the writer, which is empty in READY. -/
theorem encendClosesTheStream : Obligations.EncendClosesTheStream := by
  unfold Obligations.EncendClosesTheStream
  intro s
  have hans (hp : s.arch.phase = .ready ∨ s.arch.phase = .enc) : Answers .encend s (withWriterClosed s.arch)
      (if s.arch.wcnt = 0#3 then [] else [⟨.cbyte, s.arch.wacc⟩]) true 0#32 := by
    have h := answers_of_checked (checked_encend hp)
    rwa [closeWriter_eq, start_outs, List.nil_append] at h
  refine ⟨hans, fun hinv hp => ?_, turnedAway_legalPhases (i := .encend) (by simp [legalPhases]) s⟩
  obtain ⟨hn, hw⟩ := hinv.writerIdle (by simp [hp]) (by simp [hp])
  have h := hans (.inl hp)
  rw [withWriterClosed_of_idle hp hn hw, if_pos hn] at h
  exact ⟨hn, hw, h⟩

end Sys2Proof.Machine
end

section
/-! SUPPORT. The decoder (44_codec.md R119 to R126): what DEC and DECEND come to in the phases READY and DEC, one step of the tree
walk, the single leaf, and the bits after the logical end. -/

namespace Sys2Proof.Machine

/-! ### One step (R121) -/

/-- EMITTED counts a symbol that leaves before TOTAL have left, and does not wrap. -/
theorem emitted_succ_toNat {a : Arch} (hle : a.emitted.toNat ≤ a.total.toNat) (hne : a.emitted ≠ a.total) :
    (a.emitted + 1#32).toNat = a.emitted.toNat + 1 := by
  have hlt : a.emitted.toNat < a.total.toNat := Nat.lt_of_le_of_ne hle fun hc => hne (BitVec.eq_of_toNat_eq hc)
  have hmax := a.total.isLt
  exact toNat_succ_of_lt_cntMax (by omega)

/-- Settles O40: by the cases of a step. -/
theorem decodeBitWalksTheTree : Obligations.DecodeBitWalksTheTree := by
  unfold Obligations.DecodeBitWalksTheTree
  intro c bit
  dsimp only
  have hemits (hne : c.arch.emitted ≠ c.arch.total) (hle : c.arch.emitted.toNat ≤ c.arch.total.toNat) :
      (c.arch.emitted + 1#32).toNat ≤ c.arch.total.toNat ∧
        (c.arch.emitted + 1#32 = c.arch.emitted ∨ (c.arch.emitted + 1#32).toNat = c.arch.emitted.toNat + 1) :=
    ⟨emitted_succ_le hle hne, .inr (emitted_succ_toNat hle hne)⟩
  rcases decodeBit_cases c bit with ⟨he, h⟩ | ⟨he, hl, h⟩ | ⟨he, hl, n, rfl, ⟨hn, h⟩ | ⟨hn, h⟩⟩ <;> rw [h]
  · exact ⟨(if_pos he).symm, fun hle => ⟨hle, .inl rfl⟩⟩
  · exact ⟨by rw [if_neg he, if_pos hl], hemits he⟩
  · exact ⟨by rw [if_neg he, if_neg (Bool.eq_false_iff.1 hl), if_pos hn], hemits he⟩
  · exact ⟨by rw [if_neg he, if_neg (Bool.eq_false_iff.1 hl), if_neg (Bool.eq_false_iff.1 hn)],
      fun hle => ⟨hle, .inl rfl⟩⟩

/-! ### DEC (R119, R120) -/

/-- The block in the decode stream that DEC opens in READY, or goes on with in DEC. -/
def openDecode (a : Arch) : Arch := { startDecode a with phase := .dec }

theorem openDecode_of_ready {a : Arch} (hp : a.phase = .ready) :
    openDecode a = { a with phase := .dec, cur := a.root, emitted := 0#32 } := by
  simp [openDecode, startDecode, hp]

theorem openDecode_of_dec {a : Arch} (hp : a.phase = .dec) : openDecode a = a := by
  rw [openDecode, startDecode, hp, if_neg (by simp), ← hp]

theorem checked_dec {a : Arch} (hp : a.phase = .ready ∨ a.phase = .dec) (b : BitVec 8) :
    checked (.dec b) (ruleOf (.dec b)) a =
      .next (respond 0#32 ((bitsOfByte b).foldl decodeBit (start (openDecode a)))) := by
  rw [checked_of_legal (by rcases hp with hp | hp <;> rw [hp] <;> rfl)]
  rfl

theorem bitsOfByte_eq (b : BitVec 8) : bitsOfByte b =
    [b.getLsbD 7, b.getLsbD 6, b.getLsbD 5, b.getLsbD 4, b.getLsbD 3, b.getLsbD 2, b.getLsbD 1, b.getLsbD 0] := rfl

/-- Settles O41: the stream DEC opens or finds is the one the statement names, and a step writes only CUR and EMITTED. -/
theorem decTakesEightBits : Obligations.DecTakesEightBits := by
  unfold Obligations.DecTakesEightBits
  intro s b
  refine ⟨fun a ha => ?_, turnedAway_legalPhases (i := .dec b) (by simp [legalPhases]) s⟩
  have hopen : openDecode s.arch = a := by
    rcases ha with ⟨hp, rfl⟩ | ⟨hp, rfl⟩
    · exact openDecode_of_ready hp
    · exact openDecode_of_dec hp
  have hans := answers_of_checked (checked_dec (ha.imp And.left And.left) b)
  obtain ⟨i, n, harch⟩ := foldl_decodeBit_arch (bitsOfByte b) (start a)
  rw [hopen] at hans
  rw [bitsOfByte_eq, start] at hans harch
  refine ⟨_, rfl, ?_⟩
  generalize List.foldl decodeBit _ _ = c at *
  exact ⟨hans, harch.trans (by rw [harch])⟩

/-! ### After the logical end (R126) -/

/-- Settles O43. -/
theorem trailingBitsAreDiscarded : Obligations.TrailingBitsAreDiscarded := by
  unfold Obligations.TrailingBitsAreDiscarded
  refine ⟨fun s b hp he => ?_, fun c q he => foldl_decodeBit_of_allEmitted he q⟩
  have hans := answers_of_checked (checked_dec (.inr hp) b)
  rwa [openDecode_of_dec hp, foldl_decodeBit_of_allEmitted (c := start s.arch) he] at hans

/-! ### The single leaf (R122) -/

/-- Where ROOT is a leaf each bit is one more of its symbol, until TOTAL have left. -/
theorem foldl_decodeBit_of_root_leaf (q : Bits) {c : Busy} (hl : (c.arch.nodeAt c.arch.root).leaf = true)
    (hle : c.arch.emitted.toNat ≤ c.arch.total.toNat) {n : Nat}
    (hn : n = min q.length (c.arch.total.toNat - c.arch.emitted.toNat)) :
    q.foldl decodeBit c =
      { arch := { c.arch with emitted := BitVec.ofNat 32 (c.arch.emitted.toNat + n) }
        outs := c.outs ++ List.replicate n ⟨.dsym, (c.arch.nodeAt c.arch.root).sym⟩ } := by
  induction q generalizing c n with
  | nil => simp [hn]
  | cons b q ih =>
    rw [List.length_cons] at hn
    rcases decodeBit_cases c b with ⟨he, -⟩ | ⟨hne, -, h⟩ | ⟨-, hl', -⟩
    · have hn0 : n = 0 := by rw [hn, he]; omega
      rw [foldl_decodeBit_of_allEmitted he, hn0]
      simp
    · have hsucc := emitted_succ_toNat hle hne
      have hle' := emitted_succ_le hle hne
      obtain ⟨m, rfl⟩ : ∃ m, n = m + 1 := ⟨n - 1, by omega⟩
      have hrest := ih (c := decodeBit c b) (n := m) (by rw [h]; exact hl) (by rw [h]; exact hle') (by rw [h]; dsimp only; omega)
      rw [List.foldl_cons, hrest, h]
      simp only [hsucc, List.replicate_succ, List.append_assoc, List.singleton_append, Nat.add_assoc, Nat.add_comm 1 m]
      rfl
    · exact absurd (hl'.symm.trans hl) Bool.false_ne_true

/-- DEC works in a state that meets the invariants. -/
theorem Inv.openDecode {a : Arch} (h : Inv a) (hp : a.phase = .ready ∨ a.phase = .dec) : Inv (openDecode a) := by
  obtain ⟨hs, hps, hr⟩ := inv_startDecode h hp
  exact hs.withReader (hps ▸ hp) (.inr rfl) hr

/-- Over a single leaf CUR, which is not below ROOT, is ROOT = 0, and `e` symbols have left. -/
theorem openDecode_of_single {a : Arch} (hinv : Inv a) (hroot : a.root = 0#9) {e : Nat}
    (h : (a.phase = .ready ∧ e = 0) ∨ (a.phase = .dec ∧ e = a.emitted.toNat)) :
    e ≤ a.total.toNat ∧ openDecode a = { a with phase := .dec, cur := 0#9, emitted := BitVec.ofNat 32 e } := by
  rcases h with ⟨hp, rfl⟩ | ⟨hp, rfl⟩
  · exact ⟨Nat.zero_le _, by rw [openDecode_of_ready hp, ← hroot]⟩
  · have hle := (hinv.cursor hp).1
    rw [hroot] at hle
    have hcur : a.cur = 0#9 := BitVec.eq_of_toNat_eq (Nat.le_zero.1 hle)
    exact ⟨hinv.emitted, by rw [openDecode_of_dec hp, ← hp, ← hcur, BitVec.ofNat_toNat, BitVec.setWidth_eq]⟩

/-- Settles O42: ROOT is the leaf, so each bit of the byte is one more of its symbol. -/
theorem singleLeafDecodesOneSymbolABit : Obligations.SingleLeafDecodesOneSymbolABit := by
  unfold Obligations.SingleLeafDecodesOneSymbolABit
  intro s b e hinv hone hphase n
  have hp : s.arch.phase = .ready ∨ s.arch.phase = .dec := hphase.imp And.left And.left
  have ht := hinv.tree (by rw [hone]; decide)
  obtain ⟨hroot, hleaf⟩ := ht.leaf_of_single hone
  have hroot0 : s.arch.root = 0#9 := BitVec.eq_of_toNat_eq hroot
  refine ⟨?_, hroot0, ?_⟩
  · obtain ⟨he, hopen⟩ := openDecode_of_single hinv hroot0 hphase
    have hmod : (BitVec.ofNat 32 e).toNat = e := Nat.mod_eq_of_lt (Nat.lt_of_le_of_lt he s.arch.total.isLt)
    have hrootLeaf : ((openDecode s.arch).nodeAt (openDecode s.arch).root).leaf = true := by
      rw [hopen, Arch.nodeAt, hroot]
      exact hleaf
    have hn : n = min (bitsOfByte b).length ((openDecode s.arch).total.toNat - (openDecode s.arch).emitted.toNat) := by
      rw [hopen, hmod, bitsOfByte_length]
    have hans := answers_of_checked (checked_dec hp b)
    rw [foldl_decodeBit_of_root_leaf _ (c := start (openDecode s.arch)) hrootLeaf (hinv.openDecode hp).emitted hn,
      start_arch, hopen, hmod, Arch.nodeAt, hroot] at hans
    exact hans
  · obtain ⟨p, hcode⟩ := (hinv.codes (by rcases hp with hp | hp <;> simp [hp])).holdsCode ht
      (ht.freqAt_leaf (Nat.zero_le _) hleaf)
    rw [hcode.path, ((isCode_of_single hone _ p).1 hcode.isCode).2, List.length_singleton]

/-! ### DECEND (R123 to R125) -/

theorem checked_decend {a : Arch} (hp : a.phase = .ready ∨ a.phase = .dec) :
    checked .decend (ruleOf .decend) a = decodeEndRule a :=
  checked_of_legal (by rcases hp with hp | hp <;> rw [hp] <;> rfl) _

theorem decodeEndRule_of_allEmitted {a : Arch} (he : (startDecode a).emitted = (startDecode a).total) :
    decodeEndRule a = .next (respond 0#32 (start { startDecode a with phase := .ready })) := by
  simp [decodeEndRule, allEmitted, he, start]

theorem decodeEndRule_of_atRoot {a : Arch} (he : (startDecode a).emitted ≠ (startDecode a).total)
    (hc : (startDecode a).cur = (startDecode a).root) :
    decodeEndRule a = .next (raise .endOfStream (start (startDecode a))) := by
  simp [decodeEndRule, allEmitted, atRoot, he, hc]

theorem decodeEndRule_of_insideCode {a : Arch} (he : (startDecode a).emitted ≠ (startDecode a).total)
    (hc : (startDecode a).cur ≠ (startDecode a).root) :
    decodeEndRule a = .next (raise .corruptStream (start (startDecode a))) := by
  simp [decodeEndRule, allEmitted, atRoot, he, hc]

/-- Settles O45: by the three answers of its rule at the stream that DECEND starts or finds. -/
theorem decendEndsOrRaises : Obligations.DecendEndsOrRaises := by
  unfold Obligations.DecendEndsOrRaises
  intro s
  have hends : ∀ a, (s.arch.phase = .ready ∧ a = { s.arch with cur := s.arch.root, emitted := 0#32 }) ∨
        (s.arch.phase = .dec ∧ a = s.arch) →
      (a.emitted = a.total → Answers .decend s { a with phase := .ready } [] true 0#32) ∧
      (a.emitted ≠ a.total → a.cur = a.root → Answers .decend s (withError a .endOfStream) [] false 0#32) ∧
      (a.emitted ≠ a.total → a.cur ≠ a.root → Answers .decend s (withError a .corruptStream) [] false 0#32) := by
    intro a ha
    have hp : s.arch.phase = .ready ∨ s.arch.phase = .dec := ha.imp And.left And.left
    obtain rfl : startDecode s.arch = a := by
      rcases ha with ⟨hp, rfl⟩ | ⟨hp, rfl⟩ <;> simp [startDecode, hp]
    exact ⟨fun he => answers_of_checked ((checked_decend hp).trans (decodeEndRule_of_allEmitted he)),
      fun he hc => answers_of_checked ((checked_decend hp).trans (decodeEndRule_of_atRoot he hc)),
      fun he hc => answers_of_checked ((checked_decend hp).trans (decodeEndRule_of_insideCode he hc))⟩
  refine ⟨hends, fun hinv hp => ?_, turnedAway_legalPhases (i := .decend) (by simp [legalPhases]) s⟩
  have h0 := hinv.total_ne_zero (hinv.treePhases (by simp [hp]))
  exact (hends _ (.inl ⟨hp, rfl⟩)).2.1 (Ne.symm h0) rfl

end Sys2Proof.Machine
end

section
/-! SUPPORT. Runs of command words that all answer `ok = 1`, with the records that leave; the encode stream (44_codec.md R115). -/

namespace Sys2Proof.Machine

/-! ### What leaves on the ports -/

@[simp] theorem bytesOn_append (st : Stream) (ds ds' : List Delivery) :
    bytesOn st (ds ++ ds') = bytesOn st ds ++ bytesOn st ds' :=
  List.filterMap_append

@[simp] theorem bytesOn_response (st : Stream) (r : Response) : bytesOn st [.response r] = [] := rfl

theorem bytesOn_records_same (st : Stream) (bs : List (BitVec 8)) :
    bytesOn st ((bs.map (OutRecord.mk st)).map .record) = bs := by
  simp [bytesOn, List.filterMap_map, Function.comp_def]

theorem bytesOn_records_other {st st' : Stream} (h : st' ≠ st) (bs : List (BitVec 8)) :
    bytesOn st ((bs.map (OutRecord.mk st')).map .record) = [] := by
  simp [bytesOn, List.filterMap_map, Function.comp_def, h]

theorem allOk_deliver {s : State} {e : Effect} (hs : AllOk s.delivered) (he : e.ok = true) : AllOk (s.deliver e).delivered := by
  intro r hr
  rw [State.deliver_delivered, List.mem_append, List.mem_append] at hr
  rcases hr with (hr | hr) | hr
  · exact hs r hr
  · obtain ⟨o, -, ho⟩ := List.mem_map.1 hr
    cases ho
  · cases List.mem_singleton.1 hr
    exact he

/-! ### Runs without an error -/

/-- From the block `a` every command of `is` answers `ok = 1`; `b` is the block after them, and `outs` are their records. -/
inductive RunsOk : Arch → List Instr → List OutRecord → Arch → Prop where
  | nil (a : Arch) : RunsOk a [] [] a
  | cons {a b : Arch} {i : Instr} {is : List Instr} {e : Effect} {outs : List OutRecord} (hw : i.wellFormed = true)
      (h : checked i (ruleOf i) a = .next e) (hok : e.ok = true) (hrest : RunsOk e.arch is outs b) :
      RunsOk a (i :: is) (e.outs ++ outs) b

theorem RunsOk.one {a : Arch} {i : Instr} {c : Busy} {d : BitVec 32} (hw : i.wellFormed = true)
    (h : checked i (ruleOf i) a = .next (respond d c)) : RunsOk a [i] c.outs c.arch := by
  have hrun := RunsOk.cons hw h rfl (.nil _)
  rwa [List.append_nil] at hrun

theorem RunsOk.append {a b c : Arch} {is js : List Instr} {outs outs' : List OutRecord} (h : RunsOk a is outs b)
    (h' : RunsOk b js outs' c) : RunsOk a (is ++ js) (outs ++ outs') c := by
  induction h with
  | nil => exact h'
  | cons hw h hok _ ih =>
    rw [List.append_assoc]
    exact .cons hw h hok (ih h')

/-- The words of the commands run to the end, their records leave, and every response has `ok = 1`. -/
theorem RunsOk.feed {a b : Arch} {is : List Instr} {outs : List OutRecord} (h : RunsOk a is outs b) {s : State} (hs : s.arch = a) :
    ∃ t, feed s is = .next t ∧ t.arch = b ∧
      (∀ st, bytesOn st t.delivered = bytesOn st s.delivered ++ bytesOn st (outs.map .record)) ∧
      (AllOk s.delivered → AllOk t.delivered) := by
  induction h generalizing s with
  | nil => exact ⟨_, feed_nil s, hs, fun st => (List.append_nil _).symm, id⟩
  | @cons a b i is e outs hw h hok _ ih =>
    obtain ⟨t, ht, hb, hbytes, hall⟩ := ih (s := s.deliver e) rfl
    refine ⟨t, (feed_cons hw (hs ▸ h) is).trans ht, hb, fun st => ?_, fun ha => hall (allOk_deliver ha hok)⟩
    rw [hbytes st]
    simp

/-! ### The encode stream (R115) -/

/-- The codes of the symbols `xs`, in order. -/
def codeBits (a : Arch) (xs : List Sym) : Bits := xs.flatMap fun x => (a.codeAt x).path

/-- Whole bytes need no padding. -/
theorem padding_add_bytes (k n : Nat) : padding (8 * k + n) = padding n := by
  rw [padding, padding, Nat.mul_add_mod]

/-- From ENC to ENCEND the bytes are the bits held at first and the codes, padded. -/
theorem exists_runsOk_encode (xs : List Sym) {a : Arch} {held : Bits} (h : HeldBefore a held)
    (hn : a.phase = .ready → a.wcnt = 0#3) (hv : ∀ x ∈ xs, (a.codeAt x).valid = true) :
    ∃ bs : List (BitVec 8), RunsOk a (xs.map .enc ++ [.encend]) (bs.map (OutRecord.mk .cbyte)) (withWriterClosed a) ∧
      unpack bs = held ++ codeBits a xs ++ List.replicate (padding (held ++ codeBits a xs).length) false := by
  induction xs generalizing a held with
  | nil =>
    have hrun := RunsOk.one rfl (checked_encend h.phase)
    rcases h with ⟨hp, rfl⟩ | ⟨-, rfl, hclean⟩
    · rw [closeWriter_eq, start_arch, hn hp] at hrun
      exact ⟨[], hrun, by simp [unpack, codeBits, padding]⟩
    · obtain ⟨bs, houts, -, hbits⟩ := closeWriter_bits (start a) hclean
      rw [houts] at hrun
      have hlt : a.wcnt.toNat < 8 := a.wcnt.isLt
      refine ⟨bs, hrun, ?_⟩
      simpa [codeBits, padding, Nat.mod_eq_of_lt hlt] using hbits
  | cons x xs ih =>
    obtain ⟨hx, hxs⟩ := List.forall_mem_cons.1 hv
    obtain ⟨bs, w, n, hrule, hbits, hclean⟩ := checked_enc_writes_code h hx
    obtain ⟨bs', hrun, hbits'⟩ := ih (a := withWriter a w n) (.inr ⟨rfl, rfl, hclean⟩) (fun hc => by cases hc) hxs
    have hcodes : held ++ codeBits a (x :: xs) = unpack bs ++ (heldBits (withWriter a w n) ++ codeBits a xs) := by
      rw [codeBits, List.flatMap_cons, ← List.append_assoc, ← hbits, List.append_assoc]
      rfl
    refine ⟨bs ++ bs', ?_, ?_⟩
    · rw [List.map_append]
      exact .cons rfl hrule rfl hrun
    · rw [hcodes, List.length_append, unpack_length, padding_add_bytes, List.append_assoc (unpack bs)]
      calc unpack (bs ++ bs') = unpack bs ++ unpack bs' := List.flatMap_append
        _ = _ := by rw [hbits']; rfl

/-- A sum over a list is the sum over all symbols of how often each occurs times its value. -/
theorem sum_map_eq_sum_count_mul (xs : List Sym) (f : Sym → Nat) :
    (xs.map f).sum = (allSyms.map fun x => xs.count x * f x).sum := by
  rw [Finset.sum_list_map_count, ← List.sum_toFinset _ allSyms_nodup]
  simp only [smul_eq_mul]
  refine Finset.sum_subset (fun x _ => List.mem_toFinset.2 (mem_allSyms x)) fun x _ hx => ?_
  rw [List.count_eq_zero.2 fun hmem => hx (List.mem_toFinset.2 hmem), Nat.zero_mul]

/-- Settles O39: by induction on the symbols; the bits of a stream with the counts of FREQ are counted symbol by symbol. -/
theorem encodeStreamPacksTheCodes : Obligations.EncodeStreamPacksTheCodes := by
  unfold Obligations.EncodeStreamPacksTheCodes
  intro s xs hp hn hv
  obtain ⟨bs, hrun, hbits⟩ := exists_runsOk_encode xs (.inl ⟨hp, rfl⟩) (fun _ => hn) hv
  rw [List.nil_append] at hbits
  obtain ⟨t, ht, harch, hbytes, -⟩ := hrun.feed rfl
  have hlen : 8 * bs.length = (codeBits s.arch xs).length + padding (codeBits s.arch xs).length := by
    simpa using congrArg List.length hbits
  refine ⟨t, bs, ht, ?_, by rw [hbytes, bytesOn_records_same], ?_, hbits, fun hcount => ?_⟩
  · rw [harch, withWriterClosed, ← hp]
  · rw [padding] at hlen
    change bs.length = ((codeBits s.arch xs).length + 7) / 8
    omega
  · rw [List.length_flatMap, sum_map_eq_sum_count_mul]
    simp only [hcount]

end Sys2Proof.Machine
end

section
/-! SUPPORT. The decode stream of an encoded input, and the round trip (44_codec.md R127). -/

namespace Sys2Proof.Machine

/-! ### The bits of a code (R121, R122) -/

/-- The bits of a path that leads from CUR to a leaf give its symbol, and the decoder is back at ROOT. -/
theorem foldl_decodeBit_of_walk {p : Bits} {c : Busy} {j : NodeIdx} (hroot : (c.arch.nodeAt c.arch.root).leaf = false)
    (hne : c.arch.emitted ≠ c.arch.total) (hcur : (c.arch.nodeAt c.arch.cur).leaf = false)
    (hw : walk c.arch.node c.arch.cur p = some j) (hl : (c.arch.nodeAt j).leaf = true) :
    p.foldl decodeBit c =
      { arch := { c.arch with cur := c.arch.root, emitted := c.arch.emitted + 1#32 }
        outs := c.outs ++ [⟨.dsym, (c.arch.nodeAt j).sym⟩] } := by
  induction p generalizing c with
  | nil =>
    cases hw
    exact absurd (hcur.symm.trans hl) Bool.false_ne_true
  | cons b p ih =>
    rw [walk_cons_of_inner hcur] at hw
    rw [List.foldl_cons]
    rcases decodeBit_cases c b with ⟨he, -⟩ | ⟨-, hleaf, -⟩ | ⟨-, -, next, hnext, ⟨hleaf, hstep⟩ | ⟨hinner, hstep⟩⟩
    · exact absurd he hne
    · exact absurd (hroot.symm.trans hleaf) Bool.false_ne_true
    · obtain rfl : p = [] := by
        cases p with
        | nil => rfl
        | cons b' p =>
          rw [hnext, Arch.nodeAt] at hleaf
          exact absurd ((walk_cons_of_leaf hleaf b' p).symm.trans hw) (by simp)
      obtain rfl : next = j := hnext.trans (Option.some.inj hw)
      exact hstep
    · have hrest := ih (c := decodeBit c b) (by rw [hstep]; exact hroot) (by rw [hstep]; exact hne) (by rw [hstep]; exact hinner)
        (by rw [hstep, hnext]; exact hw) (by rw [hstep]; exact hl)
      rw [hrest, hstep]
      rfl

/-- At ROOT the bits of a symbol's code give the symbol. -/
theorem foldl_decodeBit_of_isCode {c : Busy} {x : Sym} {p : Bits} (ht : TreeOk c.arch) (hcode : IsCode c.arch x p)
    (hcur : c.arch.cur = c.arch.root) (hne : c.arch.emitted ≠ c.arch.total) :
    p.foldl decodeBit c =
      { arch := { c.arch with emitted := c.arch.emitted + 1#32 }, outs := c.outs ++ [⟨.dsym, x⟩] } := by
  by_cases hn : c.arch.nnodes = 1#10
  · obtain ⟨hroot, hleaf⟩ := ht.leaf_of_single hn
    obtain ⟨rfl, rfl⟩ := (isCode_of_single hn x p).1 hcode
    rw [← hroot] at hleaf ⊢
    rcases decodeBit_cases c true with ⟨he, -⟩ | ⟨-, -, hstep⟩ | ⟨-, hinner, -⟩
    · exact absurd he hne
    · exact hstep
    · exact absurd (hinner.symm.trans hleaf) Bool.false_ne_true
  · obtain ⟨j, hw, hl, rfl⟩ := (isCode_of_two hn x p).1 hcode
    have hroot : (c.arch.nodeAt c.arch.root).leaf = false := ht.root_inner hn
    rw [foldl_decodeBit_of_walk hroot hne (hcur ▸ hroot) (hcur ▸ hw) hl, ← hcur]

/-- At ROOT the codes of the symbols `xs` give `xs`, while no more than TOTAL have left. -/
theorem foldl_decodeBit_codeBits (xs : List Sym) {c : Busy} (ht : TreeOk c.arch)
    (hcode : ∀ x ∈ xs, IsCode c.arch x (c.arch.codeAt x).path) (hcur : c.arch.cur = c.arch.root)
    (hroom : c.arch.emitted.toNat + xs.length ≤ c.arch.total.toNat) :
    (codeBits c.arch xs).foldl decodeBit c =
      { arch := { c.arch with emitted := BitVec.ofNat 32 (c.arch.emitted.toNat + xs.length) }
        outs := c.outs ++ xs.map (OutRecord.mk .dsym) } := by
  induction xs generalizing c with
  | nil => simp [codeBits]
  | cons x xs ih =>
    obtain ⟨hx, hxs⟩ := List.forall_mem_cons.1 hcode
    rw [List.length_cons] at hroom
    have hne : c.arch.emitted ≠ c.arch.total := fun he => by rw [he] at hroom; omega
    have hsucc := emitted_succ_toNat (by omega) hne
    have hstep := foldl_decodeBit_of_isCode ht hx hcur hne
    have hrest := ih (c := ⟨{ c.arch with emitted := c.arch.emitted + 1#32 }, c.outs ++ [⟨.dsym, x⟩]⟩)
      (ht.of_eq rfl rfl rfl rfl rfl rfl) hxs hcur (by dsimp only; omega)
    rw [codeBits, List.flatMap_cons, List.foldl_append, hstep]
    refine hrest.trans ?_
    simp only [hsucc, List.length_cons, List.map_cons, List.append_assoc, List.singleton_append, Nat.add_assoc,
      Nat.add_comm 1]

/-! ### Sequences of DEC (R119) -/

/-- What has left before a step has no effect on it. -/
theorem decodeBit_start (c : Busy) (b : Bool) :
    decodeBit c b = ⟨(decodeBit (start c.arch) b).arch, c.outs ++ (decodeBit (start c.arch) b).outs⟩ := by
  unfold decodeBit emitSymbol emit
  dsimp only [start]
  generalize (if b then _ else _) = next
  split_ifs <;> simp

theorem foldl_decodeBit_start (q : Bits) (c : Busy) :
    q.foldl decodeBit c = ⟨(q.foldl decodeBit (start c.arch)).arch, c.outs ++ (q.foldl decodeBit (start c.arch)).outs⟩ := by
  induction q generalizing c with
  | nil => simp
  | cons b q ih =>
    rw [List.foldl_cons, List.foldl_cons, ih (decodeBit c b), ih (decodeBit (start c.arch) b), decodeBit_start c b]
    simp

/-- DEC after DEC is the walk along all the bits of the bytes. -/
theorem runsOk_decs (bs : List (BitVec 8)) (b : BitVec 8) {a : Arch} (hp : a.phase = .ready ∨ a.phase = .dec) :
    RunsOk a ((b :: bs).map .dec) ((unpack (b :: bs)).foldl decodeBit (start (openDecode a))).outs
      ((unpack (b :: bs)).foldl decodeBit (start (openDecode a))).arch := by
  induction bs generalizing a b with
  | nil => simpa [unpack] using RunsOk.one rfl (checked_dec hp b)
  | cons b' bs ih =>
    obtain ⟨i, n, harch⟩ := foldl_decodeBit_arch (bitsOfByte b) (start (openDecode a))
    have hrule := checked_dec hp b
    rw [unpack, List.flatMap_cons, List.foldl_append, foldl_decodeBit_start]
    generalize (bitsOfByte b).foldl decodeBit (start (openDecode a)) = c at *
    have hdec : c.arch.phase = .dec := by rw [harch]; rfl
    have hrest := ih b' (a := c.arch) (.inr hdec)
    rw [openDecode_of_dec hdec] at hrest
    exact .cons rfl hrule rfl hrest

/-- From the start of a stream, the codes of TOTAL symbols and whatever pads them decode to the symbols. -/
theorem foldl_decodeBit_encoded {a : Arch} (hinv : Inv a) (hp : a.phase = .dec) (hcur : a.cur = a.root)
    (he : a.emitted = 0#32) {xs : List Sym} (hlen : a.total.toNat = xs.length) (hv : ∀ x ∈ xs, (a.codeAt x).valid = true)
    (pad : Bits) :
    (codeBits a xs ++ pad).foldl decodeBit (start a) =
      ⟨{ a with emitted := a.total }, xs.map (OutRecord.mk .dsym)⟩ := by
  have ht := hinv.tree (hinv.treePhases (by simp [hp]))
  have hcode : ∀ x ∈ xs, IsCode a x (a.codeAt x).path := fun x hx => by
    obtain ⟨-, p, hcode⟩ := hinv.holdsCode_of_valid (hv x hx)
    rw [hcode.path]
    exact hcode.isCode
  have htotal : BitVec.ofNat 32 (a.emitted.toNat + xs.length) = a.total := by
    rw [he, ← hlen, BitVec.toNat_zero, Nat.zero_add, BitVec.ofNat_toNat, BitVec.setWidth_eq]
  have hfold := foldl_decodeBit_codeBits xs (c := start a) ht hcode hcur (by rw [start_arch, he, hlen]; simp)
  rw [start_arch, htotal, start_outs, List.nil_append] at hfold
  rw [List.foldl_append, hfold, foldl_decodeBit_of_allEmitted rfl]

/-- From READY the bytes of such a stream are taken by DEC, and DECEND finds that all symbols have left. -/
theorem runsOk_decode {a : Arch} (hinv : Inv a) (hp : a.phase = .ready) {xs : List Sym} (hne : xs ≠ [])
    (hlen : a.total.toNat = xs.length) (hv : ∀ x ∈ xs, (a.codeAt x).valid = true) {bs : List (BitVec 8)} {pad : Bits}
    (hbits : unpack bs = codeBits a xs ++ pad) :
    RunsOk a (bs.map .dec ++ [.decend]) (xs.map (OutRecord.mk .dsym))
      { a with phase := .ready, cur := a.root, emitted := a.total } := by
  have hopen := openDecode_of_ready hp
  have hfold : (unpack bs).foldl decodeBit (start (openDecode a)) =
      ⟨{ a with phase := .dec, cur := a.root, emitted := a.total }, xs.map (OutRecord.mk .dsym)⟩ := by
    have hinv' := hinv.openDecode (.inl hp)
    rw [hopen] at hinv' ⊢
    rw [hbits]
    exact foldl_decodeBit_encoded hinv' rfl rfl rfl hlen hv pad
  cases bs with
  | nil => exact absurd (List.map_eq_nil_iff.1 (congrArg Busy.outs hfold).symm) hne
  | cons b bs =>
    have hdecs := runsOk_decs bs b (.inl hp)
    rw [hfold] at hdecs
    have hend := hdecs.append (.one rfl ((checked_decend (.inr rfl)).trans (decodeEndRule_of_allEmitted rfl)))
    rwa [start_outs, List.append_nil] at hend

/-! ### Counting, BUILD and DERIVE (R127) -/

/-- Where there is room for all of `xs`, each CNT answers `ok = 1`. -/
theorem exists_runsOk_cnts (xs : List Sym) {a : Arch} (hp : a.phase = .count)
    (hwf : Memory.wf freqDefault Config.nsym a.freq = true) (hroom : a.total.toNat + xs.length ≤ 4294967295) :
    ∃ b, RunsOk a (xs.map .cnt) [] b ∧ CountedAll a xs b := by
  induction xs generalizing a with
  | nil => exact ⟨a, .nil a, .nil hwf⟩
  | cons x xs ih =>
    rw [List.length_cons] at hroom
    have hlt : a.total.toNat < 4294967295 := by omega
    have hne : a.total ≠ Config.cntMax := fun hc => by rw [hc] at hlt; exact absurd hlt (by decide)
    have htotal : (counted x a).total.toNat = a.total.toNat + 1 := toNat_succ_of_lt_cntMax hlt
    obtain ⟨b, hrun, hall⟩ := ih (a := counted x a) hp (wf_counted hwf x) (by omega)
    exact ⟨b, .cons rfl (checked_cnt_of_room hp hne x) rfl hrun, hall.cons hwf⟩

theorem inv_checked {i : Instr} {a : Arch} {e : Effect} (h : Inv a) (he : checked i (ruleOf i) a = .next e) : Inv e.arch := by
  rcases checked_next_cases he with ⟨hl, h'⟩ | ⟨-, h'⟩ | ⟨-, hp, h'⟩
  · exact inv_rule h hl h'
  · rwa [h']
  · rw [h']; exact h.withError hp (by simp [Raised])

theorem RunsOk.inv {a b : Arch} {is : List Instr} {outs : List OutRecord} (h : RunsOk a is outs b) (ha : Inv a) : Inv b := by
  induction h with
  | nil => exact ha
  | cons _ h _ _ ih => exact ih (inv_checked ha h)

/-- What a command answers is the effect of its checks and its rule. -/
theorem checked_of_answers {i : Instr} {s : State} {a : Arch} {outs : List OutRecord} {ok : Bool} {data : BitVec 32}
    (h : Answers i s a outs ok data) : checked i (ruleOf i) s.arch = .next ⟨a, outs, ok, data⟩ := by
  obtain ⟨e, he, hs⟩ := exec_next h
  have harch : a = e.arch := congrArg State.arch hs
  have hleft := congrArg State.delivered hs
  rw [State.deliver_delivered, List.append_assoc, List.append_assoc, List.append_cancel_left_eq] at hleft
  obtain ⟨houts, hresp⟩ := List.append_inj' hleft rfl
  have houts' : outs = e.outs := List.map_injective_iff.2 (fun _ _ => Delivery.record.inj) houts
  simp only [List.cons.injEq, Delivery.response.injEq, Effect.response, Response.mk.injEq, and_true] at hresp
  obtain ⟨hok, -, -, hdata⟩ := hresp
  rw [he, harch, houts', hok, hdata]

theorem checked_derive {a : Arch} (hinv : Inv a) (hp : a.phase = .tree) :
    ∃ code, checked .derive (ruleOf .derive) a = .next (respond 0#32 (start (withCodes a code))) := by
  obtain ⟨-, code, hans, -⟩ := derive_answers (s := { State.reset with arch := a }) hinv hp
  exact ⟨code, checked_of_answers hans⟩

/-- From reset, an input is counted and its codes are derived: TOTAL is its length, and each of its symbols has a code. -/
theorem exists_runsOk_derive {xs : List Sym} (hne : xs ≠ []) (hmax : xs.length ≤ 4294967295) :
    ∃ a, RunsOk Arch.reset (xs.map .cnt ++ [.build, .derive]) [] a ∧ Inv a ∧ a.phase = .ready ∧ a.err = .none ∧
      a.total.toNat = xs.length ∧ ∀ x ∈ xs, (a.codeAt x).valid = true := by
  obtain ⟨a, hcnts, hall⟩ := exists_runsOk_cnts xs (a := Arch.reset) rfl rfl (by simpa [Arch.reset] using hmax)
  have hp : a.phase = .count := by rw [hall.frame]; rfl
  have htotal : a.total.toNat = xs.length := by
    rw [hall.total]
    simp [Arch.reset]
    omega
  have h0 : a.total ≠ 0#32 := fun hc => hne (List.length_eq_zero_iff.1 (by rw [← htotal, hc]; rfl))
  have hbuild := hcnts.append (.one rfl (checked_build_of_counted hp h0))
  obtain ⟨code, hrule⟩ := checked_derive (hbuild.inv inv_reset) rfl
  have hderive := hbuild.append (.one rfl hrule)
  have hinv := hderive.inv inv_reset
  have hcounted : ∀ x ∈ xs, a.freqAt x ≠ 0#32 := fun x hx hc => by
    have hpos := List.count_pos_iff.2 hx
    have hle := List.count_le_length (a := x) (l := xs)
    have hfreq := congrArg BitVec.toNat ((hall.freqAt x).symm.trans hc)
    simp [Arch.reset, Arch.freqAt, Memory.read, freqDefault] at hfreq
    omega
  refine ⟨_, by simpa using hderive, hinv, rfl, ?_, htotal, fun x hx => ?_⟩
  · change a.err = .none
    rw [hall.frame]
    rfl
  · exact ((hinv.codes (.inl rfl)).valid_iff (hinv.tree (hinv.treePhases (.inr (.inl rfl))))).2 (hcounted x hx)

/-! ### The round trip (R127) -/

/-- Settles O57: the encode stream is the codes and their padding (R115), which the decoder takes back to the symbols. -/
theorem codecRoundTrip : Obligations.CodecRoundTrip := by
  unfold Obligations.CodecRoundTrip
  intro xs hne hmax
  obtain ⟨a, hready, hinv, hp, herr, hlen, hv⟩ := exists_runsOk_derive hne hmax
  obtain ⟨hidle, hacc⟩ := hinv.writerIdle (by simp [hp]) (by simp [hp])
  obtain ⟨bs, hencode, hbits⟩ := exists_runsOk_encode xs (.inl ⟨hp, rfl⟩) (fun _ => hidle) hv
  rw [withWriterClosed_of_idle hp hidle hacc] at hencode
  rw [List.nil_append] at hbits
  obtain ⟨t, ht, hta, htbytes, htok⟩ := (hready.append hencode).feed (s := State.reset) rfl
  have hcbytes : bytesOn .cbyte t.delivered = bs := by
    rw [htbytes, List.nil_append, bytesOn_records_same]
    rfl
  have hdsyms : bytesOn .dsym t.delivered = [] := by
    rw [htbytes, List.nil_append, bytesOn_records_other (by decide)]
    rfl
  obtain ⟨u, hu, hua, hubytes, huok⟩ := (runsOk_decode hinv hp hne hlen hv hbits).feed hta
  refine ⟨t, u, by simpa using ht, by rw [hcbytes]; exact hu, huok (htok (by simp [AllOk, State.reset])), ?_, by rw [hua], ?_⟩
  · rw [hubytes, hdsyms, bytesOn_records_same, List.nil_append]
  · rw [EndsWell, hua]
    exact ⟨.inl rfl, herr⟩

end Sys2Proof.Machine
end

section
/-! SUPPORT. The system and readout commands (45_system.md R130 to R136): what NOP, CLR and the reads answer, and the views in
numbers. -/

namespace Sys2Proof.Machine

/-! ### What the reads answer -/

/-- NOP and the reads answer what they read in every phase, and change nothing. -/
theorem answers_readView {i : Instr} {s : State} {v : BitVec 32} (hr : readsOnly i = true) (hv : readView i s.arch = some v) :
    Answers i s s.arch [] true v := by
  have hrule : ruleOf i s.arch = .next (respond v (start s.arch)) := by rw [ruleOf_eq_readout hr, readout, hv]
  exact answers_of_checked ((checked_of_legal (legalIn_of_readsOnly hr _) _).trans hrule)

/-- A read that selects nothing is answered as an illegal word is (log entry 10). -/
theorem answers_of_readView_none {i : Instr} {s : State} (hr : readsOnly i = true) (hv : readView i s.arch = none) :
    (s.arch.phase ≠ .err → Answers i s (withError s.arch .illegalCommand) [] false 0#32) ∧
    (s.arch.phase = .err → Answers i s s.arch [] false 0#32) := by
  have hrule : ruleOf i s.arch = .next (illegal s.arch) := by rw [ruleOf_eq_readout hr, readout, hv]
  have hans := answers_of_checked ((checked_of_legal (legalIn_of_readsOnly hr _) _).trans hrule)
  refine ⟨fun hp => ?_, fun hp => ?_⟩
  · rwa [illegal, if_neg hp] at hans
  · rwa [illegal, if_pos hp] at hans

/-- Settles O12. -/
theorem nopOnlyAnswers : Obligations.NopOnlyAnswers := by
  unfold Obligations.NopOnlyAnswers
  exact fun s => answers_readView rfl rfl

/-- Settles O13: CLR is legal in every phase, and its rule clears the block, the bits held with it. -/
theorem clrAnswersFromResetState : Obligations.ClrAnswersFromResetState := by
  unfold Obligations.ClrAnswersFromResetState
  intro s
  have hlegal : legalIn .clr s.arch.phase = true := by cases s.arch.phase <;> rfl
  have hrule : checked .clr (ruleOf .clr) s.arch = .next (respond 0#32 (start Arch.reset)) := checked_of_legal hlegal _
  exact answers_of_checked hrule

/-- Settles O15. -/
theorem rdfReadsCount : Obligations.RdfReadsCount := by
  unfold Obligations.RdfReadsCount
  exact fun s x => answers_readView rfl rfl

/-! ### The views in numbers (10_state.md R24, 45_system.md R134 to R136) -/

/-- The field of `n` bits of `v` from bit `lo` on is `x`. -/
theorem extractLsb'_eq_of_toNat {m n lo : Nat} {v : BitVec m} {x : BitVec n} (h : v.toNat / 2 ^ lo % 2 ^ n = x.toNat) :
    v.extractLsb' lo n = x := by
  rw [← BitVec.toNat_inj, BitVec.extractLsb'_toNat, Nat.shiftRight_eq_div_pow, h]

theorem getLsbD_eq_of_toNat {m i : Nat} {v : BitVec m} {b : Bool} (h : v.toNat / 2 ^ i % 2 = b.toNat) : v.getLsbD i = b := by
  rw [BitVec.getLsbD, Nat.testBit_eq_decide_div_mod_eq, h]
  cases b <;> rfl

theorem statusView_toNat (a : Arch) : (statusView a).toNat =
    a.wacc.toNat * 2 ^ 16 + a.wcnt.toNat * 2 ^ 8 + a.err.bits.toNat * 2 ^ 4 + a.phase.bits.toNat := by
  simp only [statusView, append_toNat, BitVec.toNat_ofNat]
  omega

theorem lengthView_toNat (e : CodeEntry) : (lengthView e).toNat = e.valid.toNat * 2 ^ 31 + e.len.toNat := by
  simp only [lengthView, append_toNat, BitVec.toNat_ofNat, BitVec.toNat_ofBool]
  omega

theorem kindView_toNat (n : Node) : (kindView n).toNat = 2 ^ 31 + n.leaf.toNat * 2 ^ 30 + n.sym.toNat := by
  simp only [kindView, append_toNat, BitVec.toNat_ofNat, BitVec.toNat_ofBool]
  omega

theorem linksView_toNat (n : Node) : (linksView n).toNat = n.left.toNat * 2 ^ 16 + n.right.toNat := by
  simp only [linksView, append_toNat, BitVec.toNat_ofNat]
  omega

/-- Element `n` of a word of the code vector stands at its bit `31 - n`. -/
theorem vectorView_getLsbD (e : CodeEntry) (word : BitVec 3) {n : Nat} (hn : n < 32) :
    (vectorView e word).getLsbD (31 - n) = e.vec.getLsbD (255 - (32 * word.toNat + n)) := by
  have hword := word.isLt
  have hbit : 224 - 32 * word.toNat + (31 - n) = 255 - (32 * word.toNat + n) := by omega
  rw [vectorView, BitVec.getLsbD_extractLsb', hbit, decide_eq_true (by omega), Bool.true_and]

/-! ### RDR (45_system.md R132, 10_state.md R24) -/

theorem statusView_fields (a : Arch) :
    (statusView a).extractLsb' 0 3 = a.phase.bits ∧ (statusView a).getLsbD 3 = false ∧
    (statusView a).extractLsb' 4 4 = a.err.bits ∧ (statusView a).extractLsb' 8 3 = a.wcnt ∧
    (statusView a).extractLsb' 11 5 = 0#5 ∧ (statusView a).extractLsb' 16 8 = a.wacc ∧
    (statusView a).extractLsb' 24 8 = 0#8 := by
  have hv := statusView_toNat a
  refine ⟨extractLsb'_eq_of_toNat ?_, getLsbD_eq_of_toNat ?_, extractLsb'_eq_of_toNat ?_, extractLsb'_eq_of_toNat ?_,
    extractLsb'_eq_of_toNat ?_, extractLsb'_eq_of_toNat ?_, extractLsb'_eq_of_toNat ?_⟩ <;>
    simp only [hv, BitVec.toNat_ofNat, Bool.toNat_false] <;> omega

/-- The registers 7 to 15 do not exist. -/
theorem registerView_eq_none {reg : BitVec 4} (h : 7 ≤ reg.toNat) (a : Arch) : registerView a reg = none := by
  unfold registerView
  split
  case h_8 => rfl
  all_goals omega

/-- Settles O14. -/
theorem rdrReadsRegisters : Obligations.RdrReadsRegisters := by
  unfold Obligations.RdrReadsRegisters
  refine ⟨fun s => ⟨⟨statusView s.arch, answers_readView rfl rfl, statusView_fields s.arch⟩, ?_⟩, fun s reg h =>
    answers_of_readView_none rfl (registerView_eq_none h s.arch)⟩
  simp only [BitVec.ofNat_toNat]
  exact ⟨answers_readView rfl rfl, answers_readView rfl rfl, answers_readView rfl rfl, answers_readView rfl rfl,
    answers_readView rfl rfl, answers_readView rfl rfl⟩

/-! ### RDL and RDC (45_system.md R134, R135) -/

/-- Items 3 and 8 of 10_state.md R23: there are no codes before DERIVE. -/
theorem Inv.noCodes_before_derive {a : Arch} (h : Inv a) (hp : a.phase = .count ∨ a.phase = .tree) : NoCodes a := by
  rcases hp with hp | hp
  · exact (h.noTree (h.countPhase hp)).2.2
  · exact h.noCodes hp

/-- Settles O16. -/
theorem rdlReadsLength : Obligations.RdlReadsLength := by
  unfold Obligations.RdlReadsLength
  intro s x
  refine ⟨lengthView (s.arch.codeAt x), answers_readView rfl rfl, ?_, fun hinv hp => ?_⟩
  · rw [lengthView_toNat]
    cases (s.arch.codeAt x).valid <;> simp
  · rw [hinv.noCodes_before_derive hp x]
    rfl

/-- Item 8 of 10_state.md R23 in every phase: an entry that is not valid is the reset entry. -/
theorem Inv.codeAt_of_not_valid {a : Arch} (h : Inv a) {x : Sym} (hv : (a.codeAt x).valid = false) : a.codeAt x = codeDefault := by
  have hcodes : NoCodes a ∨ (a.nnodes ≠ 0#10 ∧ CodesOk a) := by
    by_cases hp : a.phase = .err
    · exact h.codesInErr hp
    · exact h.noCodes_or_codesOk hp
  rcases hcodes with hno | ⟨hn, hc⟩
  · exact hno x
  · refine hc.codeAt_of_uncounted (not_not.1 fun hx => ?_)
    rw [(hc.valid_iff (h.tree hn)).2 hx] at hv
    cases hv

/-- Under the invariants an entry's vector is its path, from bit 255 down, and 0 beyond it (10_state.md R18). -/
theorem Inv.vec_getLsbD {a : Arch} (h : Inv a) (x : Sym) {k : Nat} (hk : k < 256) :
    (a.codeAt x).vec.getLsbD (255 - k) = (a.codeAt x).path.getD k false := by
  cases hv : (a.codeAt x).valid
  case false =>
    rw [h.codeAt_of_not_valid hv]
    simp [codeDefault, CodeEntry.path]
  case true =>
    obtain ⟨-, p, hp⟩ := h.holdsCode_of_valid hv
    rw [hp.path, hp.entry, CodeEntry.ofPath, ← pack_getMsbD p hk, BitVec.getMsbD_eq_getLsbD, decide_eq_true hk, Bool.true_and]

/-- Settles O17: a word is a slice of the vector, which under the invariants is the path and 0 beyond it. -/
theorem rdcReadsCodeVector : Obligations.RdcReadsCodeVector := by
  unfold Obligations.RdcReadsCodeVector
  intro s x word
  have hbits {n : Nat} (hn : n < 32) := vectorView_getLsbD (s.arch.codeAt x) word hn
  refine ⟨vectorView (s.arch.codeAt x) word, answers_readView rfl rfl, fun n => hbits, fun hinv => ⟨fun n hn => ?_, fun hv => ?_⟩⟩
  · have hword := word.isLt
    rw [hbits hn, hinv.vec_getLsbD x (by omega)]
  · rw [hinv.codeAt_of_not_valid hv]
    exact BitVec.extractLsb'_zero

/-! ### RDN (45_system.md R136) -/

theorem kindView_fields (n : Node) :
    (kindView n).getLsbD 31 = true ∧ (kindView n).getLsbD 30 = n.leaf ∧ (kindView n).extractLsb' 8 22 = 0#22 ∧
    (kindView n).extractLsb' 0 8 = n.sym := by
  have hv := kindView_toNat n
  have hleaf := n.leaf.toNat_le
  refine ⟨getLsbD_eq_of_toNat ?_, getLsbD_eq_of_toNat ?_, extractLsb'_eq_of_toNat ?_, extractLsb'_eq_of_toNat ?_⟩ <;>
    simp only [hv, BitVec.toNat_ofNat, Bool.toNat_true] <;> omega

theorem linksView_fields (n : Node) :
    (linksView n).extractLsb' 25 7 = 0#7 ∧ (linksView n).extractLsb' 16 9 = n.left ∧ (linksView n).extractLsb' 9 7 = 0#7 ∧
    (linksView n).extractLsb' 0 9 = n.right := by
  have hv := linksView_toNat n
  refine ⟨extractLsb'_eq_of_toNat ?_, extractLsb'_eq_of_toNat ?_, extractLsb'_eq_of_toNat ?_, extractLsb'_eq_of_toNat ?_⟩ <;>
    simp only [hv, BitVec.toNat_ofNat] <;> omega

theorem nodeView_of_absent {a : Arch} {idx : NodeIdx} {field : BitVec 2} (hf : field ≠ 3#2) (h : a.nnodes.toNat ≤ idx.toNat) :
    nodeView a idx field = some 0#32 := by
  have hne : field.toNat ≠ 3 := fun hc => hf (BitVec.eq_of_toNat_eq hc)
  have hlt := field.isLt
  unfold nodeView
  dsimp only
  split
  case h_4 => simp only [imp_false] at *; omega
  all_goals exact if_pos h

/-- The three parts of a node that exists. -/
theorem nodeView_of_exists {a : Arch} {idx : NodeIdx} (h : idx.toNat < a.nnodes.toNat) :
    nodeView a idx 0#2 = some (kindView (a.nodeAt idx)) ∧ nodeView a idx 1#2 = some (a.nodeAt idx).weight ∧
    nodeView a idx 2#2 = some (linksView (a.nodeAt idx)) :=
  have hn := Nat.not_le_of_lt h
  ⟨if_neg hn, if_neg hn, if_neg hn⟩

/-- No arena has an entry at index 511 (42_tree_build.md R100). -/
theorem Inv.nnodes_le {a : Arch} (h : Inv a) : a.nnodes.toNat ≤ 511 := by
  by_cases hn : a.nnodes = 0#10
  · rw [hn]
    decide
  · have hk := distinctSyms_length_le a
    rw [(h.tree hn).nnodes]
    omega

/-- Items 4 and 5 of 10_state.md R23: an internal node has no symbol, and a leaf no children. -/
theorem TreeOk.unused_fields {a : Arch} (h : TreeOk a) {i : Nat} (hi : i < a.nnodes.toNat) :
    ((nodeAt a.node i).leaf = false → (nodeAt a.node i).sym = 0#8) ∧
    ((nodeAt a.node i).leaf = true → (nodeAt a.node i).left = 0#9 ∧ (nodeAt a.node i).right = 0#9) := by
  have hroot : i ≤ a.root.toNat := by rw [h.nnodes_eq_root_succ] at hi; omega
  refine ⟨fun hl => (h.innerOk_of_not_leaf hroot hl).noSym, fun hl => ?_⟩
  rw [h.leaf i _ (List.getElem?_eq_getElem ((h.leaf_iff hroot).1 hl))]
  exact ⟨rfl, rfl⟩

/-- Settles O18. -/
theorem rdnReadsNode : Obligations.RdnReadsNode := by
  unfold Obligations.RdnReadsNode
  refine ⟨fun s idx field hf h => answers_readView rfl (nodeView_of_absent hf h), fun s idx h => ?_,
    fun s idx => answers_of_readView_none rfl rfl, fun a hinv => ⟨hinv.countPhase, hinv.nnodes_le, fun idx h => ?_⟩⟩
  · obtain ⟨hkind, hweight, hlinks⟩ := nodeView_of_exists h
    exact ⟨⟨_, answers_readView rfl hkind, kindView_fields _⟩, answers_readView rfl hweight,
      ⟨_, answers_readView rfl hlinks, linksView_fields _⟩⟩
  · have hn : a.nnodes ≠ 0#10 := fun hc => by rw [hc] at h; exact Nat.not_lt_zero _ h
    exact (hinv.tree hn).unused_fields h

end Sys2Proof.Machine
end

section
/-! SUPPORT. The reads together determine the block (45_system.md R137): two blocks that every read reads alike agree element by
element. -/

namespace Sys2Proof.Machine

/-! ### What a view determines -/

theorem Phase.bits_injective {p q : Phase} (h : p.bits = q.bits) : p = q := by
  revert h
  cases p <;> cases q <;> decide

theorem ErrorCode.bits_injective {e f : ErrorCode} (h : e.bits = f.bits) : e = f := by
  revert h
  cases e <;> cases f <;> decide

theorem setWidth_injective {n m : Nat} (hnm : n ≤ m) {x y : BitVec n} (h : x.zeroExtend m = y.zeroExtend m) : x = y := by
  have h' := congrArg (BitVec.setWidth n) h
  rwa [BitVec.setWidth_setWidth_of_le _ hnm, BitVec.setWidth_setWidth_of_le _ hnm, BitVec.setWidth_eq, BitVec.setWidth_eq] at h'

theorem eq_of_statusView_eq {a b : Arch} (h : statusView a = statusView b) :
    a.phase = b.phase ∧ a.err = b.err ∧ a.wcnt = b.wcnt ∧ a.wacc = b.wacc := by
  obtain ⟨hphase, -, herr, hwcnt, -, hwacc, -⟩ := statusView_fields a
  obtain ⟨hphase', -, herr', hwcnt', -, hwacc', -⟩ := statusView_fields b
  rw [h] at hphase herr hwcnt hwacc
  exact ⟨Phase.bits_injective (hphase.symm.trans hphase'), ErrorCode.bits_injective (herr.symm.trans herr'),
    hwcnt.symm.trans hwcnt', hwacc.symm.trans hwacc'⟩

theorem lengthView_fields (e : CodeEntry) : (lengthView e).getLsbD 31 = e.valid ∧ (lengthView e).extractLsb' 0 8 = e.len := by
  have hv := lengthView_toNat e
  refine ⟨getLsbD_eq_of_toNat ?_, extractLsb'_eq_of_toNat ?_⟩ <;> omega

/-- The eight words of a vector are all of it. -/
theorem vec_eq_of_vectorView_eq {e f : CodeEntry} (h : ∀ word, vectorView e word = vectorView f word) : e.vec = f.vec := by
  refine BitVec.eq_of_getMsbD_eq fun k hk => ?_
  have hword : (BitVec.ofNat 3 (k / 32)).toNat = k / 32 := Nat.mod_eq_of_lt (by omega)
  have hsplit : 32 * (k / 32) + k % 32 = k := Nat.div_add_mod k 32
  have hn : k % 32 < 32 := Nat.mod_lt _ (by decide)
  have he := vectorView_getLsbD e (BitVec.ofNat 3 (k / 32)) hn
  have hf := vectorView_getLsbD f (BitVec.ofNat 3 (k / 32)) hn
  rw [hword, hsplit] at he hf
  rw [BitVec.getMsbD_eq_getLsbD, BitVec.getMsbD_eq_getLsbD, ← he, ← hf, h]

theorem codeEntry_eq_of_views_eq {e f : CodeEntry} (hlen : lengthView e = lengthView f)
    (hvec : ∀ word, vectorView e word = vectorView f word) : e = f := by
  obtain ⟨hv, hl⟩ := lengthView_fields e
  obtain ⟨hv', hl'⟩ := lengthView_fields f
  rw [hlen] at hv hl
  rw [CodeEntry.mk.injEq]
  exact ⟨hv.symm.trans hv', hl.symm.trans hl', vec_eq_of_vectorView_eq hvec⟩

theorem node_eq_of_views_eq {m n : Node} (hkind : kindView m = kindView n) (hweight : m.weight = n.weight)
    (hlinks : linksView m = linksView n) : m = n := by
  obtain ⟨-, hleaf, -, hsym⟩ := kindView_fields m
  obtain ⟨-, hleaf', -, hsym'⟩ := kindView_fields n
  obtain ⟨-, hleft, -, hright⟩ := linksView_fields m
  obtain ⟨-, hleft', -, hright'⟩ := linksView_fields n
  rw [hkind] at hleaf hsym
  rw [hlinks] at hleft hright
  rw [Node.mk.injEq]
  exact ⟨hleaf.symm.trans hleaf', hsym.symm.trans hsym', hweight, hleft.symm.trans hleft', hright.symm.trans hright'⟩

/-! ### Blocks that read alike -/

/-- Every read that a word can name reads the same in both blocks. -/
def ReadAlike (a b : Arch) : Prop := ∀ i, readsOnly i = true → i.wellFormed = true → readView i a = readView i b

/-- A command has one answer. -/
theorem Answers.data_eq {i : Instr} {s : State} {a a' : Arch} {outs outs' : List OutRecord} {ok ok' : Bool} {data data' : BitVec 32}
    (h : Answers i s a outs ok data) (h' : Answers i s a' outs' ok' data') : data = data' := by
  have he := (checked_of_answers h).symm.trans (checked_of_answers h')
  rw [Host.Outcome.next.injEq, Effect.mk.injEq] at he
  exact he.2.2.2

/-- What reads alike answers alike, and the other way. -/
theorem readAlike_of_answers {s t : State} (h : ∀ (i : Instr) (data : BitVec 32), readsOnly i = true → i.wellFormed = true →
    (Answers i s s.arch [] true data ↔ Answers i t t.arch [] true data)) : ReadAlike s.arch t.arch := by
  intro i hr hw
  obtain ⟨v, hv⟩ := readView_isSome hw s.arch
  obtain ⟨u, hu⟩ := readView_isSome hw t.arch
  have hvt := (h i v hr hw).1 (answers_readView hr hv)
  rw [hv, hu, hvt.data_eq (answers_readView hr hu)]

namespace ReadAlike

variable {a b : Arch} (h : ReadAlike a b)
include h

theorem status : a.phase = b.phase ∧ a.err = b.err ∧ a.wcnt = b.wcnt ∧ a.wacc = b.wacc :=
  eq_of_statusView_eq (Option.some.inj (h (.rdr 0#4) rfl rfl))

theorem registers : a.total = b.total ∧ a.nleaf = b.nleaf ∧ a.nnodes = b.nnodes ∧ a.root = b.root ∧ a.cur = b.cur ∧
    a.emitted = b.emitted :=
  ⟨Option.some.inj (h (.rdr 1#4) rfl rfl), setWidth_injective (by decide) (Option.some.inj (h (.rdr 2#4) rfl rfl)),
    setWidth_injective (by decide) (Option.some.inj (h (.rdr 3#4) rfl rfl)),
    setWidth_injective (by decide) (Option.some.inj (h (.rdr 4#4) rfl rfl)),
    setWidth_injective (by decide) (Option.some.inj (h (.rdr 5#4) rfl rfl)), Option.some.inj (h (.rdr 6#4) rfl rfl)⟩

theorem freqAt (x : Sym) : a.freqAt x = b.freqAt x := Option.some.inj (h (.rdf x) rfl rfl)

theorem codeAt (x : Sym) : a.codeAt x = b.codeAt x :=
  codeEntry_eq_of_views_eq (Option.some.inj (h (.rdl x) rfl rfl)) fun word => Option.some.inj (h (.rdc x word) rfl rfl)

theorem nodeAt {idx : NodeIdx} (hidx : idx.toNat < a.nnodes.toNat) : a.nodeAt idx = b.nodeAt idx := by
  obtain ⟨-, -, hnnodes, -⟩ := h.registers
  obtain ⟨hkind, hweight, hlinks⟩ := nodeView_of_exists hidx
  obtain ⟨hkind', hweight', hlinks'⟩ := nodeView_of_exists (hnnodes ▸ hidx)
  have hreads (field : BitVec 2) (hf : (Instr.rdn idx field).wellFormed = true) : nodeView a idx field = nodeView b idx field :=
    h (.rdn idx field) rfl hf
  rw [hreads 0#2 rfl, hkind', Option.some.injEq] at hkind
  rw [hreads 1#2 rfl, hweight', Option.some.injEq] at hweight
  rw [hreads 2#2 rfl, hlinks', Option.some.injEq] at hlinks
  exact node_eq_of_views_eq hkind.symm hweight.symm hlinks.symm

/-- The arenas have the same entries: each has NNODES of them, all within reach of RDN. -/
theorem node (ha : Inv a) (hb : Inv b) : a.node = b.node := by
  have hla := ha.memories.node
  have hlb := hb.memories.node
  obtain ⟨-, -, hnnodes, -⟩ := h.registers
  refine List.ext_getElem (by rw [hla, hlb, hnnodes]) fun i hia hib => ?_
  have hle := ha.nnodes_le
  have hi : (BitVec.ofNat 9 i).toNat = i := Nat.mod_eq_of_lt (by omega)
  have hnode := h.nodeAt (idx := BitVec.ofNat 9 i) (by omega)
  rwa [Arch.nodeAt, Arch.nodeAt, hi, nodeAt_of_getElem? (List.getElem?_eq_getElem hia),
    nodeAt_of_getElem? (List.getElem?_eq_getElem hib)] at hnode

end ReadAlike

/-- Two CODE memories in canonical form with the same entries are the same data. -/
theorem code_eq_of_codeAt_eq {a b : Arch} (ha : Memory.wf codeDefault Config.nsym a.code = true)
    (hb : Memory.wf codeDefault Config.nsym b.code = true) (h : ∀ x, a.codeAt x = b.codeAt x) : a.code = b.code := by
  refine Memory.ext_of_wf ha hb fun i => ?_
  by_cases hi : i < Config.nsym
  · have hx : (BitVec.ofNat 8 i).toNat = i := Nat.mod_eq_of_lt hi
    have hread := h (BitVec.ofNat 8 i)
    rwa [Arch.codeAt, Arch.codeAt, hx] at hread
  · rw [Memory.read_outside ha (by omega), Memory.read_outside hb (by omega)]

/-- The twelve elements of 10_state.md R10, each recovered through its reads. -/
theorem ReadAlike.eq {a b : Arch} (h : ReadAlike a b) (ha : Inv a) (hb : Inv b) : a = b := by
  obtain ⟨hphase, herr, hwcnt, hwacc⟩ := h.status
  obtain ⟨htotal, hnleaf, hnnodes, hroot, hcur, hemitted⟩ := h.registers
  have hfreq := freq_eq_of_freqAt_eq ha.memories.freq hb.memories.freq h.freqAt
  have hcode := code_eq_of_codeAt_eq ha.memories.code hb.memories.code h.codeAt
  have hnode := h.node ha hb
  rw [Arch.mk.injEq]
  exact ⟨hphase, herr, htotal, hfreq, hnode, hnleaf, hnnodes, hroot, hcode, hwacc, hwcnt, hcur, hemitted⟩

/-- Settles O19: what answers every read alike reads alike, and so is the same block. -/
theorem readsDetermineTheState : Obligations.ReadsDetermineTheState := by
  unfold Obligations.ReadsDetermineTheState
  refine ⟨fun i s hr hw => ?_, fun s t hs ht h => (readAlike_of_answers h).eq hs ht⟩
  obtain ⟨v, hv⟩ := readView_isSome hw s.arch
  exact ⟨v, answers_readView hr hv⟩

end Sys2Proof.Machine
end

section
/-! SUPPORT. Commands that are not legal in a phase (60_exceptions.md R147); how a session in phase ERR goes on and ends (R152 to
R154); and that every event has an outcome (R158). -/

namespace Sys2Proof.Machine

/-! ### ProtocolError (R147) -/

/-- Settles O46: none of the seven commands with a blank in R70 is legal in phase ERR, so a phase outside its row turns it away. -/
theorem blanksOfR70RaiseProtocolError : Obligations.BlanksOfR70RaiseProtocolError := by
  unfold Obligations.BlanksOfR70RaiseProtocolError
  intro i s hblank
  have hraises (herr : Phase.err ∉ legalPhases i) (hp : s.arch.phase ≠ .err ∧ s.arch.phase ∉ legalPhases i) :
      Answers i s (withError s.arch .protocolError) [] false 0#32 :=
    (turnedAway_legalPhases herr s).2 hp.1 hp.2
  cases i
  case cnt | build | derive =>
    refine hraises (by simp [legalPhases]) ?_
    rcases hblank with hp | hp | hp | hp <;> simp [hp, legalPhases]
  case enc | encend | dec | decend =>
    refine hraises (by simp [legalPhases]) ?_
    rcases hblank with hp | hp | hp <;> simp [hp, legalPhases]
  all_goals cases hblank

/-! ### Words in phase ERR (R153) -/

theorem err_not_mem_legalPhases {i : Instr} (hr : readsOnly i = false) (hc : i ≠ .clr) : Phase.err ∉ legalPhases i := by
  cases i
  case clr => exact absurd rfl hc
  case nop | rdr | rdf | rdl | rdc | rdn => cases hr
  all_goals simp [legalPhases]

/-- Settles O47. -/
theorem errPhaseExecutesOnlyReadsAndClr : Obligations.ErrPhaseExecutesOnlyReadsAndClr := by
  unfold Obligations.ErrPhaseExecutesOnlyReadsAndClr
  intro w s hp
  refine ⟨fun i hd hr => ?_, fun hd => ?_, fun hother => ?_⟩
  · obtain ⟨v, hv⟩ := readView_isSome (encodeOfDecodeIsSameWord w i hd).2 s.arch
    exact ⟨v, execWord_of_decode hd s ▸ answers_readView hr hv⟩
  · exact execWord_of_decode hd s ▸ clrAnswersFromResetState s
  · by_cases hw : IllegalWord w
    · exact execWord_illegalWord_refused hw s hp
    · obtain ⟨i, hd⟩ := (exists_decode_ok_iff w).2 hw
      obtain ⟨hr, hc⟩ := hother i hd
      exact execWord_of_decode hd s ▸ (turnedAway_legalPhases (err_not_mem_legalPhases hr hc) s).1 hp

/-- Every word but CLR's answers in phase ERR, and leaves the block as it is. -/
theorem execWord_keeps_arch_in_err {w : CmdWord} {s : State} (hp : s.arch.phase = .err) (hw : w ≠ 0x1000#16) :
    ∃ t, execWord w s = .next t ∧ t.arch = s.arch := by
  obtain ⟨hreads, -, hother⟩ := errPhaseExecutesOnlyReadsAndClr w s hp
  by_cases hr : ∃ i, decode w = .ok i ∧ readsOnly i = true
  · obtain ⟨i, hd, hr⟩ := hr
    obtain ⟨data, hgives⟩ := hreads i hd hr
    exact ⟨_, hgives, rfl⟩
  · refine ⟨_, hother fun i hd => ⟨?_, ?_⟩, rfl⟩
    · exact Bool.eq_false_iff.2 fun hi => hr ⟨i, hd, hi⟩
    · rintro rfl
      exact hw (eq_of_decode_clr hd)

/-! ### The end of a session (R152, R154, 70_reset_and_hazards.md R165, R166) -/

theorem step_reset {s : State} {rest : List HostEvent} (h : s.input = .reset :: rest) :
    step s = .next (State.hardReset { s with input := rest }) := by
  simp [step, takeNext, h, takeEvent]

theorem step_wordThenReset {s : State} {w : CmdWord} {rest : List HostEvent} (h : s.input = .wordThenReset w :: rest) :
    step s = .next (State.abandon { s with input := rest } (execWord w { s with input := rest })) := by
  simp [step, takeNext, h, takeEvent]

/-- Settles O48: an event is a word, CLR's or another, or one of the two forms of `rst`; or there is none. -/
theorem firstErrorStaysUntilReset : Obligations.FirstErrorStaysUntilReset := by
  unfold Obligations.FirstErrorStaysUntilReset
  dsimp only
  intro s hp
  constructor
  · rintro e rest hin (rfl | rfl | ⟨w, rfl⟩)
    · have hclr := (errPhaseExecutesOnlyReadsAndClr 0x1000#16 { s with input := rest } hp).2.1 rfl
      exact ⟨_, (step_word hin).trans hclr, rfl⟩
    · exact ⟨_, step_reset hin, rfl⟩
    · exact ⟨_, step_wordThenReset hin, rfl⟩
  · intro hstays
    cases hin : s.input with
    | nil => exact ⟨s, step_idle hin, rfl⟩
    | cons e rest =>
      have hne := hstays e rest hin
      simp only [not_or, not_exists] at hne
      obtain ⟨hclr, hreset, habandon⟩ := hne
      cases e with
      | word w =>
        rw [step_word hin]
        exact execWord_keeps_arch_in_err (s := { s with input := rest }) hp fun hw => hclr (hw ▸ rfl)
      | reset => exact absurd rfl hreset
      | wordThenReset w => exact absurd rfl (habandon w)

/-! ### Every event has an outcome (R158) -/

/-- Only DERIVE can stop, and not on the tree of 10_state.md R23. -/
theorem Inv.execWord_answers {s : State} (h : Inv s.arch) (w : CmdWord) : ∃ t, execWord w s = .next t := by
  rcases execWord_cases w s with ⟨i, -, hw⟩ | ⟨r, -, hw⟩
  · rcases exec_answers i s with ⟨e, he⟩ | ⟨-, hp, hnone, -⟩
    · exact ⟨_, hw.trans he⟩
    · obtain ⟨rs, hrs⟩ := (h.tree (h.treePhases (.inl hp))).exists_visit
      rw [hrs] at hnone
      cases hnone
  · exact ⟨_, hw⟩

/-- Settles O9. -/
theorem stepAnswersUnderInvariants : Obligations.StepAnswersUnderInvariants := by
  unfold Obligations.StepAnswersUnderInvariants
  intro s hinv
  cases hin : s.input with
  | nil => exact ⟨s, step_idle hin⟩
  | cons e rest =>
    cases e with
    | word w =>
      rw [step_word hin]
      exact Inv.execWord_answers (s := { s with input := rest }) hinv w
    | reset => exact ⟨_, step_reset hin⟩
    | wordThenReset w => exact ⟨_, step_wordThenReset hin⟩

end Sys2Proof.Machine
end

section
/-! SUPPORT. Error entry (60_exceptions.md R141 to R150): the ways a word can raise an error. -/

namespace Sys2Proof.Machine

/-! ### How a word raises an error -/

/-- The effects of a word that raises an error at the block `a`; `d` is what the word decodes to. -/
inductive ErrorEntry : Decoded → Arch → Effect → Prop where
  /-- The error is raised before the word has written anything (R142, R143, R144, R146, R147, R148). -/
  | atOnce {d : Decoded} {a : Arch} {r : ErrorCode} (hr : Raised r) (hunknown : r ≠ .unknownSymbol)
      (hdecend : d = .ok .decend → a.phase ≠ .ready) : ErrorEntry d a (raise r (start a))
  /-- ENC opens its stream and closes the writer first (R145). -/
  | unknownSymbol {a : Arch} (x : Sym) (hp : a.phase = .ready ∨ a.phase = .enc) :
      ErrorEntry (.ok (.enc x)) a (raise .unknownSymbol (closeWriter (start (startEncode a))))
  /-- DECEND in READY starts its stream first (R143, R144). -/
  | streamStart {a : Arch} {r : ErrorCode} (hr : Raised r) (hunknown : r ≠ .unknownSymbol) (hp : a.phase = .ready) :
      ErrorEntry (.ok .decend) a (raise r (start (startDecode a)))

theorem ErrorEntry.raised {d : Decoded} {a : Arch} {e : Effect} (h : ErrorEntry d a e) : Raised e.arch.err := by
  cases h with
  | atOnce hr _ _ => exact hr
  | unknownSymbol _ _ => simp [Raised]
  | streamStart hr _ _ => exact hr

theorem ErrorEntry.of_decend {a : Arch} {r : ErrorCode} (hp : a.phase = .ready ∨ a.phase = .dec) (hr : Raised r)
    (hunknown : r ≠ .unknownSymbol) : ErrorEntry (.ok .decend) a (raise r (start (startDecode a))) := by
  rcases startDecode_eq hp with ⟨hp, -⟩ | ⟨hp, hs⟩
  · exact .streamStart hr hunknown hp
  · rw [hs]
    exact .atOnce hr hunknown fun _ => by simp [hp]

/-- A rule that answers `ok = 0` has raised one of its command's errors. -/
theorem ruleOf_errorEntry {i : Instr} {a : Arch} {e : Effect} (hr : readsOnly i = false) (hl : legalIn i a.phase = true)
    (h : ruleOf i a = .next e) (hok : e.ok = false) : ErrorEntry (.ok i) a e := by
  cases i
  case clr => cases h; cases hok
  case cnt x =>
    rcases countRule_effect h with ⟨-, rfl⟩ | ⟨-, rfl⟩
    · exact .atOnce (by simp [Raised]) (by simp) (by simp)
    · cases hok
  case build =>
    rcases buildRule_effect h with ⟨-, rfl⟩ | ⟨-, rfl⟩
    · exact .atOnce (by simp [Raised]) (by simp) (by simp)
    · cases hok
  case derive => obtain ⟨rs, rfl⟩ := deriveRule_effect h; cases hok
  case enc x =>
    rcases encodeRule_effect h with ⟨-, rfl⟩ | ⟨-, rfl⟩
    · cases hok
    · exact .unknownSymbol x (legalIn_enc_iff.1 hl)
  case encend => rw [encodeEndRule_effect h] at hok; cases hok
  case dec b => rw [decodeRule_effect h] at hok; cases hok
  case decend =>
    have hp : a.phase = .ready ∨ a.phase = .dec := by simpa [legalIn, legalPhases] using hl
    rcases decodeEndRule_effect h with ⟨-, rfl⟩ | ⟨-, -, rfl⟩ | ⟨-, -, rfl⟩
    · cases hok
    · exact .of_decend hp (by simp [Raised]) (by simp)
    · exact .of_decend hp (by simp [Raised]) (by simp)
  all_goals cases hr

/-! ### Error entry (R150) -/

theorem checked_errorEntry {i : Instr} {a : Arch} {e : Effect} (hw : i.wellFormed = true) (h : checked i (ruleOf i) a = .next e)
    (hp : a.phase ≠ .err) (he : e.arch.phase = .err) : ErrorEntry (.ok i) a e := by
  have hok : e.ok = false := (checked_responseOk hw h).ok.2 ⟨he, fun hread => hp hread.1⟩
  rcases checked_cases i (ruleOf i) a with ⟨hl, hc⟩ | ⟨-, hp', -⟩ | ⟨hl, -, hc⟩
  · rw [hc] at h
    cases hr : readsOnly i
    · exact ruleOf_errorEntry hr hl h hok
    · obtain ⟨v, -, rfl⟩ := readsOnly_effect hr hw h
      cases hok
  · exact absurd hp' hp
  · rw [hc] at h
    cases h
    refine .atOnce (by simp [Raised]) (by simp) fun hd hready => ?_
    cases hd
    rw [hready] at hl
    cases hl

/-- A word enters phase ERR in one of these ways. -/
theorem execWord_errorEntry {w : CmdWord} {s t : State} (h : execWord w s = .next t) (hp : s.arch.phase ≠ .err)
    (ht : t.arch.phase = .err) : ∃ e, t = s.deliver e ∧ ErrorEntry (decode w) s.arch e := by
  rcases execWord_cases w s with ⟨i, hd, hx⟩ | ⟨r, hd, hx⟩ <;> rw [hx] at h <;> rw [hd]
  · obtain ⟨e, he, rfl⟩ := exec_next h
    exact ⟨e, rfl, checked_errorEntry (encodeOfDecodeIsSameWord w i hd).2 he hp ht⟩
  · rw [illegal, if_neg hp] at h
    cases h
    exact ⟨_, rfl, .atOnce (by simp [Raised]) (by simp) (by simp)⟩

/-- What an UnknownSymbol leaves: the writer closed, and the byte it held delivered (44_codec.md R116). -/
theorem raise_unknownSymbol_eq {a : Arch} (hp : a.phase = .ready ∨ a.phase = .enc) :
    raise .unknownSymbol (closeWriter (start (startEncode a))) =
      { arch := withError { a with wacc := 0#8, wcnt := 0#3 } .unknownSymbol
        outs := if a.phase = .enc ∧ a.wcnt ≠ 0#3 then [⟨.cbyte, a.wacc⟩] else []
        ok := false
        data := 0#32 } := by
  rw [closeWriter_eq]
  rcases startEncode_eq hp with ⟨hr, hs⟩ | ⟨he, hs⟩ <;> rw [hs]
  · simp [hr, raise, withError]
  · by_cases hn : a.wcnt = 0#3 <;> simp [he, hn, raise, withError]

namespace ErrorEntry

variable {d : Decoded} {a : Arch} {e : Effect} (h : ErrorEntry d a e)
include h

theorem answer : e.ok = false ∧ e.data = 0#32 := by
  cases h <;> exact ⟨rfl, rfl⟩

/-- Only an UnknownSymbol has a record, the byte that the writer held. -/
theorem records :
    e.outs = if e.arch.err = .unknownSymbol ∧ a.phase = .enc ∧ a.wcnt ≠ 0#3 then [⟨.cbyte, a.wacc⟩] else [] := by
  cases h with
  | atOnce _ hunknown _ => exact (if_neg fun hc => hunknown hc.1).symm
  | unknownSymbol x hp => simp [raise_unknownSymbol_eq hp, withError]
  | streamStart _ hunknown _ => exact (if_neg fun hc => hunknown hc.1).symm

/-- What else than PHASE and ERR has changed. -/
theorem frame :
    (e.arch.err = .unknownSymbol ∧ (∃ x, d = .ok (.enc x)) ∧
      e.arch = withError { a with wacc := 0#8, wcnt := 0#3 } .unknownSymbol) ∨
    (d = .ok .decend ∧ a.phase = .ready ∧ e.arch = withError { a with cur := a.root, emitted := 0#32 } e.arch.err) ∨
    (e.arch.err ≠ .unknownSymbol ∧ (d = .ok .decend → a.phase ≠ .ready) ∧ e.arch = withError a e.arch.err) := by
  cases h with
  | atOnce _ hunknown hdecend => exact .inr (.inr ⟨hunknown, hdecend, rfl⟩)
  | unknownSymbol x hp =>
    rw [raise_unknownSymbol_eq hp]
    exact .inl ⟨rfl, ⟨x, rfl⟩, rfl⟩
  | streamStart _ _ hp => exact .inr (.inl ⟨rfl, hp, by simp [startDecode, hp, withError]⟩)

end ErrorEntry

/-- Settles O49. -/
theorem errorEntryWritesOnlyPhaseAndErr : Obligations.ErrorEntryWritesOnlyPhaseAndErr := by
  unfold Obligations.ErrorEntryWritesOnlyPhaseAndErr
  intro w s t h hp ht
  obtain ⟨e, rfl, hentry⟩ := execWord_errorEntry h hp ht
  refine ⟨hentry.raised.1, ?_, hentry.frame⟩
  have hgives := gives_deliver s e
  rw [hentry.answer.1, hentry.answer.2, hentry.records] at hgives
  exact hgives

/-! ### The collaborator's errors (R141) -/

/-- ERR is `r`, or no error of the collaborator. -/
def HoldsOrOwn (r : ErrorCode) (a : Arch) : Prop := a.err = r ∨ (a.err ≠ .notFound ∧ a.err ≠ .ioFailure)

theorem HoldsOrOwn.trans {r : ErrorCode} {a b : Arch} (ha : HoldsOrOwn r a) (hb : HoldsOrOwn a.err b) : HoldsOrOwn r b := by
  rcases hb with hsame | hown
  · unfold HoldsOrOwn
    rwa [hsame]
  · exact .inr hown

theorem ruleOf_holdsOrOwn {i : Instr} {a : Arch} {e : Effect} (hl : legalIn i a.phase = true) (h : ruleOf i a = .next e) :
    HoldsOrOwn a.err e.arch := by
  cases hr : readsOnly i
  case true =>
    rcases readsOnly_rule_arch hr h with h' | rfl
    · exact .inl (by rw [h'])
    · rcases illegal_arch_cases a with h' | ⟨-, h'⟩ <;> rw [h']
      · exact .inl rfl
      · exact .inr (by simp [withError])
  by_cases hi : i = .clr
  · subst hi
    cases h
    exact .inr (by simp [Arch.reset])
  rcases ruleOf_respondsOrRaises hr hl h with ⟨c, rfl, hp⟩ | ⟨r, c, rfl⟩
  · exact .inl (not_not.1 fun hne => hp ((ruleOf_writesOnly h hi).error hne))
  · exact .inr (ruleOf_errorEntry hr hl h rfl).raised.2

/-- Settles O50: reset, the errors of the checks and every command's rule leave ERR or write another value. -/
theorem collaboratorErrorsAreNeverRaised : Obligations.CollaboratorErrorsAreNeverRaised := by
  unfold Obligations.CollaboratorErrorsAreNeverRaised
  intro s t h herr
  have hholds : HoldsOrOwn s.arch.err t.arch := by
    refine step_keeps (P := HoldsOrOwn s.arch.err) (.inr (by simp [Arch.reset])) (fun a r _ _ hr => .inr ?_)
      (fun i a e ha hl hrule => ha.trans (ruleOf_holdsOrOwn hl hrule)) (.inl rfl) h
    rcases hr with rfl | rfl <;> simp [withError]
  rcases hholds with hsame | ⟨hnf, hio⟩
  · exact hsame
  · exact absurd herr (by simp [hnf, hio])

end Sys2Proof.Machine
end

section
/-! SUPPORT. Reset (70_reset_and_hazards.md R165, R166): the reset values of FREQ and CODE, and what an abandoned command has
delivered. -/

namespace Sys2Proof.Machine

/-! ### What an abandoned command leaves (R166) -/

theorem recordsOf_records_append (outs : List OutRecord) (ds : List Delivery) :
    recordsOf (outs.map .record ++ ds) = outs.map .record ++ recordsOf ds := by
  induction outs with
  | nil => rfl
  | cons r outs ih => simp [recordsOf, ih]

/-- Of a command that would have answered, `rst` lets through a prefix of its records, and no response. -/
theorem abandon_delivered_of_gives {o : Host.Outcome State Fault Refusal} {s : State} {a : Arch} {outs : List OutRecord}
    {ok : Bool} {data : BitVec 32} (h : Gives o s a outs ok data) :
    (s.abandon o).delivered = s.delivered ++ (outs.take (Config.abandonedRecords s.draws)).map .record := by
  rw [Gives] at h
  simp [State.abandon, h, recordsOf_records_append, recordsOf]

/-- Settles O8: `rst` between commands writes only the block; during one it also keeps a prefix of the records. -/
theorem abandonedCommandLeavesOnlySomeRecords : Obligations.AbandonedCommandLeavesOnlySomeRecords := by
  unfold Obligations.AbandonedCommandLeavesOnlySomeRecords
  constructor
  · intro s rest hin
    exact ⟨_, step_reset hin, rfl, rfl, rfl⟩
  · intro s w rest hin
    exact ⟨_, step_wordThenReset hin, rfl, rfl, fun a outs ok data hgives => ⟨_, abandon_delivered_of_gives hgives⟩⟩

/-! ### The reset values (R165) -/

@[simp] theorem freqAt_reset (x : Sym) : Arch.reset.freqAt x = 0#32 := rfl

@[simp] theorem codeAt_reset (x : Sym) : Arch.reset.codeAt x = ⟨false, 0#8, 0#256⟩ := rfl

/-- Settles O7: the start, CLR and `rst` all leave the block `Arch.reset`, whose elements are the values of R165. -/
theorem resetAndClrGiveResetValues : Obligations.ResetAndClrGiveResetValues := by
  unfold Obligations.ResetAndClrGiveResetValues
  intro AllReset
  have hreset : AllReset Arch.reset :=
    ⟨rfl, rfl, rfl, freqAt_reset, rfl, rfl, rfl, rfl, codeAt_reset, rfl, rfl, rfl, rfl⟩
  refine ⟨hreset, step_idle rfl, fun s => ?_, fun s rest hin => ?_⟩
  · exact ⟨Arch.reset, hreset, clrAnswersFromResetState s⟩
  · exact ⟨Arch.reset, hreset, step_reset hin⟩

end Sys2Proof.Machine
end
